-- ==== Sys2Proof/Word.lean ====
section
/-! DEFINITION. The block's plain words: bytes, addresses, page numbers, Mathbox words (00_scope R9). -/

namespace Sys2Proof

/-- One cell of the CPU address space (00_scope R7, DATA_BITS). -/
abbrev Byte := BitVec 8

/-- A 16-bit CPU address (00_scope R7, ADDR_BITS). -/
abbrev Addr := BitVec 16

/-- A page number, one of 256 (00_scope R7, NUM_PAGES). -/
abbrev Page := BitVec 8

/-- A 16-bit Mathbox word (00_scope R9). -/
abbrev Word := BitVec 16

/-- A 15-bit index of a Mathbox word (20_memory R51). -/
abbrev WordIndex := BitVec 15

/-- A 14-bit target handle (30_encoding R74). -/
abbrev Handle := BitVec 14

end Sys2Proof
end

