-- ==== Sys2Proof/Config.lean ====
section
/-! DEFINITION. What is fixed for one machine: the implementation parameters of 00_scope R7 as plain data, and the
free values the spec leaves open, as constants with no body. -/

namespace Sys2Proof

/-- The two sides of a page: the read target and the write target (10_state R21). -/
inductive Side where
  | R
  | W
  deriving DecidableEq, Repr, Inhabited

/-- A handler: the Register/Bank glue, or one of the platform's (00_scope R7, HANDLERS). -/
inductive HandlerId where
  | glue
  | platform (id : Nat)
  deriving DecidableEq, Repr, Inhabited

/-- What a map command names for a whole range (10_state R23). `wbase` is a plain number, because a base of 0x8000 or
more can be named and is refused only by the map-time check (40_mapping R104). -/
inductive TargetSpec where
  | discard
  | buffer (buf base : Nat)
  | mbx (wbase : Nat)
  | handler (h : HandlerId)
  deriving DecidableEq, Repr, Inhabited

/-- One entry of BUFFERS: length, whether a write side may name it, and the initial bytes as (index, byte) pairs, an
index not listed holding zero (00_scope R7, 10_state R28). -/
structure BufferInfo where
  len : Nat
  writable : Bool
  init : List (Nat × Byte)
  deriving DecidableEq, Repr, Inhabited

/-- One bank-select function k: BS_ADDR, BS_DECODE, BS_WINDOW, BS_TABLE and BS_RESET (00_scope R7). -/
structure BankSelect where
  addr : Addr
  decode : Vector Nat 256
  winStart : Page
  winEnd : Page
  table : List (Nat × (TargetSpec × TargetSpec))
  resetBank : Nat
  deriving DecidableEq, Repr, Inhabited

/-- What an entry of BOOT_MAP maps its range to: the handle of a MAPR or MAPW command (00_scope R7, 70_reset_and_hazards
R232), or a target spec itself, which need have no handle (10_state R23). Log 16. -/
inductive BootTarget where
  | handle (t : Handle)
  | spec (t : TargetSpec)
  deriving DecidableEq, Repr, Inhabited

/-- One map command of BOOT_MAP: MAPR for side R, MAPW for side W (00_scope R7, 70_reset_and_hazards R232). -/
structure BootEntry where
  side : Side
  pageStart : Page
  pageEnd : Page
  target : BootTarget
  deriving DecidableEq, Repr, Inhabited

/-- The parameters of 00_scope R7 that are OPEN there. Buffers are numbered by their place in the list. NUM_BS is the
length of `banks`. MBX_ROM is listed as (word index, word) pairs, an index not listed holding zero. -/
structure Config where
  buffers : List BufferInfo
  handlers : List Nat
  targets : List (Handle × TargetSpec)
  banks : List BankSelect
  ctrlAAddr : Addr
  ctrlAStartMask : Byte
  resetStartLevel : Bool
  ctrlBAddr : Addr
  alphaMapAddr : Option Addr
  bootMap : List BootEntry
  mbxRom : List (Nat × Word)
  deriving DecidableEq, Repr, Inhabited

/-- The parameters of the machine at hand. OPEN: no value is known (00_scope R7). Log 1. -/
opaque Config.openParameters : Config

/-- The byte a platform handler's read returns, at the n-th draw: a free value (41_access R123). Log 2. -/
opaque Config.handlerByte (draw : Nat) : Byte

/-- Word w of the Mathbox RAM the engine leaves, when it starts on this RAM and this ROM, at the n-th draw: a free value
(42_register_glue R162, MATHBOX_ENGINE). Log 3. -/
opaque Config.engineWord (draw : Nat) (ram rom : List (Nat × Word)) (w : Nat) : Word

/-- Word w of Mathbox RAM after the reset that is the n-th draw: a free value (10_state R31). Log 4. -/
opaque Config.resetWord (draw w : Nat) : Word

end Sys2Proof
end

