-- ==== Sys2Proof/Syntax.lean ====
section
/-! DEFINITION. The four commands, one constructor for each row of spec/opcode_table.json, with the calls and the
pseudo-commands that stand for them. Every field has exactly the width of its bits, so every term is well formed. -/

namespace Sys2Proof

/-- A command (00_scope R3), with the operands of 30_encoding R72 to R74 in assembler order (30_encoding R80). -/
inductive Instr where
  | read (a : Addr)
  | write (a : Addr) (d : Byte)
  | mapr (s e : Page) (t : Handle)
  | mapw (s e : Page) (t : Handle)
  deriving DecidableEq, Repr, Inhabited

/-- A call at the functional interface: the arguments are unbounded, and a map call names a target spec
(30_encoding R78). -/
inductive Call where
  | read (addr : Int)
  | write (addr val : Int)
  | mapRead (ps pe : Int) (t : TargetSpec)
  | mapWrite (ps pe : Int) (t : TargetSpec)
  deriving DecidableEq, Repr, Inhabited

/-- A pseudo-command (30_encoding R81). -/
inductive Pseudo where
  | maprw (s e : Page) (t : Handle)
  | maprom (s e : Page) (t : Handle)
  | unmapr (s e : Page)
  | unmapw (s e : Page)
  | unmap (s e : Page)
  deriving DecidableEq, Repr, Inhabited

end Sys2Proof
end

