-- ==== Sys2Proof/Decode.lean ====
section
/-! DEFINITION. Decoding a 32-bit command word, encoding a command, and the expansions of the pseudo-commands
(30_encoding). -/

namespace Sys2Proof

/-- The OP field, bits 31:30 (30_encoding R71). -/
def opField (w : BitVec 32) : BitVec 2 := w.extractLsb' 30 2

/-- The address field, bits 15:0 of READ and WRITE (30_encoding R75). -/
def fieldA (w : BitVec 32) : Addr := w.extractLsb' 0 16

/-- The data field, bits 23:16 of WRITE (30_encoding R75). -/
def fieldD (w : BitVec 32) : Byte := w.extractLsb' 16 8

/-- The pageStart field, bits 7:0 of MAPR and MAPW (30_encoding R75). -/
def fieldS (w : BitVec 32) : Page := w.extractLsb' 0 8

/-- The pageEnd field, bits 15:8 of MAPR and MAPW (30_encoding R75). -/
def fieldE (w : BitVec 32) : Page := w.extractLsb' 8 8

/-- The handle field, bits 29:16 of MAPR and MAPW (30_encoding R75). -/
def fieldT (w : BitVec 32) : Handle := w.extractLsb' 16 14

/-- READ's reserved bits 29:16 (30_encoding R72). -/
def reservedR (w : BitVec 32) : BitVec 14 := w.extractLsb' 16 14

/-- WRITE's reserved bits 29:24 (30_encoding R73). -/
def reservedW (w : BitVec 32) : BitVec 6 := w.extractLsb' 24 6

/-- The command a word stands for; none for an illegal word (30_encoding R76, R79). -/
def decode (w : BitVec 32) : Option Instr :=
  if opField w = 0#2 then
    if reservedR w = 0#14 then some (.read (fieldA w)) else none
  else if opField w = 1#2 then
    if reservedW w = 0#6 then some (.write (fieldA w) (fieldD w)) else none
  else if opField w = 2#2 then some (.mapr (fieldS w) (fieldE w) (fieldT w))
  else some (.mapw (fieldS w) (fieldE w) (fieldT w))

/-- The word of a command (30_encoding R72, R73, R74). -/
def encode : Instr → BitVec 32
  | .read a => 0#2 ++ (0#14 ++ a)
  | .write a d => 1#2 ++ (0#6 ++ (d ++ a))
  | .mapr s e t => 2#2 ++ (t ++ (e ++ s))
  | .mapw s e t => 3#2 ++ (t ++ (e ++ s))

/-- The command word whose bits are w, of which nbits are given and the rest are zero: the block's words are 32 bits
and are not stored in bytes (30_encoding R70), so bit n of w is bit n of the word. -/
def tableWord (nbits w : Nat) : BitVec 32 := BitVec.ofNat 32 (w % 2 ^ nbits)

/-- What the decoder reads from a word numbered as spec/opcode_table.json numbers its bits. A word of more than 32 bits
is no command (30_encoding R70). -/
def decodeTableWord (nbits w : Nat) : Option Instr :=
  if nbits ≤ 32 then decode (tableWord nbits w) else none

/-- The commands a pseudo-command stands for, in order (30_encoding R81). Handle 0 is Discard. -/
def Pseudo.expand : Pseudo → List Instr
  | .maprw s e t => [.mapr s e t, .mapw s e t]
  | .maprom s e t => [.mapr s e t, .mapw s e 0]
  | .unmapr s e => [.mapr s e 0]
  | .unmapw s e => [.mapw s e 0]
  | .unmap s e => [.mapr s e 0, .mapw s e 0]

/-- The words of a pseudo-command, which has no encoding of its own (30_encoding R81). -/
def Pseudo.words (p : Pseudo) : List (BitVec 32) := p.expand.map encode

end Sys2Proof
end

