-- ==== Sys2Proof/Machine/Types.lean ====
section
/-! DEFINITION. The data types of the block's state: page descriptors, model faults, events, and what the caller and
the host issue (10_state). -/

namespace Sys2Proof.Machine

/-- A page descriptor (10_state R22). `off` is the index in the buffer of the page's byte 0, `woff` the index in
Mathbox Memory of its word 0. -/
inductive PageDesc where
  | discard
  | buffer (buf off : Nat)
  | mbx (woff : WordIndex)
  | handler (h : HandlerId)
  deriving DecidableEq, Repr, Inhabited

/-- One side of the page table: a descriptor for each of the 256 pages (10_state R21). -/
abbrev PageTable := Vector PageDesc 256

/-- A fault of the model, with the info its row of 60_exceptions R202 records. -/
inductive ModelFault where
  /-- F_REMAP_INFLIGHT: the range of a map holds a page with an access in flight. -/
  | remapInflight (side : Side) (page : Page)
  /-- F_MAP_RANGE: a page number of a functional call is outside 0..255. -/
  | mapRange (ps pe : Int)
  /-- F_BAD_HANDLE: the handle is not assigned. -/
  | badHandle (t : Handle)
  /-- F_MAP_BOUNDS: a Buffer spec would reach past the buffer's end. -/
  | mapBounds (buf base : Nat) (ps pe : Page)
  /-- F_MAP_READONLY: a write side names a buffer that is not writable. -/
  | mapReadonly (buf : Nat)
  /-- F_MAP_UNKNOWN: the spec names no configured buffer or handler, or a Mathbox base of 0x8000 or more. -/
  | mapUnknown (spec : TargetSpec)
  /-- F_MAP_GLUE_READ: the glue on a read side. -/
  | mapGlueRead (ps pe : Page)
  deriving DecidableEq, Repr

/-- An event of the trace (10_state R36). -/
inductive Event where
  | hRd (h : Nat) (addr : Addr) (v : Byte)
  | hWr (h : Nat) (addr : Addr) (v : Byte)
  | bankSel (k idx : Nat)
  | mbxStart
  | mbxDone
  | videoCtrl (v : Byte)
  | alphaMap (v : Byte)
  deriving DecidableEq, Repr

/-- What a snapshot holds (70_reset_and_hazards R236): Mathbox RAM, the bank indices, the start level. -/
structure Snapshot where
  mbx : List (Nat × Word)
  bank : List Nat
  startLevel : Bool
  deriving DecidableEq, Repr

/-- What the host may do between two top-level commands (70_reset_and_hazards R235). -/
inductive HostAction where
  | reset
  | snapshot
  | restore
  deriving DecidableEq, Repr

/-- One entry of the input: a command word, a functional call, or an action of the host (10_state R38, log 8). -/
inductive Input where
  | word (w : BitVec 32)
  | call (c : Call)
  | host (h : HostAction)
  deriving DecidableEq, Repr

/-- Whether boot is still to run before the caller's first command (70_reset_and_hazards R232). -/
inductive Phase where
  | boot
  | run
  deriving DecidableEq, Repr

end Sys2Proof.Machine
end

