-- ==== Sys2Proof/Machine/Cells.lean ====
section
/-! DEFINITION. Sparse memory: a list of (index, value) pairs, indexes strictly rising, no value zero. What an index
that is not listed reads as is `Cells.unlisted`, zero (log 6). Buffers use it with bytes, Mathbox Memory with words. -/

namespace Sys2Proof.Machine

/-- A memory of n-bit values. With bytes it is a list of `Host.Cell`. -/
abbrev Cells (n : Nat) := List (Nat × BitVec n)

/-- What an index that is not listed reads as. -/
def Cells.unlisted (n : Nat) : BitVec n := 0#n

/-- The value at index i. -/
def Cells.read {n : Nat} (m : Cells n) (i : Nat) : BitVec n := (m.lookup i).getD (Cells.unlisted n)

/-- Puts (i, v) in front of the first entry with an index above i. -/
def Cells.place {n : Nat} (i : Nat) (v : BitVec n) : Cells n → Cells n
  | [] => [(i, v)]
  | e :: m => if i < e.1 then (i, v) :: e :: m else e :: Cells.place i v m

/-- The memory with v at index i, in canonical form again. -/
def Cells.write {n : Nat} (m : Cells n) (i : Nat) (v : BitVec n) : Cells n :=
  let rest := m.filter fun e => e.1 != i
  if v = Cells.unlisted n then rest else Cells.place i v rest

/-- The memory that holds f i at every index i below len. Irreducible, so that comparing two states never runs through
the thousands of indexes of Mathbox RAM. -/
@[irreducible] def Cells.ofFn {n : Nat} (len : Nat) (f : Nat → BitVec n) : Cells n :=
  (List.range len).filterMap fun i => if f i = Cells.unlisted n then none else some (i, f i)

/-- Indexes strictly rise, from lo upwards. -/
def Cells.rising {n : Nat} : Nat → Cells n → Bool
  | _, [] => true
  | lo, e :: m => decide (lo ≤ e.1) && Cells.rising (e.1 + 1) m

/-- The canonical form of a memory of len cells: indexes strictly rising and below len, no entry equal to what an
unlisted index reads as. -/
def Cells.wf {n : Nat} (len : Nat) (m : Cells n) : Bool :=
  Cells.rising 0 m && m.all fun e => decide (e.1 < len) && decide (e.2 ≠ Cells.unlisted n)

end Sys2Proof.Machine
end

