-- ==== Sys2Proof/Machine/Operands.lean ====
section
/-! DEFINITION. Every operand form: page decode, page ranges, the lookup of a handle, the descriptor of a target spec,
the lanes of the Mathbox window, and the map-time checks. -/

namespace Sys2Proof.Machine

/-- page(a) = a[15:8] (00_scope R12). -/
def pageOf (a : Addr) : Page := a.extractLsb' 8 8

/-- off(a) = a[7:0] (00_scope R12). -/
def offOf (a : Addr) : Byte := a.extractLsb' 0 8

/-- How many words of Mathbox Memory are RAM: MBX_RAM_WORDS (00_scope R7). -/
def mbxRamWords : Nat := 0x2000

/-- How many words Mathbox Memory has: MBX_WORDS (00_scope R7). -/
def mbxWords : Nat := 0x8000

/-- MBX_EVEN_HIGH: the even CPU byte of a window word is bits 15:8 (00_scope R7, decision D12). -/
def mbxEvenHigh : Bool := true

/-- DISCARD_READ (00_scope R7). -/
def discardRead : Byte := 0x00

/-- Page p is in the inclusive range (ps, pe), which is empty when ps > pe (00_scope R12). -/
def inRange (ps pe p : Page) : Bool := decide (ps ≤ p) && decide (p ≤ pe)

/-- The pages of the range in ascending order (40_mapping R100). -/
def pagesOf (ps pe : Page) : List Page :=
  (List.range' ps.toNat (pe.toNat + 1 - ps.toNat)).map (BitVec.ofNat 8)

/-- TGT[T]: handle 0 is Discard always, another handle is what the table lists first for it (10_state R23, log 17). -/
def targetOf (c : Config) (t : Handle) : Option TargetSpec :=
  if t = 0#14 then some .discard else c.targets.lookup t

/-- The target spec an entry of BOOT_MAP names, if its handle is assigned (10_state R23, log 16). -/
def bootTargetOf (c : Config) : BootTarget → Option TargetSpec
  | .handle t => targetOf c t
  | .spec t => some t

/-- desc(t, ps, p): the descriptor page p receives when t is mapped over a range that starts at ps (10_state R24). -/
def desc (t : TargetSpec) (ps p : Page) : PageDesc :=
  match t with
  | .discard => .discard
  | .buffer buf base => .buffer buf (base + (p.toNat - ps.toNat) * 256)
  | .mbx wbase => .mbx (BitVec.ofNat 15 (wbase + (p.toNat - ps.toNat) * 128))
  | .handler h => .handler h

/-- The word a window byte lies in: woff + (o >> 1), reduced to 15 bits (20_memory R55, 41_access R124). -/
def windowWord (woff : WordIndex) (a : Addr) : WordIndex := woff + (offOf a >>> 1).setWidth 15

/-- The lane of a window byte: bit 0 of its address (20_memory R55). -/
def laneOf (a : Addr) : Bool := a.getLsbD 0

/-- Whether a lane is bits 15:8 of the word: lane 0 if the even byte is the high one, else lane 1 (20_memory R55). -/
def laneIsHigh (evenHigh lane : Bool) : Bool := lane != evenHigh

/-- The byte in a lane of a word (20_memory R55). -/
def laneGet (evenHigh lane : Bool) (w : Word) : Byte :=
  if laneIsHigh evenHigh lane then w.extractLsb' 8 8 else w.extractLsb' 0 8

/-- The word with the byte in a lane replaced by v (41_access R124). -/
def laneSet (evenHigh lane : Bool) (w : Word) (v : Byte) : Word :=
  if laneIsHigh evenHigh lane then v ++ w.extractLsb' 0 8 else w.extractLsb' 8 8 ++ v

/-- The map-time checks, in order: the first fault that applies, or none (40_mapping R104). -/
def checkTarget (c : Config) (side : Side) (ps pe : Page) (t : TargetSpec) : Option ModelFault :=
  match t with
  | .discard => none
  | .buffer buf base =>
    match c.buffers[buf]? with
    | none => some (.mapUnknown t)
    | some info =>
      if info.len < base + (pe.toNat - ps.toNat + 1) * 256 then some (.mapBounds buf base ps pe)
      else if side = .W ∧ info.writable = false then some (.mapReadonly buf)
      else none
  | .mbx wbase => if wbase < mbxWords then none else some (.mapUnknown t)
  | .handler .glue => if side = .R then some (.mapGlueRead ps pe) else none
  | .handler (.platform h) => if h ∈ c.handlers then none else some (.mapUnknown t)

/-- The fault code of 60_exceptions R202. -/
def faultCode : ModelFault → Nat
  | .remapInflight _ _ => 1
  | .mapRange _ _ => 2
  | .badHandle _ => 3
  | .mapBounds _ _ _ _ => 4
  | .mapReadonly _ => 5
  | .mapUnknown _ => 6
  | .mapGlueRead _ _ => 7

/-- The descriptor of page p. -/
def tableAt (t : PageTable) (p : Page) : PageDesc := t[p.toNat]'(p.isLt)

/-- The table with descriptor d at page p. -/
def tableSet (t : PageTable) (p : Page) (d : PageDesc) : PageTable := t.set p.toNat d (p.isLt)

/-- Every page Discard (70_reset_and_hazards R230). -/
def allDiscard : PageTable := Vector.replicate 256 .discard

/-- The table after `for p in ps .. pe: PT[p] <- desc(t, ps, p)` (40_mapping R100). -/
def tableMap (tbl : PageTable) (ps pe : Page) (t : TargetSpec) : PageTable :=
  (pagesOf ps pe).foldl (fun tbl p => tableSet tbl p (desc t ps p)) tbl

/-- The addresses of the glue registers (42_register_glue R150). -/
def glueAddrs (c : Config) : List Addr :=
  c.banks.map BankSelect.addr ++ [c.ctrlAAddr, c.ctrlBAddr] ++ c.alphaMapAddr.toList

/-- Page p holds a glue register (42_register_glue R150). -/
def isGluePage (c : Config) (p : Page) : Bool := (glueAddrs c).any fun a => pageOf a == p

/-- The glue pages, ascending (70_reset_and_hazards R232). -/
def gluePages (c : Config) : List Page := (pagesOf 0#8 255#8).filter (isGluePage c)

/-- BS_TABLE[k](i) as (read spec, write spec): both Discard where the table has no entry (42_register_glue R155, R156). -/
def bankTargets (b : BankSelect) (idx : Nat) : TargetSpec × TargetSpec :=
  (b.table.lookup idx).getD (.discard, .discard)

/-- BS_DECODE[k](d) (42_register_glue R154). -/
def bankDecode (b : BankSelect) (d : Byte) : Nat := b.decode[d.toNat]'(d.isLt)

/-- The start level a byte written to control register A presents (42_register_glue R160). -/
def startLevelOf (c : Config) (d : Byte) : Bool := decide (d &&& c.ctrlAStartMask ≠ 0#8)

end Sys2Proof.Machine
end

