-- ==== Sys2Proof/WellFormed.lean ====
section
/-! DEFINITION. Which configurations and which data are well formed. Every `Instr` is, by the widths of its fields. -/

namespace Sys2Proof

open Machine

/-- 00_scope R8 (a): TGT[0] = Discard: the table lists handle 0 as nothing else (log 17). -/
def Config.targetZeroOk (c : Config) : Bool :=
  c.targets.all fun e => !decide (e.1 = 0#14) || decide (e.2 = .discard)

/-- 00_scope R8 (b): every window is a non-empty page range. -/
def Config.windowsOk (c : Config) : Bool := c.banks.all fun b => decide (b.winStart ≤ b.winEnd)

/-- 00_scope R8 (c): no glue register lies on a page inside a window. -/
def Config.glueOutsideWindows (c : Config) : Bool :=
  (glueAddrs c).all fun a => c.banks.all fun b => !inRange b.winStart b.winEnd (pageOf a)

/-- 00_scope R8 (d), first half: every entry of every bank table passes the map-time checks over its window. -/
def Config.bankTablesOk (c : Config) : Bool :=
  c.banks.all fun b => b.table.all fun e =>
    (checkTarget c .R b.winStart b.winEnd e.2.1).isNone && (checkTarget c .W b.winStart b.winEnd e.2.2).isNone

/-- One command of BOOT_MAP completes: a handle it names is assigned, and its range is empty or its target passes. -/
def Config.bootEntryOk (c : Config) (e : BootEntry) : Bool :=
  match bootTargetOf c e.target with
  | none => false
  | some t => decide (e.pageEnd < e.pageStart) || (checkTarget c e.side e.pageStart e.pageEnd t).isNone

/-- 00_scope R8 (d), second half: boot completes without a fault. The glue's own pages and the windows' reset banks
cannot fault when the rest holds, so this is what BOOT_MAP adds (log 18). -/
def Config.bootMapOk (c : Config) : Bool := c.bootMap.all c.bootEntryOk

/-- 00_scope R7: NUM_BS is at least 1 and CTRL_A_START_MASK is not zero. -/
def Config.parametersOk (c : Config) : Bool := !c.banks.isEmpty && decide (c.ctrlAStartMask ≠ 0#8)

/-- BUFFERS[b].init lists bytes inside the buffer, in the canonical form of memory. -/
def Config.initOk (c : Config) : Bool := c.buffers.all fun b => Cells.wf b.len b.init

/-- A well-formed configuration (00_scope R8, with the constraints R7 states beside the parameters). -/
def Config.wellFormed (c : Config) : Bool :=
  c.targetZeroOk && c.windowsOk && c.glueOutsideWindows && c.bankTablesOk && c.bootMapOk && c.parametersOk && c.initOk

/-- A smallest well-formed configuration: one bank-select function over page 1, every register on page 0. -/
def Config.bare : Config where
  buffers := []
  handlers := []
  targets := []
  banks := [{ addr := 0, decode := Vector.replicate 256 0, winStart := 1, winEnd := 1, table := [], resetBank := 0 }]
  ctrlAAddr := 1
  ctrlAStartMask := 1
  resetStartLevel := false
  ctrlBAddr := 2
  alphaMapAddr := none
  bootMap := []
  mbxRom := []

/-- c where it is well formed. An ill-formed configuration is refused before reset (00_scope R8), so no machine has
it, and `bare` stands for it. -/
def Config.checked (c : Config) : Config := if c.wellFormed then c else .bare

/-- The configuration of the machine at hand: any well-formed one (00_scope R7, R8). Log 1. -/
def Config.platform : Config := Config.openParameters.checked

/-- A snapshot of a machine with this configuration: canonical RAM and one index for each bank-select function
(70_reset_and_hazards R236). -/
def Machine.Snapshot.wf (c : Config) (p : Machine.Snapshot) : Bool :=
  Cells.wf mbxRamWords p.mbx && decide (p.bank.length = c.banks.length)

/-- A descriptor a read side may hold: what the map-time checks install (10_state R29, 40_mapping R104). -/
def Machine.readDescOk (c : Config) : PageDesc → Bool
  | .discard => true
  | .buffer buf off => match c.buffers[buf]? with
    | none => false
    | some info => decide (off + 255 < info.len)
  | .mbx _ => true
  | .handler .glue => false
  | .handler (.platform h) => decide (h ∈ c.handlers)

/-- A descriptor a write side may hold: a buffer must be writable, and the glue is allowed. -/
def Machine.writeDescOk (c : Config) : PageDesc → Bool
  | .discard => true
  | .buffer buf off => match c.buffers[buf]? with
    | none => false
    | some info => decide (off + 255 < info.len) && info.writable
  | .mbx _ => true
  | .handler .glue => true
  | .handler (.platform h) => decide (h ∈ c.handlers)

end Sys2Proof
end

