-- ==== Sys2Proof/Machine/State.lean ====
section
/-! DEFINITION. The state of the block (10_state R20), the reasons a step can stop, and the state after reset. -/

namespace Sys2Proof.Machine

/-- Why a step stops with a fault. -/
inductive Fault where
  /-- Raised by every command, by a snapshot and by a restore while FAULT is set: no command has a step then
  (10_state R35). Safe: it is the spec's own end of the run. -/
  | stopped (f : ModelFault)
  /-- Raised by READ and WRITE through a Buffer descriptor that reaches outside the buffer. The map-time checks keep
  such a descriptor out of every state a run reaches (10_state R29, log 14). Safe: the model stops. -/
  | noSuchByte (buf idx : Nat)
  /-- Raised by READ through Handler(GLUE), which cannot occur (41_access R123, log 14). Safe: the model stops. -/
  | glueHasNoRead (a : Addr)
  deriving DecidableEq, Repr

/-- Why a step has no meaning. -/
inductive Refusal where
  /-- An instruction that has no meaning yet; only `exec`'s arms may answer it. Safe: the model stops. -/
  | notModelled (mnemonic : String)
  /-- Raised by the step on an illegal word, before any effect (30_encoding R76); what may follow it is log 27. Safe: it is
  the spec's refusal. -/
  | illegalWord (w : BitVec 32)
  /-- Raised by power-up on an ill-formed configuration, before reset (00_scope R8). Safe: it is the spec's refusal. -/
  | illFormedConfig
  /-- Raised by the host's restore when it holds no snapshot (log 12). Safe: the model stops. -/
  | noSnapshot
  deriving DecidableEq, Repr

/-- The state. The fields down to `ev` are the tuple of 10_state R20 with the configuration it depends on; those after
it are the model's own. -/
structure State where
  /-- The configuration, a parameter of every step that no step changes (10_state R37, log 1). -/
  cfg : Config
  /-- PT_R (10_state R21). -/
  ptR : PageTable
  /-- PT_W (10_state R21). -/
  ptW : PageTable
  /-- BUF, one memory of bytes for each buffer of the configuration (10_state R28). -/
  bufs : List (List Host.Cell)
  /-- MBX[0x0000..0x1FFF] (10_state R30). -/
  mbxRam : List (Nat × Word)
  /-- BANK (10_state R32). -/
  bank : List Nat
  /-- START_LEVEL (10_state R33). -/
  startLevel : Bool
  /-- INFLIGHT, top first (10_state R34). -/
  inflight : List (Side × Page)
  /-- FAULT (10_state R35). -/
  fault : Option ModelFault
  /-- EV, oldest first (10_state R36). -/
  ev : List Event
  /-- Whether boot is still to run (70_reset_and_hazards R232, log 13). -/
  phase : Phase
  /-- What the caller and the host issue, in order (10_state R38, log 8). -/
  input : List Input
  /-- The position in `input` (10_state R38). -/
  pos : Nat
  /-- The byte the last command returned (41_access R125, log 19). -/
  returned : Option Byte
  /-- The snapshot the host holds (70_reset_and_hazards R236, log 12). -/
  saved : Option Snapshot
  /-- How many free values have been drawn (log 5). -/
  draws : Nat
  deriving DecidableEq, Repr

/-- The block with configuration c right after a reset that is the n-th draw (10_state R41,
70_reset_and_hazards R230). -/
def State.resetWith (c : Config) (n : Nat) : State where
  cfg := c
  ptR := allDiscard
  ptW := allDiscard
  bufs := c.buffers.map BufferInfo.init
  mbxRam := Cells.ofFn mbxRamWords (Config.resetWord n)
  bank := c.banks.map BankSelect.resetBank
  startLevel := c.resetStartLevel
  inflight := []
  fault := none
  ev := []
  phase := .boot
  input := []
  pos := 0
  returned := none
  saved := none
  draws := n + 1

/-- The machine at hand right after its first reset. -/
def State.reset : State := State.resetWith Config.platform 0

end Sys2Proof.Machine
end

