-- ==== Sys2Proof/Machine/Ops.lean ====
section
/-! DEFINITION. The shared operations: the primitives of 00_scope R11, fault entry, the in-flight stack, buffers and
Mathbox Memory, the shared map procedure, and moving along the input. -/

namespace Sys2Proof.Machine

/-- `raise Fault(code, info)`: FAULT is set and nothing else changes (60_exceptions R201). This is fault entry; what
ends the command, and those it is nested in, is `andThen`. -/
def State.raise (f : ModelFault) (s : State) : State := { s with fault := some f }

/-- `emit E(args)` (00_scope R11). -/
def State.emit (e : Event) (s : State) : State := { s with ev := s.ev ++ [e] }

/-- The rest of a procedure after the part that left s: nothing more if a fault was raised (60_exceptions R201). -/
def State.andThen (s : State) (rest : State → State) : State :=
  match s.fault with
  | none => rest s
  | some _ => s

/-- A procedure body for each x of a list in order, ending at the first fault. -/
def State.forEach {α : Type} (xs : List α) (body : α → State → State) (s : State) : State :=
  xs.foldl (fun s x => s.andThen (body x)) s

/-- A command's body: no command has a step while FAULT is set (10_state R35), and a command returns nothing unless its
body says so (10_state R39). -/
def State.command (s : State) (body : State → Host.Outcome State Fault Refusal) :
    Host.Outcome State Fault Refusal :=
  match s.fault with
  | some f => .fault (.stopped f)
  | none => body { s with returned := none }

/-- Push (side, page) onto INFLIGHT (41_access R123). -/
def State.push (side : Side) (p : Page) (s : State) : State := { s with inflight := (side, p) :: s.inflight }

/-- Pop INFLIGHT (41_access R123). -/
def State.pop (s : State) : State := { s with inflight := s.inflight.tail }

/-- The descriptor of page p on a side. -/
def State.descAt (s : State) : Side → Page → PageDesc
  | .R, p => tableAt s.ptR p
  | .W, p => tableAt s.ptW p

/-- The command returns byte v to its caller. -/
def State.answer (v : Byte) (s : State) : State := { s with returned := some v }

/-- The next free byte of a platform handler's read: any byte (41_access R123, log 2). -/
def State.drawnByte (s : State) : Byte := Config.handlerByte s.draws

/-- One draw has been made. -/
def State.countDraw (s : State) : State := { s with draws := s.draws + 1 }

/-- Buffer b exists and index i is inside it. -/
def State.bufHas (s : State) (b i : Nat) : Bool :=
  match s.cfg.buffers[b]? with
  | none => false
  | some info => decide (i < info.len) && decide (b < s.bufs.length)

/-- BufRead(b, i) (00_scope R11). -/
def State.bufRead (s : State) (b i : Nat) : Byte := Cells.read (n := 8) (s.bufs.getD b []) i

/-- BufWrite(b, i, v) (00_scope R11). -/
def State.bufWrite (b i : Nat) (v : Byte) (s : State) : State :=
  { s with bufs := s.bufs.modify b fun m => Cells.write (n := 8) m i v }

/-- MbxRead(w): RAM below 0x2000, MBX_ROM from there (10_state R30). -/
def State.mbxRead (s : State) (w : WordIndex) : Word :=
  if w.toNat < mbxRamWords then Cells.read (n := 16) s.mbxRam w.toNat else Cells.read (n := 16) s.cfg.mbxRom w.toNat

/-- MbxWrite(w, v): a RAM word takes v, a write to a ROM word is dropped (41_access R124). -/
def State.mbxWrite (w : WordIndex) (v : Word) (s : State) : State :=
  if w.toNat < mbxRamWords then { s with mbxRam := Cells.write (n := 16) s.mbxRam w.toNat v } else s

/-- Page p has an access in flight on either side (40_mapping R105). -/
def State.inFlight (s : State) (p : Page) : Bool := s.inflight.any fun e => e.2 == p

/-- The lowest page of the range that has an access in flight (60_exceptions R206). -/
def State.lowestInFlight (s : State) (ps pe : Page) : Option Page := (pagesOf ps pe).find? s.inFlight

/-- Writes desc(t, ps, p) on one side of every page p of the range (40_mapping R100). -/
def State.setPages (side : Side) (ps pe : Page) (t : TargetSpec) (s : State) : State :=
  match side with
  | .R => { s with ptR := tableMap s.ptR ps pe t }
  | .W => { s with ptW := tableMap s.ptW ps pe t }

/-- MapSide: everything is checked before anything is written; an empty range checks and writes nothing
(40_mapping R100, R104, R105, R106). -/
def State.mapSide (side : Side) (ps pe : Page) (t : TargetSpec) (s : State) : State :=
  if pe < ps then s
  else
    match checkTarget s.cfg side ps pe t with
    | some f => s.raise f
    | none =>
      match s.lowestInFlight ps pe with
      | some p => s.raise (.remapInflight side p)
      | none => s.setPages side ps pe t

/-- A map command by handle: the handle check, then MapSide (40_mapping R101, R102). -/
def State.mapHandle (side : Side) (ps pe : Page) (t : Handle) (s : State) : State :=
  match targetOf s.cfg t with
  | none => s.raise (.badHandle t)
  | some spec => s.mapSide side ps pe spec

/-- The position of the next entry of the input. A command that faults does not complete, so the position still names
it (10_state R38), and what may come next, a reset by the host, is the entry after it (log 10). -/
def State.cursor (s : State) : Nat :=
  if s.fault.isSome ∧ s.phase = .run then s.pos + 1 else s.pos

/-- The position advances by one for a completed command; a fault stops it (10_state R38). -/
def State.advance (s : State) : State :=
  match s.fault with
  | none => { s with pos := s.pos + 1 }
  | some _ => s

/-- `advance` on the next state a command answers. -/
def advanced : Host.Outcome State Fault Refusal → Host.Outcome State Fault Refusal
  | .next s => .next s.advance
  | .fault r => .fault r
  | .refused r => .refused r

/-- Boot is what runs next: it is pending, it has not faulted, and the host does not reset now, as it may in any state
(70_reset_and_hazards R230, R232). That a snapshot and a restore wait for boot is log 28. -/
def State.bootsNext (s : State) : Bool :=
  decide (s.phase = .boot ∧ s.fault = none ∧ s.input[s.cursor]? ≠ some (.host .reset))

/-- The input has no further entry: nothing is issued, so nothing changes; after a fault the run has ended (log 8). -/
def State.idle (s : State) : Host.Outcome State Fault Refusal :=
  match s.fault with
  | none => .next s
  | some f => .fault (.stopped f)

/-- The list with x at place n; if it was shorter, x also fills the places before n. -/
def placeEntry (l : List Input) (n : Nat) (x : Input) : List Input :=
  l.take n ++ List.replicate (n - l.length) x ++ x :: l.drop (n + 1)

/-- The state whose next entry is x, boot being over. -/
def State.withEntry (s : State) (x : Input) : State :=
  let r := { s with phase := .run }
  { r with input := placeEntry r.input r.cursor x }

end Sys2Proof.Machine
end

