-- ==== Sys2Proof/Machine/Glue.lean ====
section
/-! DEFINITION. The Register/Bank glue: bank selects, control register A with the Mathbox start, control register B,
ALPHA_MAP (42_register_glue). -/

namespace Sys2Proof.Machine

/-- BANK[k] (10_state R32). -/
def State.bankIndex (s : State) (k : Nat) : Nat := s.bank.getD k 0

/-- ApplyBank(k): the window's two sides are mapped to what BS_TABLE[k](BANK[k]) names, read side first
(42_register_glue R155, R156). -/
def State.applyBank (k : Nat) (s : State) : State :=
  match s.cfg.banks[k]? with
  | none => s
  | some b =>
    let t := bankTargets b (s.bankIndex k)
    (s.mapSide .R b.winStart b.winEnd t.1).andThen (State.mapSide .W b.winStart b.winEnd t.2)

/-- BankSelectWrite(k, d): the index is set and the event emitted before the window is mapped
(42_register_glue R154). -/
def State.bankSelectWrite (k : Nat) (d : Byte) (s : State) : State :=
  match s.cfg.banks[k]? with
  | none => s
  | some b =>
    let idx := bankDecode b d
    State.applyBank k (State.emit (.bankSel k idx) { s with bank := s.bank.set k idx })

/-- The engine's effect on Mathbox RAM: any contents, ROM as it was (42_register_glue R162, R163, log 3). -/
def State.runEngine (s : State) : State :=
  State.countDraw { s with mbxRam := Cells.ofFn mbxRamWords (Config.engineWord s.draws s.mbxRam s.cfg.mbxRom) }

/-- MathboxStart() (42_register_glue R162). -/
def State.mathboxStart (s : State) : State :=
  State.emit .mbxDone (State.runEngine (State.emit .mbxStart s))

/-- CtrlAWrite(d): the level is latched, and a rise of it starts the engine (42_register_glue R160, R161). -/
def State.ctrlAWrite (d : Byte) (s : State) : State :=
  let lvl := startLevelOf s.cfg d
  let latched := { s with startLevel := lvl }
  if lvl ∧ s.startLevel = false then latched.mathboxStart else latched

/-- The bank selects of GlueWrite: every k whose register has address a, ascending (42_register_glue R151). -/
def State.bankSelects (a : Addr) (d : Byte) (s : State) : State :=
  State.forEach (List.range s.cfg.banks.length) (fun k s =>
    if (s.cfg.banks[k]?).map BankSelect.addr = some a then s.bankSelectWrite k d else s) s

/-- GlueWrite(a, d): every glue function whose address is a, in the order bank selects, control register A, control
register B, ALPHA_MAP; an address that matches none does nothing (42_register_glue R151, R152, R164, R165). -/
def State.glueWrite (a : Addr) (d : Byte) (s : State) : State :=
  (s.bankSelects a d).andThen fun s =>
    let s := if a = s.cfg.ctrlAAddr then s.ctrlAWrite d else s
    let s := if a = s.cfg.ctrlBAddr then s.emit (.videoCtrl d) else s
    if s.cfg.alphaMapAddr = some a then s.emit (.alphaMap d) else s

end Sys2Proof.Machine
end

