-- ==== Sys2Proof/Machine/Access.lean ====
section
/-! DEFINITION. READ and WRITE: routing an access to its target, and the two commands (41_access). -/

namespace Sys2Proof.Machine

/-- A READ through a platform handler: the access is in flight while the handler runs, the byte it returns is a free
draw, and the event follows its return (41_access R123, R131). -/
def State.handlerRead (h : Nat) (a : Addr) (s : State) : State :=
  let running := s.push .R (pageOf a)
  let v := running.drawnByte
  State.answer v (State.emit (.hRd h a v) (running.countDraw.pop))

/-- A WRITE through a platform handler: the event comes before the handler runs; what the handler does lies outside
the block (41_access R123, R131). -/
def State.handlerWrite (h : Nat) (a : Addr) (v : Byte) (s : State) : State :=
  let running := (s.emit (.hWr h a v)).push .W (pageOf a)
  running.pop

/-- A WRITE through the glue, pushed and popped like any handler's; it emits no event of its own (41_access R123). -/
def State.glueAccess (a : Addr) (v : Byte) (s : State) : State :=
  ((s.push .W (pageOf a)).glueWrite a v).andThen State.pop

/-- ReadTarget (41_access R121 to R124). -/
def State.readTarget (d : PageDesc) (a : Addr) (s : State) : Host.Outcome State Fault Refusal :=
  match d with
  | .discard => .next (s.answer discardRead)
  | .buffer buf off =>
    if s.bufHas buf (off + (offOf a).toNat) then .next (s.answer (s.bufRead buf (off + (offOf a).toNat)))
    else .fault (.noSuchByte buf (off + (offOf a).toNat))
  | .mbx woff => .next (s.answer (laneGet mbxEvenHigh (laneOf a) (s.mbxRead (windowWord woff a))))
  | .handler .glue => .fault (.glueHasNoRead a)
  | .handler (.platform h) => .next (s.handlerRead h a)

/-- WriteTarget (41_access R121 to R124). -/
def State.writeTarget (d : PageDesc) (a : Addr) (v : Byte) (s : State) : Host.Outcome State Fault Refusal :=
  match d with
  | .discard => .next s
  | .buffer buf off =>
    if s.bufHas buf (off + (offOf a).toNat) then .next (s.bufWrite buf (off + (offOf a).toNat) v)
    else .fault (.noSuchByte buf (off + (offOf a).toNat))
  | .mbx woff =>
    let w := windowWord woff a
    .next (s.mbxWrite w (laneSet mbxEvenHigh (laneOf a) (s.mbxRead w) v))
  | .handler .glue => .next (s.glueAccess a v)
  | .handler (.platform h) => .next (s.handlerWrite h a v)

/-- READ (41_access R125). -/
def execRead (a : Addr) (s : State) : Host.Outcome State Fault Refusal :=
  s.command fun s => s.readTarget (s.descAt .R (pageOf a)) a

/-- WRITE (41_access R126). -/
def execWrite (a : Addr) (d : Byte) (s : State) : Host.Outcome State Fault Refusal :=
  s.command fun s => s.writeTarget (s.descAt .W (pageOf a)) a d

end Sys2Proof.Machine
end

