-- ==== Sys2Proof/Machine/Mapping.lean ====
section
/-! DEFINITION. MAPR and MAPW (40_mapping). -/

namespace Sys2Proof.Machine

/-- MAPR: map the read side of pages ps..pe to the target of handle t (40_mapping R101). -/
def execMapr (ps pe : Page) (t : Handle) (s : State) : Host.Outcome State Fault Refusal :=
  s.command fun s => .next (s.mapHandle .R ps pe t)

/-- MAPW: map the write side of pages ps..pe to the target of handle t (40_mapping R102). -/
def execMapw (ps pe : Page) (t : Handle) (s : State) : Host.Outcome State Fault Refusal :=
  s.command fun s => .next (s.mapHandle .W ps pe t)

end Sys2Proof.Machine
end

