-- ==== Sys2Proof/Machine/Calls.lean ====
section
/-! DEFINITION. The functional interface: the source's calls with unbounded arguments (30_encoding R78). -/

namespace Sys2Proof.Machine

/-- A page number of a call is in range (40_mapping R107). -/
def isPageNumber (p : Int) : Bool := decide (0 ≤ p) && decide (p ≤ 255)

/-- A map call: both page numbers must be in range before any other check, then MapSide (40_mapping R107). -/
def State.mapCall (side : Side) (ps pe : Int) (t : TargetSpec) (s : State) : State :=
  if isPageNumber ps && isPageNumber pe then s.mapSide side (BitVec.ofInt 8 ps) (BitVec.ofInt 8 pe) t
  else s.raise (.mapRange ps pe)

/-- A call: addresses and bytes are masked, page numbers are not (20_memory R53, 30_encoding R78, 40_mapping R107). -/
def execCall (c : Call) (s : State) : Host.Outcome State Fault Refusal :=
  match c with
  | .read addr => execRead (BitVec.ofInt 16 addr) s
  | .write addr val => execWrite (BitVec.ofInt 16 addr) (BitVec.ofInt 8 val) s
  | .mapRead ps pe t => s.command fun s => .next (s.mapCall .R ps pe t)
  | .mapWrite ps pe t => s.command fun s => .next (s.mapCall .W ps pe t)

end Sys2Proof.Machine
end

