-- ==== Sys2Proof/Machine/Dispatch.lean ====
section
/-! DEFINITION. One arm for each command. -/

namespace Sys2Proof.Machine

/-- The meaning of a command (00_scope R3). -/
def exec (i : Instr) (s : State) : Host.Outcome State Fault Refusal :=
  match i with
  | .read a => Sys2Proof.Machine.execRead a s
  | .write a d => Sys2Proof.Machine.execWrite a d s
  | .mapr ps pe t => Sys2Proof.Machine.execMapr ps pe t s
  | .mapw ps pe t => Sys2Proof.Machine.execMapw ps pe t s

end Sys2Proof.Machine
end

