-- ==== Sys2Proof/Machine/Platform.lean ====
section
/-! DEFINITION. Power-up, reset, boot, the canonical table, snapshot and restore (70_reset_and_hazards). -/

namespace Sys2Proof.Machine

/-- Construction with a configuration: an ill-formed one is refused before reset (00_scope R8). -/
def powerUp (c : Config) : Host.Outcome State Fault Refusal :=
  if c.wellFormed then .next (State.resetWith c 0) else .refused .illFormedConfig

/-- One entry of BOOT_MAP: MAPR or MAPW by its handle (40_mapping R101, R102), or the same map of the target spec it names
(10_state R23, 40_mapping R100). -/
def State.bootCommand (e : BootEntry) (s : State) : State :=
  match e.target with
  | .handle t => s.mapHandle e.side e.pageStart e.pageEnd t
  | .spec t => s.mapSide e.side e.pageStart e.pageEnd t

/-- Boot step 1: the commands of BOOT_MAP in order (70_reset_and_hazards R232). -/
def State.bootPlatform (s : State) : State :=
  State.forEach s.cfg.bootMap State.bootCommand s

/-- Boot step 2: the glue registers its pages, ascending (70_reset_and_hazards R232). -/
def State.bootGlue (s : State) : State :=
  State.forEach (gluePages s.cfg) (fun g s => s.mapSide .W g g (.handler .glue)) s

/-- Boot step 3: every window takes its bank; no BankSel event (70_reset_and_hazards R232). -/
def State.bootWindows (s : State) : State :=
  State.forEach (List.range s.cfg.banks.length) State.applyBank s

/-- The three steps of boot in order; a fault in one stops the rest (70_reset_and_hazards R232). -/
def State.bootSteps (s : State) : State :=
  (s.bootPlatform.andThen State.bootGlue).andThen State.bootWindows

/-- Boot as a step of the machine: after it the caller's commands run; a fault leaves boot unfinished (log 13). -/
def State.boot (s : State) : State :=
  let t := s.bootSteps
  if t.fault.isNone then { t with phase := .run } else t

/-- A reset by the host, in any state: every element of the block takes its reset value. The input, the position and
the host's snapshot are not the block's (70_reset_and_hazards R230, log 10). -/
def State.hostReset (s : State) : State :=
  { State.resetWith s.cfg s.draws with input := s.input, pos := s.cursor + 1, saved := s.saved }

/-- The snapshot of a state (70_reset_and_hazards R236). -/
def State.snapshot (s : State) : Snapshot where
  mbx := s.mbxRam
  bank := s.bank
  startLevel := s.startLevel

/-- Restore: the three elements are set, FAULT becomes none, and the page table is rebuilt by the three steps of boot
from an all-Discard table; EV and the buffers are unchanged (70_reset_and_hazards R237). -/
def State.restore (p : Snapshot) (s : State) : State :=
  State.bootSteps
    { s with mbxRam := p.mbx, bank := p.bank, startLevel := p.startLevel, fault := none, ptR := allDiscard,
             ptW := allDiscard, returned := none }

/-- An action of the host. Only a reset has a step in a faulted state (10_state R35, 60_exceptions R201, log 11). -/
def State.hostAct (h : HostAction) (s : State) : Host.Outcome State Fault Refusal :=
  match h with
  | .reset => .next s.hostReset
  | .snapshot => s.command fun s => .next (State.advance { s with saved := some s.snapshot })
  | .restore => s.command fun s =>
    match s.saved with
    | none => .refused .noSnapshot
    | some p => .next (s.restore p).advance

/-- What BOOT_MAP leaves at page p of a side, as the entries override one another in order
(70_reset_and_hazards R233). -/
def canonicalBoot (c : Config) (side : Side) (p : Page) : PageDesc :=
  c.bootMap.foldl
    (fun d e => if e.side = side ∧ inRange e.pageStart e.pageEnd p then
        match bootTargetOf c e.target with
        | some t => desc t e.pageStart p
        | none => d
      else d)
    .discard

/-- The side of a pair of targets. -/
def sideOf (side : Side) (t : TargetSpec × TargetSpec) : TargetSpec :=
  match side with
  | .R => t.1
  | .W => t.2

/-- The canonical table of a configuration and bank indices at page p of a side: BOOT_MAP, then the glue on the write
sides of its pages, then each window's bank, later overriding earlier (70_reset_and_hazards R233). -/
def canonicalAt (c : Config) (bank : List Nat) (side : Side) (p : Page) : PageDesc :=
  (List.range c.banks.length).foldl
    (fun d k => match c.banks[k]? with
      | none => d
      | some b => if inRange b.winStart b.winEnd p then desc (sideOf side (bankTargets b (bank.getD k 0))) b.winStart p
        else d)
    (if side = .W ∧ isGluePage c p then .handler .glue else canonicalBoot c side p)

end Sys2Proof.Machine
end

