-- ==== Sys2Proof/Machine/Issue.lean ====
section
/-! DEFINITION. What one entry of the input does: a word is decoded and executed, a call is made, the host acts. -/

namespace Sys2Proof.Machine

/-- The caller or the host issues one entry. An illegal word is refused before any effect (30_encoding R76). What may
follow it is the model's choice: a refusal answers no next state, so the position stays at the word, every further step
refuses it again, and no later command and no host reset of the list is reached. DESIGN CHOICE, safe: log 27. -/
def State.issue (x : Input) (s : State) : Host.Outcome State Fault Refusal :=
  match x with
  | .word w =>
    match decode w with
    | none => .refused (.illegalWord w)
    | some i => advanced (exec i s)
  | .call c => advanced (execCall c s)
  | .host h => s.hostAct h

end Sys2Proof.Machine
end

