-- ==== Sys2Proof/Machine/Step.lean ====
section
/-! DEFINITION. One step: boot if it comes next, else the next entry of the input (10_state R38,
70_reset_and_hazards R230, R232, log 8). -/

namespace Sys2Proof.Machine

/-- One step of the machine. A reset by the host is taken in any state, one with boot pending included
(70_reset_and_hazards R230); a snapshot or a restore there waits for boot, which is the model's choice (log 28). -/
def step (s : State) : Host.Outcome State Fault Refusal :=
  if s.bootsNext then .next s.boot
  else
    match s.input[s.cursor]? with
    | none => s.idle
    | some x => s.issue x

/-- s with the word placed where `step` takes its next entry, boot being over (log 8). -/
def State.withFetchWord (s : State) (nbits w : Nat) : State := s.withEntry (.word (tableWord nbits w))

end Sys2Proof.Machine
end

