-- ==== Sys2Proof/Safety.lean ====
section
/-! DEFINITION. What a safe state is, in the terms the statements use: the invariant of the block, and runs of
commands. -/

namespace Sys2Proof.Machine

/-- Each buffer's memory is in canonical form for its length. -/
def bufsWf : List BufferInfo → List (List Host.Cell) → Bool
  | [], [] => true
  | b :: bs, m :: ms => Cells.wf (n := 8) b.len m && bufsWf bs ms
  | _, _ => false

/-- The memories of the block are in canonical form: every buffer of the configuration, and Mathbox RAM. -/
def Memory.wf (s : State) : Bool := bufsWf s.cfg.buffers s.bufs && Cells.wf (n := 16) mbxRamWords s.mbxRam

/-- Every descriptor is one the map-time checks install (10_state R25, R29, 40_mapping R104). -/
def State.tablesOk (s : State) : Bool :=
  s.ptR.toList.all (readDescOk s.cfg) && s.ptW.toList.all (writeDescOk s.cfg)

/-- Outside any handler the in-flight stack is empty (10_state R34); a fault may have ended a handler. -/
def State.quiet (s : State) : Bool := s.fault.isSome || s.inflight.isEmpty

/-- The snapshot the host holds, if any, is one of a machine with this configuration. -/
def State.savedOk (s : State) : Bool :=
  match s.saved with
  | none => true
  | some p => p.wf s.cfg

/-- The invariant: the configuration is well formed, the memories are canonical, there is one bank index for each
bank-select function, the descriptors are good, and nothing is in flight between commands. -/
def State.inv (s : State) : Bool :=
  s.cfg.wellFormed && Memory.wf s && decide (s.bank.length = s.cfg.banks.length) && s.tablesOk && s.quiet && s.savedOk

/-- Two states that agree on everything a command may consult: all but the trace, the input and what was returned or
saved before. -/
structure Alike (s t : State) : Prop where
  cfg : s.cfg = t.cfg
  ptR : s.ptR = t.ptR
  ptW : s.ptW = t.ptW
  bufs : s.bufs = t.bufs
  mbxRam : s.mbxRam = t.mbxRam
  bank : s.bank = t.bank
  startLevel : s.startLevel = t.startLevel
  inflight : s.inflight = t.inflight
  fault : s.fault = t.fault
  draws : s.draws = t.draws

/-- The commands of a list in order, ending at the first that gives no next state. -/
def execAll : List Instr → State → Host.Outcome State Fault Refusal
  | [], s => .next s
  | i :: is, s =>
    match exec i s with
    | .next t => execAll is t
    | .fault r => .fault r
    | .refused r => .refused r

/-- What each command of a list returned, as far as the commands have a step. -/
def resultsOf : List Instr → State → List (Option Byte)
  | [], _ => []
  | i :: is, s =>
    match exec i s with
    | .next t => t.returned :: resultsOf is t
    | _ => []

/-- The events the commands of a list append to the trace, as far as the commands have a step. -/
def eventsOf : List Instr → State → List Event
  | [], _ => []
  | i :: is, s =>
    match exec i s with
    | .next t => t.ev.drop s.ev.length ++ eventsOf is t
    | _ => []

end Sys2Proof.Machine
end

