-- ==== Sys2Proof/Certificates/Slice0/Obligations.lean ====
section
/-! DEFINITION. The statements for the provers. Each docstring names the rule of the spec it formalises. -/

open Sys2Proof Sys2Proof.Machine

/-- The map command of a side: MAPR or MAPW (40_mapping R101, R102). -/
def Sys2Proof.mapInstr (side : Side) (ps pe : Page) (t : Handle) : Instr :=
  match side with
  | .R => .mapr ps pe t
  | .W => .mapw ps pe t

/-- The functional map call of a side (30_encoding R78). -/
def Sys2Proof.mapCallOf (side : Side) (ps pe : Int) (t : TargetSpec) : Call :=
  match side with
  | .R => .mapRead ps pe t
  | .W => .mapWrite ps pe t

/-- The next entry is taken, as a command of the caller or an action of the host, and boot is not what this step runs. A
reset by the host is taken in any state (70_reset_and_hazards R230); another entry waits for a pending boot
(70_reset_and_hazards R232; for a snapshot and a restore it is the model's choice, log 28). -/
def Sys2Proof.Machine.State.takesEntry (s : State) (x : Input) : Prop :=
  s.input[s.cursor]? = some x ∧ (s.phase = .boot → s.fault = none → x = .host .reset)

/-- The entry is a WRITE of d to a, as a word or as a call (30_encoding R73, R78). -/
def Sys2Proof.Machine.Input.isWrite (x : Input) (a : Addr) (d : Byte) : Prop :=
  (∃ w, x = .word w ∧ decode w = some (.write a d)) ∨
    ∃ addr val : Int, x = .call (.write addr val) ∧ addr % 65536 = a.toNat ∧ val % 256 = d.toNat

/-- The entry is a map command or a map call. -/
def Sys2Proof.Machine.Input.isMap (x : Input) : Prop :=
  (∃ w side ps pe t, x = .word w ∧ decode w = some (mapInstr side ps pe t)) ∨
    ∃ side ps pe t, x = .call (mapCallOf side ps pe t)

/-- The rows of the map-time checks, in their order: which fault each gives, where `faults f` says that f is raised with
nothing else done, and which targets pass (40_mapping R104). -/
def Sys2Proof.mapTimeRows (c : Config) (side : Side) (ps pe : Page) (t : TargetSpec) (faults : ModelFault → Prop) : Prop :=
  (t = .discard → checkTarget c side ps pe t = none) ∧
  (∀ buf base, t = .buffer buf base → c.buffers[buf]? = none → faults (.mapUnknown t)) ∧
  (∀ buf base info, t = .buffer buf base → c.buffers[buf]? = some info →
    (info.len < base + (pe.toNat - ps.toNat + 1) * 256 → faults (.mapBounds buf base ps pe)) ∧
    (base + (pe.toNat - ps.toNat + 1) * 256 ≤ info.len → side = .W → info.writable = false →
      faults (.mapReadonly buf)) ∧
    (base + (pe.toNat - ps.toNat + 1) * 256 ≤ info.len → (side = .W → info.writable = true) →
      checkTarget c side ps pe t = none)) ∧
  (∀ wbase, t = .mbx wbase →
    (0x8000 ≤ wbase → faults (.mapUnknown t)) ∧ (wbase < 0x8000 → checkTarget c side ps pe t = none)) ∧
  (∀ id, t = .handler (.platform id) →
    (id ∉ c.handlers → faults (.mapUnknown t)) ∧ (id ∈ c.handlers → checkTarget c side ps pe t = none)) ∧
  (t = .handler .glue →
    (side = .R → faults (.mapGlueRead ps pe)) ∧ (side = .W → checkTarget c side ps pe t = none))

/-- What 00_scope R7 and R8 ask of a configuration: (a) to (d) of R8, the bank select and the start mask of R7, and
initial bytes that lie inside their buffers in the model's canonical form (logs 17, 25). -/
def Sys2Proof.Config.meetsConstraints (c : Config) : Prop :=
  targetOf c 0#14 = some .discard ∧ (∀ e ∈ c.targets, e.1 = 0#14 → e.2 = .discard) ∧
  (∀ b ∈ c.banks, b.winStart ≤ b.winEnd) ∧
  (∀ a ∈ glueAddrs c, ∀ b ∈ c.banks, ¬ (b.winStart ≤ pageOf a ∧ pageOf a ≤ b.winEnd)) ∧
  (∀ b ∈ c.banks, ∀ e ∈ b.table, checkTarget c .R b.winStart b.winEnd e.2.1 = none ∧
    checkTarget c .W b.winStart b.winEnd e.2.2 = none) ∧
  (∃ u : State, step (State.resetWith c 0) = .next u ∧ u.fault = none ∧ u.phase = .run) ∧
  c.banks ≠ [] ∧ c.ctrlAStartMask ≠ 0#8 ∧ ∀ b ∈ c.buffers, Cells.wf b.len b.init = true

/-! ## Encoding -/

/-- Decoding the word of a command gives the command: no bit of an operand is lost (30_encoding R72 to R75). -/
def Obligations.DecodeOfEncode : Prop := ∀ i : Instr, decode (encode i) = some i

/-- A word that decodes is the word of what it decodes to: each command has one word (30_encoding R77). -/
def Obligations.EncodeOfDecode : Prop := ∀ (w : BitVec 32) (i : Instr), decode w = some i → encode i = w

/-- The formats as arithmetic on the word's value (30_encoding R72, R73, R74). -/
def Obligations.CommandWordsByValue : Prop :=
  ∀ w : BitVec 32,
    (∀ a : Addr, decode w = some (.read a) ↔ w.toNat = a.toNat) ∧
    (∀ (a : Addr) (d : Byte), decode w = some (.write a d) ↔
      w.toNat = 0x40000000 + d.toNat * 0x10000 + a.toNat) ∧
    (∀ (s e : Page) (t : Handle), decode w = some (.mapr s e t) ↔
      w.toNat = 0x80000000 + t.toNat * 0x10000 + e.toNat * 0x100 + s.toNat) ∧
    (∀ (s e : Page) (t : Handle), decode w = some (.mapw s e t) ↔
      w.toNat = 0xC0000000 + t.toNat * 0x10000 + e.toNat * 0x100 + s.toNat)

/-- The illegal words are exactly those with a reserved bit set, and the step refuses one, with no next state and no fault
(30_encoding R76). -/
def Obligations.IllegalWordIsRefused : Prop :=
  (∀ w : BitVec 32, decode w = none ↔
    (w.extractLsb' 30 2 = 0#2 ∧ w.extractLsb' 16 14 ≠ 0#14) ∨
    (w.extractLsb' 30 2 = 1#2 ∧ w.extractLsb' 24 6 ≠ 0#6)) ∧
  ∀ (s : State) (w : BitVec 32), s.fault = none → s.takesEntry (.word w) → decode w = none →
    step s = .refused (.illegalWord w)

/-- The table of encoding examples (30_encoding R82). -/
def Obligations.EncodingExamples : Prop :=
  decode 0x00000123#32 = some (.read 0x0123) ∧
  decode 0x0000FFFF#32 = some (.read 0xFFFF) ∧
  decode 0x40AB0123#32 = some (.write 0x0123 0xAB) ∧
  decode 0x40002001#32 = some (.write 0x2001 0x00) ∧
  decode 0x80010700#32 = some (.mapr 0x00 0x07 1) ∧
  decode 0xC0010700#32 = some (.mapw 0x00 0x07 1) ∧
  decode 0x80033F20#32 = some (.mapr 0x20 0x3F 3) ∧
  decode 0xC000FF00#32 = some (.mapw 0x00 0xFF 0) ∧
  decode 0x80050F10#32 = some (.mapr 0x10 0x0F 5) ∧
  decode 0x00010000#32 = none ∧
  decode 0x41000000#32 = none

/-- The expansions of the pseudo-commands; a fault in the first of two stops the second (30_encoding R81). -/
def Obligations.PseudoCommandExpansions : Prop :=
  (∀ s e t, (Pseudo.maprw s e t).words = [encode (.mapr s e t), encode (.mapw s e t)]) ∧
  (∀ s e t, (Pseudo.maprom s e t).words = [encode (.mapr s e t), encode (.mapw s e 0)]) ∧
  (∀ s e, (Pseudo.unmapr s e).words = [encode (.mapr s e 0)]) ∧
  (∀ s e, (Pseudo.unmapw s e).words = [encode (.mapw s e 0)]) ∧
  (∀ s e, (Pseudo.unmap s e).words = (Pseudo.unmapr s e).words ++ (Pseudo.unmapw s e).words) ∧
  ∀ (p : Pseudo) (i j : Instr) (s u : State) (f : ModelFault), p.expand = [i, j] → exec i s = .next u →
    u.fault = some f → execAll p.expand s = .fault (.stopped f)

/-! ## The functional interface -/

/-- Read and Write mask their arguments to 16 and 8 bits and are then the commands (20_memory R53, 30_encoding R78). -/
def Obligations.CallsMaskAddressAndByte : Prop :=
  (∀ (s : State) (addr : Int) (a : Addr), addr % 65536 = a.toNat → execCall (.read addr) s = exec (.read a) s) ∧
  ∀ (s : State) (addr val : Int) (a : Addr) (d : Byte), addr % 65536 = a.toNat → val % 256 = d.toNat →
    execCall (.write addr val) s = exec (.write a d) s

/-- A map call with a page number outside 0..255 raises F_MAP_RANGE before any other check, and nothing else of the
block changes (40_mapping R107). -/
def Obligations.CallPageNumbersAreNotMasked : Prop :=
  ∀ (s : State) (side : Side) (ps pe : Int) (t : TargetSpec), s.fault = none →
    (ps < 0 ∨ 255 < ps ∨ pe < 0 ∨ 255 < pe) →
    execCall (mapCallOf side ps pe t) s = .next { s with fault := some (.mapRange ps pe), returned := none }

/-- A map call with page numbers in range, of any target spec, one that no handle of the table names included: it does
what the map command does with a handle of that target, and in a state with no fault it does nothing on an empty range,
raises the fault of the first map-time check that applies, raises F_REMAP_INFLIGHT for the lowest page in flight where
the target passes, and else maps its side of the range and nothing more (30_encoding R78, 40_mapping R100, R104, R105,
R106). -/
def Obligations.CallMapsLikeItsCommand : Prop :=
  ∀ (s : State) (side : Side) (ps pe : Page) (t : TargetSpec),
    let call := execCall (mapCallOf side ps.toNat pe.toNat t) s
    let faults (f : ModelFault) : Prop := call = .next { s with fault := some f, returned := none }
    (∀ h, targetOf s.cfg h = some t → call = exec (mapInstr side ps pe h) s) ∧
    (s.fault = none →
      (pe < ps → call = .next { s with returned := none }) ∧
      (ps ≤ pe → mapTimeRows s.cfg side ps pe t faults) ∧
      (checkTarget s.cfg side ps pe t = none → ∀ p, ps ≤ p → p ≤ pe → (∃ e ∈ s.inflight, e.2 = p) →
        (∀ e ∈ s.inflight, ps ≤ e.2 → e.2 ≤ pe → p ≤ e.2) → faults (.remapInflight side p)) ∧
      (ps ≤ pe → checkTarget s.cfg side ps pe t = none → (∀ e ∈ s.inflight, ¬ (ps ≤ e.2 ∧ e.2 ≤ pe)) →
        ∃ u : State, call = .next u ∧ u.fault = none ∧
          (∀ p, u.descAt side p = if ps ≤ p ∧ p ≤ pe then desc t ps p else s.descAt side p) ∧
          (side = .R → u = { s with ptR := u.ptR, returned := none }) ∧
          (side = .W → u = { s with ptW := u.ptW, returned := none })))

/-! ## Map commands -/

/-- The descriptor of a page in a mapped range (10_state R24). -/
def Obligations.DescriptorOfTarget : Prop :=
  ∀ ps p : Page, ps ≤ p →
    desc .discard ps p = .discard ∧
    (∀ buf base, desc (.buffer buf base) ps p = .buffer buf (base + (p.toNat - ps.toNat) * 256)) ∧
    (∀ wbase, ∃ woff : WordIndex, desc (.mbx wbase) ps p = .mbx woff ∧
      woff.toNat = (wbase + (p.toNat - ps.toNat) * 128) % 0x8000) ∧
    ∀ h, desc (.handler h) ps p = .handler h

/-- A map command whose handle is assigned, whose target passes the checks and whose range is not empty and has no page
in flight completes: it writes desc(t, S, p) on its side of every page of its range, and changes nothing else
(40_mapping R100, R101, R102). -/
def Obligations.MapCommandCompletes : Prop :=
  ∀ (s : State) (side : Side) (ps pe : Page) (h : Handle) (t : TargetSpec),
    s.fault = none → targetOf s.cfg h = some t → ps ≤ pe → checkTarget s.cfg side ps pe t = none →
    (∀ e ∈ s.inflight, ¬ (ps ≤ e.2 ∧ e.2 ≤ pe)) →
    ∃ u : State, exec (mapInstr side ps pe h) s = .next u ∧ u.fault = none ∧
      (∀ p, u.descAt side p = if ps ≤ p ∧ p ≤ pe then desc t ps p else s.descAt side p) ∧
      (side = .R → u = { s with ptR := u.ptR, returned := none }) ∧
      (side = .W → u = { s with ptW := u.ptW, returned := none })

/-- The frame of a map command that completes without a fault: exactly the descriptors of its side for the pages of its
range change, and nothing else of the block (40_mapping R103). -/
def Obligations.MapCommandFrame : Prop :=
  ∀ (s u : State) (side : Side) (ps pe : Page) (h : Handle),
    exec (mapInstr side ps pe h) s = .next u → u.fault = none →
      u = { s with ptR := u.ptR, ptW := u.ptW, returned := none } ∧
      (∀ p, u.descAt (if side = .R then .W else .R) p = s.descAt (if side = .R then .W else .R) p) ∧
      (∀ p, ¬ (ps ≤ p ∧ p ≤ pe) → u.descAt side p = s.descAt side p) ∧
      ∃ t, targetOf s.cfg h = some t ∧ ∀ p, ps ≤ p → p ≤ pe → u.descAt side p = desc t ps p

/-- A map command with an empty range and an assigned handle does nothing, whatever its target is and whatever is in
flight (40_mapping R106, 60_exceptions R206). -/
def Obligations.EmptyRangeDoesNothing : Prop :=
  ∀ (s : State) (side : Side) (ps pe : Page) (h : Handle) (t : TargetSpec),
    s.fault = none → targetOf s.cfg h = some t → pe < ps →
    exec (mapInstr side ps pe h) s = .next { s with returned := none }

/-- An unassigned handle is F_BAD_HANDLE, before the empty range is seen; handle 0 is always assigned, to Discard
(40_mapping R101, R102, 10_state R23). -/
def Obligations.UnassignedHandleFaults : Prop :=
  (∀ (s : State) (side : Side) (ps pe : Page) (h : Handle), s.fault = none → targetOf s.cfg h = none →
    exec (mapInstr side ps pe h) s = .next { s with fault := some (.badHandle h), returned := none }) ∧
  ∀ c : Config, targetOf c 0#14 = some .discard

/-- The map-time checks of a command with a non-empty range, row by row in their order; each fault leaves every
descriptor as it was (40_mapping R104). -/
def Obligations.MapTimeChecks : Prop :=
  ∀ (s : State) (side : Side) (ps pe : Page) (h : Handle) (t : TargetSpec),
    s.fault = none → targetOf s.cfg h = some t → ps ≤ pe →
    mapTimeRows s.cfg side ps pe t fun f =>
      exec (mapInstr side ps pe h) s = .next { s with fault := some f, returned := none }

/-- A map whose range holds a page with an access in flight, on either side, faults with F_REMAP_INFLIGHT for the lowest
such page, after the target checks; no descriptor changes (40_mapping R105, 60_exceptions R206). -/
def Obligations.RemapInFlightFaults : Prop :=
  ∀ (s : State) (side : Side) (ps pe p : Page) (h : Handle) (t : TargetSpec),
    s.fault = none → targetOf s.cfg h = some t → checkTarget s.cfg side ps pe t = none →
    ps ≤ p → p ≤ pe → (∃ e ∈ s.inflight, e.2 = p) →
    (∀ e ∈ s.inflight, ps ≤ e.2 → e.2 ≤ pe → p ≤ e.2) →
    exec (mapInstr side ps pe h) s = .next { s with fault := some (.remapInflight side p), returned := none }

/-- A caller's direct map command faults only for codes 3 to 7, MAPR never with F_MAP_READONLY and MAPW never with
F_MAP_GLUE_READ, when nothing is in flight (60_exceptions R203, 40_mapping R101, R102). -/
def Obligations.DirectMapFaultCodes : Prop :=
  ∀ (s u : State) (side : Side) (ps pe : Page) (h : Handle) (f : ModelFault),
    s.inflight = [] → exec (mapInstr side ps pe h) s = .next u → u.fault = some f →
      3 ≤ faultCode f ∧ faultCode f ≤ 7 ∧
      (side = .R → faultCode f ≠ 5) ∧ (side = .W → faultCode f ≠ 7)

/-- Overlapping maps: the later command wins, page by page (40_mapping R106). -/
def Obligations.LaterMapWins : Prop :=
  ∀ (s u v : State) (side : Side) (ps pe ps' pe' : Page) (h h' : Handle) (t t' : TargetSpec),
    exec (mapInstr side ps pe h) s = .next u → u.fault = none → targetOf s.cfg h = some t →
    exec (mapInstr side ps' pe' h') u = .next v → v.fault = none → targetOf s.cfg h' = some t' →
    ∀ p, v.descAt side p =
      if ps' ≤ p ∧ p ≤ pe' then desc t' ps' p
      else if ps ≤ p ∧ p ≤ pe then desc t ps p
      else s.descAt side p

/-- A buffer mapped over a range shows its bytes contiguously: after MAPR of Buffer(buf, base) over (S, E), READ of an
address in the range returns byte base + (address - S * 256) of the buffer (40_mapping R106, 10_state R24). -/
def Obligations.MappedBufferReadsContiguously : Prop :=
  ∀ (s u : State) (ps pe : Page) (h : Handle) (buf base : Nat) (a : Addr),
    s.inv = true → exec (.mapr ps pe h) s = .next u → u.fault = none →
    targetOf s.cfg h = some (.buffer buf base) → ps ≤ pageOf a → pageOf a ≤ pe →
    exec (.read a) u = .next { u with returned := some (s.bufRead buf (base + (a.toNat - ps.toNat * 256))) }

/-! ## READ and WRITE -/

/-- A READ through Discard returns 0x00 and changes nothing, and a WRITE through Discard changes nothing
(41_access R121). -/
def Obligations.DiscardAccess : Prop :=
  ∀ (s : State) (a : Addr) (d : Byte), s.fault = none →
    (s.descAt .R (pageOf a) = .discard → exec (.read a) s = .next { s with returned := some 0x00 }) ∧
    (s.descAt .W (pageOf a) = .discard → exec (.write a d) s = .next { s with returned := none })

/-- A READ and a WRITE through a Buffer descriptor: the byte at off + a[7:0] is returned or replaced, no other byte
changes, and the index is inside the buffer (41_access R122). -/
def Obligations.BufferAccess : Prop :=
  ∀ (s : State) (a : Addr) (d : Byte) (buf off : Nat), s.inv = true → s.fault = none →
    (s.descAt .R (pageOf a) = .buffer buf off →
      (∃ info, s.cfg.buffers[buf]? = some info ∧ off + a.toNat % 256 < info.len) ∧
      exec (.read a) s = .next { s with returned := some (s.bufRead buf (off + a.toNat % 256)) }) ∧
    (s.descAt .W (pageOf a) = .buffer buf off →
      (∃ info, s.cfg.buffers[buf]? = some info ∧ off + a.toNat % 256 < info.len) ∧
      ∃ u : State, exec (.write a d) s = .next u ∧ u = { s with bufs := u.bufs, returned := none } ∧
        ∀ b i, u.bufRead b i = if b = buf ∧ i = off + a.toNat % 256 then d else s.bufRead b i)

/-- A READ through a platform handler returns the free byte of its draw and appends HRd; a WRITE appends HWr; neither
changes anything else of the block. A WRITE through the glue runs the glue with the access pushed and popped, and a
read side never holds the glue (41_access R123). That the byte is the free constant applied to the count of draws, and
that the count advances, are the model's form of the free byte (log 2 and log 5, DESIGN CHOICE); nothing is stated of its
value. -/
def Obligations.HandlerAccess : Prop :=
  ∀ (s : State) (a : Addr) (d : Byte), s.fault = none →
    (∀ id, s.descAt .R (pageOf a) = .handler (.platform id) →
      exec (.read a) s = .next { s with
        returned := some (Config.handlerByte s.draws), draws := s.draws + 1,
        ev := s.ev ++ [.hRd id a (Config.handlerByte s.draws)] }) ∧
    (∀ id, s.descAt .W (pageOf a) = .handler (.platform id) →
      exec (.write a d) s = .next { s with returned := none, ev := s.ev ++ [.hWr id a d] }) ∧
    (s.descAt .W (pageOf a) = .handler .glue →
      exec (.write a d) s = .next
        ((State.glueWrite a d { s with returned := none, inflight := (.W, pageOf a) :: s.inflight }).andThen
          State.pop)) ∧
    (s.inv = true → s.descAt .R (pageOf a) ≠ .handler .glue)

/-- The Mathbox window: word (woff + a[7:0] / 2) mod 0x8000, the even byte its high half and the odd byte its low half;
a WRITE changes that half of a RAM word and nothing else, and is dropped for a ROM word (41_access R124). -/
def Obligations.MathboxWindowAccess : Prop :=
  ∀ (s : State) (a : Addr) (d : Byte) (woff w : WordIndex), s.fault = none →
    w.toNat = (woff.toNat + a.toNat % 256 / 2) % 0x8000 →
    (s.descAt .R (pageOf a) = .mbx woff →
      ∃ v : Byte, exec (.read a) s = .next { s with returned := some v } ∧
        v.toNat = if a.toNat % 2 = 0 then (s.mbxRead w).toNat / 256 else (s.mbxRead w).toNat % 256) ∧
    (s.descAt .W (pageOf a) = .mbx woff →
      (0x2000 ≤ w.toNat → exec (.write a d) s = .next { s with returned := none }) ∧
      (w.toNat < 0x2000 →
        ∃ u : State, exec (.write a d) s = .next u ∧ u = { s with mbxRam := u.mbxRam, returned := none } ∧
          (u.mbxRead w).toNat =
            (if a.toNat % 2 = 0 then d.toNat * 256 + (s.mbxRead w).toNat % 256
             else (s.mbxRead w).toNat / 256 * 256 + d.toNat) ∧
          ∀ w', w' ≠ w → u.mbxRead w' = s.mbxRead w'))

/-- When a READ or a WRITE completes, INFLIGHT is as it was before it, in every state (41_access R127). -/
def Obligations.InflightRestored : Prop :=
  ∀ (s u : State) (a : Addr) (d : Byte),
    (exec (.read a) s = .next u → u.inflight = s.inflight) ∧
    (exec (.write a d) s = .next u → u.fault = none → u.inflight = s.inflight)

/-- From every state that meets the invariant and holds no fault, every READ and every WRITE, at every address, gives a
next state with no fault (41_access R128, 60_exceptions R203). -/
def Obligations.AccessesNeverFault : Prop :=
  ∀ s : State, s.inv = true → s.fault = none → ∀ (a : Addr) (d : Byte),
    (∃ u : State, exec (.read a) s = .next u ∧ u.fault = none) ∧ ∃ u : State, exec (.write a d) s = .next u ∧ u.fault = none

/-- A READ consults the read descriptor of its page and what that leads to, and nothing else: not the other side, not
another page, not BANK, not START_LEVEL, not what is in flight (41_access R120). That through a platform handler equal
counts of draws give the equal byte is the model's form of the free byte (logs 2 and 5, DESIGN CHOICE), not R120's. -/
def Obligations.ReadConsultsOnlyItsDescriptor : Prop :=
  ∀ (s t u : State) (a : Addr), s.descAt .R (pageOf a) = t.descAt .R (pageOf a) → s.cfg = t.cfg →
    s.bufs = t.bufs → s.mbxRam = t.mbxRam → s.draws = t.draws → s.fault = t.fault →
    exec (.read a) s = .next u → ∃ v : State, exec (.read a) t = .next v ∧ v.returned = u.returned

/-- The frame of READ: it returns a byte and changes at most the trace and the draws, and those only through a platform
handler (41_access R125, 20_memory R58). -/
def Obligations.ReadFrame : Prop :=
  ∀ (s u : State) (a : Addr), exec (.read a) s = .next u →
    u = { s with returned := u.returned, ev := u.ev, draws := u.draws } ∧ u.returned ≠ none ∧
    ((∀ id, s.descAt .R (pageOf a) ≠ .handler (.platform id)) → u.ev = s.ev ∧ u.draws = s.draws)

/-- The frame of a WRITE that is not routed to the glue: the tables, the bank indices, the start level and the fault
stay, and so does every byte and word but the one its descriptor names (41_access R126). -/
def Obligations.WriteFrame : Prop :=
  ∀ (s u : State) (a : Addr) (d : Byte), exec (.write a d) s = .next u →
    s.descAt .W (pageOf a) ≠ .handler .glue →
    u = { s with bufs := u.bufs, mbxRam := u.mbxRam, ev := u.ev, returned := none } ∧
    (∀ b i, (∀ off, s.descAt .W (pageOf a) = .buffer b off → i ≠ off + a.toNat % 256) →
      u.bufRead b i = s.bufRead b i) ∧
    (∀ w : WordIndex, (∀ woff : WordIndex, s.descAt .W (pageOf a) = .mbx woff →
        w.toNat ≠ (woff.toNat + a.toNat % 256 / 2) % 0x8000) → u.mbxRead w = s.mbxRead w) ∧
    ((∀ id, s.descAt .W (pageOf a) ≠ .handler (.platform id)) → u.ev = s.ev)

/-- A READ returns what a WRITE stored when the two resolve to the same buffer byte or to the same lane of the same RAM
word (20_memory R60). -/
def Obligations.ReadAfterWriteSameCell : Prop :=
  ∀ (s u : State) (a a' : Addr) (d : Byte), s.inv = true → exec (.write a d) s = .next u →
    ((∃ buf off off', s.descAt .W (pageOf a) = .buffer buf off ∧ s.descAt .R (pageOf a') = .buffer buf off' ∧
        off + a.toNat % 256 = off' + a'.toNat % 256) ∨
     (∃ woff woff' : WordIndex, s.descAt .W (pageOf a) = .mbx woff ∧ s.descAt .R (pageOf a') = .mbx woff' ∧
        (woff.toNat + a.toNat % 256 / 2) % 0x8000 = (woff'.toNat + a'.toNat % 256 / 2) % 0x8000 ∧
        (woff.toNat + a.toNat % 256 / 2) % 0x8000 < 0x2000 ∧ a.toNat % 2 = a'.toNat % 2)) →
    exec (.read a') u = .next { u with returned := some d }

/-- A WRITE through Discard or a platform handler, or to a ROM word, leaves the byte a READ of any address returns
unchanged, where that READ is not of a platform handler (20_memory R60). R60 leaves out what a platform handler's own
behaviour does; that a WRITE through one changes no byte of a buffer or of Mathbox Memory is 41_access R123's, which the
model follows against 10_state R28 (log 15, DEDUCED). -/
def Obligations.WriteToNoCellKeepsReads : Prop :=
  ∀ (s u : State) (a a' : Addr) (d v : Byte), exec (.write a d) s = .next u →
    (s.descAt .W (pageOf a) = .discard ∨ (∃ id, s.descAt .W (pageOf a) = .handler (.platform id)) ∨
      ∃ woff : WordIndex, s.descAt .W (pageOf a) = .mbx woff ∧
        0x2000 ≤ (woff.toNat + a.toNat % 256 / 2) % 0x8000) →
    (∀ id, s.descAt .R (pageOf a') ≠ .handler (.platform id)) →
    exec (.read a') s = .next { s with returned := some v } → exec (.read a') u = .next { u with returned := some v }

/-- A WRITE to one lane of a RAM word changes that half and leaves the other: two WRITEs of the two bytes of a word, in
either order, leave the word high * 256 + low (20_memory R56, R57). -/
def Obligations.TwoByteWritesMakeAWord : Prop :=
  ∀ (s u v : State) (a b : Addr) (hi lo : Byte) (woff w : WordIndex), s.fault = none →
    a.toNat % 2 = 0 → b.toNat = a.toNat + 1 → s.descAt .W (pageOf a) = .mbx woff →
    w.toNat = (woff.toNat + a.toNat % 256 / 2) % 0x8000 → w.toNat < 0x2000 →
    (exec (.write a hi) s = .next u ∧ exec (.write b lo) u = .next v ∨
      exec (.write b lo) s = .next u ∧ exec (.write a hi) u = .next v) →
    (v.mbxRead w).toNat = hi.toNat * 256 + lo.toNat

/-! ## The glue -/

/-- A WRITE routed to the glue at an address that is no glue register changes nothing and emits nothing
(42_register_glue R152). -/
def Obligations.GlueNonRegisterWrite : Prop :=
  ∀ (s : State) (a : Addr) (d : Byte), s.fault = none → s.descAt .W (pageOf a) = .handler .glue →
    a ∉ glueAddrs s.cfg → exec (.write a d) s = .next { s with returned := none }

/-- A WRITE to one bank-select register: the decoded index is recorded, BankSel is emitted, and both sides of the window
are mapped to the table's entry for the index, or to Discard where there is none (42_register_glue R154, R155, R156). -/
def Obligations.BankSelectSwitchesWindow : Prop :=
  ∀ (s : State) (a : Addr) (d : Byte) (k : Nat) (b : BankSelect), s.inv = true → s.fault = none →
    s.descAt .W (pageOf a) = .handler .glue → s.cfg.banks[k]? = some b → b.addr = a →
    (∀ j b', s.cfg.banks[j]? = some b' → b'.addr = a → j = k) →
    a ≠ s.cfg.ctrlAAddr → a ≠ s.cfg.ctrlBAddr → s.cfg.alphaMapAddr ≠ some a →
    ∃ u : State, exec (.write a d) s = .next u ∧
      u = { s with ptR := u.ptR, ptW := u.ptW, bank := s.bank.set k (b.decode.toList.getD d.toNat 0),
                   ev := s.ev ++ [.bankSel k (b.decode.toList.getD d.toNat 0)], returned := none } ∧
      ∀ side p, u.descAt side p =
        if b.winStart ≤ p ∧ p ≤ b.winEnd then
          match b.table.lookup (b.decode.toList.getD d.toNat 0) with
          | some t => desc (sideOf side t) b.winStart p
          | none => .discard
        else s.descAt side p

/-- What any WRITE through the glue does, shared addresses included: every function at the address takes the same byte,
bank selects ascending, then control register A, control register B, ALPHA_MAP (42_register_glue R151, R167). -/
def Obligations.GlueDispatchOrder : Prop :=
  ∀ (s : State) (a : Addr) (d : Byte), s.inv = true → s.fault = none →
    s.descAt .W (pageOf a) = .handler .glue →
    ∃ u : State, exec (.write a d) s = .next u ∧ u.fault = none ∧
      u.ev = s.ev ++
        (List.range s.cfg.banks.length).filterMap (fun k =>
          match s.cfg.banks[k]? with
          | some b => if b.addr = a then some (.bankSel k (bankDecode b d)) else none
          | none => none) ++
        (if a = s.cfg.ctrlAAddr ∧ d &&& s.cfg.ctrlAStartMask ≠ 0#8 ∧ s.startLevel = false then [.mbxStart, .mbxDone]
         else []) ++
        (if a = s.cfg.ctrlBAddr then [.videoCtrl d] else []) ++
        (if s.cfg.alphaMapAddr = some a then [.alphaMap d] else []) ∧
      (∀ (k : Nat) (b : BankSelect), s.cfg.banks[k]? = some b →
        u.bank[k]? = if b.addr = a then some (bankDecode b d) else s.bank[k]?) ∧
      (u.startLevel = if a = s.cfg.ctrlAAddr then decide (d &&& s.cfg.ctrlAStartMask ≠ 0#8) else s.startLevel) ∧
      (∀ side p, u.descAt side p =
        (List.range s.cfg.banks.length).foldl (fun old k =>
          match s.cfg.banks[k]? with
          | some b =>
            if b.addr = a ∧ b.winStart ≤ p ∧ p ≤ b.winEnd then
              desc (sideOf side (bankTargets b (bankDecode b d))) b.winStart p
            else old
          | none => old) (s.descAt side p)) ∧
      u.bank.length = s.bank.length ∧
      (¬ (a = s.cfg.ctrlAAddr ∧ d &&& s.cfg.ctrlAStartMask ≠ 0#8 ∧ s.startLevel = false) →
        u.mbxRam = s.mbxRam ∧ u.draws = s.draws) ∧
      u = { s with ptR := u.ptR, ptW := u.ptW, mbxRam := u.mbxRam, bank := u.bank, startLevel := u.startLevel,
                   ev := u.ev, draws := u.draws, returned := none }

/-- A WRITE to control register A alone: the level is latched; only a rise of it starts the engine, which leaves RAM at
free values and ROM as it was, between MbxStart and MbxDone (42_register_glue R160, R161, R162). That the RAM's new words
are the free constant applied to the count of draws, any RAM' and not only those MATHBOX_ENGINE allows, and that the count
advances, are the model's choice (log 3 and log 5, DESIGN CHOICE); nothing is stated of their values. -/
def Obligations.ControlAStartsOnRisingEdge : Prop :=
  ∀ (s : State) (a : Addr) (d : Byte), s.fault = none → s.descAt .W (pageOf a) = .handler .glue →
    a = s.cfg.ctrlAAddr → (∀ b ∈ s.cfg.banks, b.addr ≠ a) → a ≠ s.cfg.ctrlBAddr → s.cfg.alphaMapAddr ≠ some a →
    (d &&& s.cfg.ctrlAStartMask = 0#8 → exec (.write a d) s = .next { s with startLevel := false, returned := none }) ∧
    (d &&& s.cfg.ctrlAStartMask ≠ 0#8 → s.startLevel = true →
      exec (.write a d) s = .next { s with returned := none }) ∧
    (d &&& s.cfg.ctrlAStartMask ≠ 0#8 → s.startLevel = false →
      ∃ u : State, exec (.write a d) s = .next u ∧
        u = { s with startLevel := true, mbxRam := u.mbxRam, draws := s.draws + 1,
                     ev := s.ev ++ [.mbxStart, .mbxDone], returned := none } ∧
        ∀ w : WordIndex, u.mbxRead w =
          if w.toNat < 0x2000 then Config.engineWord s.draws s.mbxRam s.cfg.mbxRom w.toNat else s.mbxRead w)

/-- Two writes of level 1 in a row start the engine at most once; a level-0 byte between them makes the second start it
again (70_reset_and_hazards R241). -/
def Obligations.StartNeedsRearming : Prop :=
  ∀ (s s1 s2 s3 s4 : State) (a : Addr) (d1 d2 d3 d4 : Byte),
    s.descAt .W (pageOf a) = .handler .glue →
    a = s.cfg.ctrlAAddr → (∀ b ∈ s.cfg.banks, b.addr ≠ a) → a ≠ s.cfg.ctrlBAddr → s.cfg.alphaMapAddr ≠ some a →
    d1 &&& s.cfg.ctrlAStartMask ≠ 0#8 → d2 &&& s.cfg.ctrlAStartMask ≠ 0#8 →
    d3 &&& s.cfg.ctrlAStartMask = 0#8 → d4 &&& s.cfg.ctrlAStartMask ≠ 0#8 →
    exec (.write a d1) s = .next s1 → exec (.write a d2) s1 = .next s2 →
    exec (.write a d3) s2 = .next s3 → exec (.write a d4) s3 = .next s4 →
    s2.ev = s1.ev ∧ s2.mbxRam = s1.mbxRam ∧ s3.ev = s2.ev ∧ s4.ev = s3.ev ++ [.mbxStart, .mbxDone]

/-- A WRITE to control register B emits VideoCtrl, one to ALPHA_MAP emits AlphaMap, each with the whole byte and with no
change of the block's state (42_register_glue R164, R165). -/
def Obligations.VideoAndAlphaEvents : Prop :=
  ∀ (s : State) (a : Addr) (d : Byte), s.fault = none → s.descAt .W (pageOf a) = .handler .glue →
    (∀ b ∈ s.cfg.banks, b.addr ≠ a) → a ≠ s.cfg.ctrlAAddr →
    (a = s.cfg.ctrlBAddr → s.cfg.alphaMapAddr ≠ some a →
      exec (.write a d) s = .next { s with ev := s.ev ++ [.videoCtrl d], returned := none }) ∧
    (a ≠ s.cfg.ctrlBAddr → s.cfg.alphaMapAddr = some a →
      exec (.write a d) s = .next { s with ev := s.ev ++ [.alphaMap d], returned := none })

/-- A bank switch is seen by the very next access: a READ in the window right after the WRITE reaches the new bank's read
target, whatever it is: the byte of the buffer, the byte of the Mathbox window, whose words are consecutive from the
bank's base, 0x00 for Discard and for an index the table has no entry for, and the platform handler's free byte (logs 2
and 5). Bank select k is the last at the address whose window holds the READ's page. A Mathbox word is as it was before
the WRITE, unless the same WRITE may have started the engine (20_memory R66, 42_register_glue R156, R159,
70_reset_and_hazards R243). -/
def Obligations.BankSwitchSeenByNextRead : Prop :=
  ∀ (s u : State) (a x : Addr) (d : Byte) (k : Nat) (b : BankSelect),
    s.inv = true → s.descAt .W (pageOf a) = .handler .glue → s.cfg.banks[k]? = some b → b.addr = a →
    (∀ j b', s.cfg.banks[j]? = some b' → b'.addr = a → b'.winStart ≤ pageOf x → pageOf x ≤ b'.winEnd → j ≤ k) →
    b.winStart ≤ pageOf x → pageOf x ≤ b.winEnd →
    exec (.write a d) s = .next u →
    let place := x.toNat - b.winStart.toNat * 256
    let reads (v : Byte) : Prop := exec (.read x) u = .next { u with returned := some v }
    (b.table.lookup (bankDecode b d) = none → reads 0x00) ∧
    ∀ t tw : TargetSpec, b.table.lookup (bankDecode b d) = some (t, tw) →
      (t = .discard → reads 0x00) ∧
      (∀ buf base, t = .buffer buf base → reads (s.bufRead buf (base + place))) ∧
      (∀ wbase, t = .mbx wbase → ∃ (w : WordIndex) (v : Byte), w.toNat = (wbase + place / 2) % 0x8000 ∧ reads v ∧
        v.toNat = (if x.toNat % 2 = 0 then (u.mbxRead w).toNat / 256 else (u.mbxRead w).toNat % 256) ∧
        (a ≠ s.cfg.ctrlAAddr ∨ 0x2000 ≤ w.toNat → u.mbxRead w = s.mbxRead w)) ∧
      (∀ id, t = .handler (.platform id) → exec (.read x) u = .next { u with
        returned := some (Config.handlerByte u.draws), draws := u.draws + 1,
        ev := u.ev ++ [.hRd id x (Config.handlerByte u.draws)] }) ∧
      t ≠ .handler .glue

/-- A fault of the map inside a bank switch leaves what was done before it: the index is set, the event is emitted, and a
fault of the write side leaves the read side switched. It can arise only where the configuration is not well formed, so
the state here is any state (60_exceptions R201, R206). -/
def Obligations.FaultKeepsEarlierEffects : Prop :=
  ∀ (s : State) (k : Nat) (d : Byte) (b : BankSelect) (f : ModelFault), s.fault = none →
    s.cfg.banks[k]? = some b → k < s.bank.length → b.winStart ≤ b.winEnd →
    checkTarget s.cfg .R b.winStart b.winEnd (bankTargets b (bankDecode b d)).1 = none →
    checkTarget s.cfg .W b.winStart b.winEnd (bankTargets b (bankDecode b d)).2 = some f →
    (∀ e ∈ s.inflight, ¬ (b.winStart ≤ e.2 ∧ e.2 ≤ b.winEnd)) →
    let u := s.bankSelectWrite k d
    u = { s with ptR := u.ptR, bank := s.bank.set k (bankDecode b d),
                 ev := s.ev ++ [.bankSel k (bankDecode b d)], fault := some f } ∧
    ∀ p, u.descAt .R p =
      if b.winStart ≤ p ∧ p ≤ b.winEnd then desc (bankTargets b (bankDecode b d)).1 b.winStart p else s.descAt .R p

/-! ## Rules of the whole machine -/

/-- BANK is written only by a bank-select WRITE through the glue, by a reset and by a restore (10_state R32). -/
def Obligations.BankWriters : Prop :=
  ∀ (s u : State) (x : Input), s.takesEntry x → step s = .next u → u.bank ≠ s.bank →
    x = .host .reset ∨ x = .host .restore ∨
    ∃ (a : Addr) (d : Byte) (k : Nat) (b : BankSelect), x.isWrite a d ∧
      s.descAt .W (pageOf a) = .handler .glue ∧ s.cfg.banks[k]? = some b ∧ b.addr = a

/-- The page table is written only by map commands and calls, by a bank-select WRITE through the glue, by a reset and by
a restore, once boot is over (10_state R27). -/
def Obligations.PageTableWriters : Prop :=
  ∀ (s u : State) (x : Input), s.takesEntry x → step s = .next u → u.ptR ≠ s.ptR ∨ u.ptW ≠ s.ptW →
    x = .host .reset ∨ x = .host .restore ∨ x.isMap ∨
    ∃ (a : Addr) (d : Byte) (k : Nat) (b : BankSelect), x.isWrite a d ∧
      s.descAt .W (pageOf a) = .handler .glue ∧ s.cfg.banks[k]? = some b ∧ b.addr = a

/-- A buffer's contents change only by a WRITE through a Buffer descriptor that names it, or by a reset (10_state R28).
R28 leaves out what a platform handler's own documentation says; that no WRITE through one changes a buffer is 41_access
R123's, which the model follows (log 15, DEDUCED). -/
def Obligations.BufferWriters : Prop :=
  ∀ (s u : State) (b i : Nat), step s = .next u → u.bufRead b i ≠ s.bufRead b i →
    s.takesEntry (.host .reset) ∨
    ∃ (x : Input) (a : Addr) (d : Byte) (off : Nat), s.takesEntry x ∧ x.isWrite a d ∧
      s.descAt .W (pageOf a) = .buffer b off ∧ i = off + a.toNat % 256

/-- No step changes a ROM word of Mathbox Memory, and every ROM word is MBX_ROM's (10_state R30). -/
def Obligations.MathboxRomIsFixed : Prop :=
  ∀ s u : State, step s = .next u → ∀ w : WordIndex, 0x2000 ≤ w.toNat →
    u.mbxRead w = s.mbxRead w ∧ s.mbxRead w = Cells.read s.cfg.mbxRom w.toNat

/-- No step changes the configuration (10_state R37). -/
def Obligations.ConfigurationNeverChanges : Prop := ∀ s u : State, step s = .next u → u.cfg = s.cfg

/-- The trace is append-only, but for a reset, which empties it (10_state R36, 70_reset_and_hazards R230). -/
def Obligations.TraceOnlyGrows : Prop :=
  ∀ s u : State, step s = .next u → (∃ es, u.ev = s.ev ++ es) ∨ (s.takesEntry (.host .reset) ∧ u.ev = [])

/-- While FAULT is set no command has a step, and the only step there is is a reset by the host, which clears it
(10_state R35, 60_exceptions R201, 70_reset_and_hazards R230). That a snapshot and a restore have no step then either is
the model's reading of R230 and R236 against one of R237 (log 11, DEDUCED), and that the reset is an entry of the list is
its choice (log 10, DESIGN CHOICE). -/
def Obligations.FaultIsSticky : Prop :=
  ∀ (s : State) (f : ModelFault), s.fault = some f →
    (∀ i, exec i s = .fault (.stopped f)) ∧ (∀ c, execCall c s = .fault (.stopped f)) ∧
    ∀ u, step s = .next u → s.takesEntry (.host .reset) ∧ u.fault = none

/-- Every step keeps the invariant: the configuration well formed, the memories canonical, one index for each bank
select, every descriptor one the checks install, nothing in flight between commands (10_state R25, R29, R34). -/
def Obligations.StepKeepsInvariant : Prop := ∀ s u : State, s.inv = true → step s = .next u → u.inv = true

/-- The state after reset meets the invariant, for every configuration that is well formed and every draw, and for the
machine at hand. -/
def Obligations.ResetMeetsInvariant : Prop :=
  (∀ (c : Config) (n : Nat), c.wellFormed = true → (State.resetWith c n).inv = true) ∧ State.reset.inv = true

/-- What a command does depends on the block's state alone, not on the trace or on what was issued, returned or saved
before: two states alike in the block give the same results and append the same events (10_state R20, 20_memory R62).
States alike agree on the count of draws too, the model's form of equal free values (logs 2, 3 and 5, DESIGN CHOICE). -/
def Obligations.CommandsSeeOnlyTheBlock : Prop :=
  ∀ (is : List Instr) (s t : State), Alike s t →
    resultsOf is s = resultsOf is t ∧ eventsOf is s = eventsOf is t ∧
    (∀ u, execAll is s = .next u → ∃ v : State, execAll is t = .next v ∧ Alike u v) ∧
    ∀ r, execAll is s = .fault r → execAll is t = .fault r

/-! ## Steps, reset, boot, snapshot -/

/-- A step whose next entry is a word that decodes to i is i's meaning, followed by the move of the position: one place
for a command that completes, none for one that faults. The position is the model's own carrier of the command list
(10_state R38, log 8). -/
def Obligations.StepRunsDecodedCommand : Prop :=
  ∀ (s : State) (w : BitVec 32) (i : Instr), s.takesEntry (.word w) → decode w = some i →
    (∀ u, exec i s = .next u → step s = .next { u with pos := if u.fault = none then u.pos + 1 else u.pos }) ∧
    ∀ r, exec i s = .fault r → step s = .fault r

/-- A reset by the host, in any state, a faulted one and one with boot pending included, gives every element its reset value
and starts nothing;
Mathbox RAM gets free values (log 4), boot is to follow, and nothing but a reset clears FAULT (70_reset_and_hazards R230).
The second clause says more than R230: a faulted state has no other step, a snapshot and a restore included (log 11,
DEDUCED). That the reset is an entry of the list is the model's choice (log 10, DESIGN CHOICE), and so is that boot is a
phase of the state (log 13, DEDUCED). -/
def Obligations.ResetValues : Prop :=
  (∀ s : State, s.takesEntry (.host .reset) →
    ∃ u : State, step s = .next u ∧ u.cfg = s.cfg ∧ (∀ side p, u.descAt side p = .discard) ∧
      u.bank = s.cfg.banks.map BankSelect.resetBank ∧ u.startLevel = s.cfg.resetStartLevel ∧
      (∀ w : WordIndex, w.toNat < 0x2000 → u.mbxRead w = Config.resetWord s.draws w.toNat) ∧
      (∀ w : WordIndex, 0x2000 ≤ w.toNat → u.mbxRead w = Cells.read s.cfg.mbxRom w.toNat) ∧
      u.bufs = s.cfg.buffers.map BufferInfo.init ∧ u.inflight = [] ∧ u.fault = none ∧ u.ev = [] ∧
      u.phase = .boot) ∧
  ∀ s u : State, s.fault ≠ none → step s = .next u → s.takesEntry (.host .reset)

/-- Power-up leaves the reset state for every configuration that meets the constraints, and refuses every other before
reset. The constraints are those of the spec, TGT[0] = Discard, non-empty windows, no glue register on a window's page,
bank tables that pass the map-time checks over their windows, a boot that completes without a fault, a bank select and a
start mask that is not zero, and the model's own on how initial bytes are listed (00_scope R7, R8, logs 17, 18, 25). -/
def Obligations.IllFormedConfigurationRefused : Prop :=
  ∀ c : Config, (c.meetsConstraints → powerUp c = .next (State.resetWith c 0)) ∧
    (¬ c.meetsConstraints → powerUp c = .refused .illFormedConfig)

/-- Boot from a reset state leaves the canonical table: BOOT_MAP, then the glue's write sides, then each window's bank,
later overriding earlier page by page; BANK and START_LEVEL keep their reset values and the trace stays empty
(70_reset_and_hazards R233). Boot is what runs unless the host resets first (R230). That boot is one step and `phase` turns
to `run` is the model's form of it (log 13, DEDUCED). -/
def Obligations.BootGivesCanonicalTable : Prop :=
  ∀ s : State, s.cfg.wellFormed = true → s.phase = .boot → s.fault = none → ¬ s.takesEntry (.host .reset) →
    s.inflight = [] →
    (∀ side p, s.descAt side p = .discard) →
    ∃ u : State, step s = .next u ∧ (∀ side p, u.descAt side p = canonicalAt s.cfg s.bank side p) ∧
      u = { s with ptR := u.ptR, ptW := u.ptW, phase := .run }

/-- A snapshot holds Mathbox RAM, the bank indices and the start level, and taking it changes nothing of the block
(70_reset_and_hazards R236). That it is an entry of the list, after which the position moves on, and that the host holds it
as the one snapshot it has are the model's choice (log 10 and log 12, DESIGN CHOICE). -/
def Obligations.SnapshotContents : Prop :=
  ∀ s : State, s.takesEntry (.host .snapshot) → s.fault = none →
    step s = .next { s with saved := some ⟨s.mbxRam, s.bank, s.startLevel⟩, pos := s.pos + 1, returned := none }

/-- Restoring a snapshot sets Mathbox RAM, the bank indices and the start level from it, rebuilds the page table as the
canonical table for its indices, and leaves FAULT none, the in-flight stack, the trace and the buffers as they are
(70_reset_and_hazards R237). That it is an entry of the list, after which the position moves on, and that the snapshot is
the one the host holds are the model's choice (log 10 and log 12, DESIGN CHOICE). -/
def Obligations.RestoreRebuildsTheTable : Prop :=
  ∀ (s : State) (p : Snapshot), s.inv = true → s.fault = none → s.takesEntry (.host .restore) → s.saved = some p →
    ∃ u : State, step s = .next u ∧ u.mbxRam = p.mbx ∧ u.bank = p.bank ∧ u.startLevel = p.startLevel ∧ u.fault = none ∧
      (∀ side q, u.descAt side q = canonicalAt s.cfg p.bank side q) ∧
      u = { s with mbxRam := p.mbx, bank := p.bank, startLevel := p.startLevel, ptR := u.ptR, ptW := u.ptW,
                   pos := s.pos + 1, returned := none }

/-- Round trip: where the page table is the canonical one for BANK, restoring the snapshot of s into any state t of the
same configuration gives a state equal to s in the page table, BANK, START_LEVEL and Mathbox RAM; and where the buffers
and the draws agree too, every list of commands then gives the same READ results and the same events
(70_reset_and_hazards R238). That equal counts of draws stand for equal answers of the platform handlers and of the engine
is the model's form of those answers (logs 2, 3 and 5, DESIGN CHOICE). -/
def Obligations.SnapshotRestoreRoundTrip : Prop :=
  ∀ s t : State, s.inv = true → s.fault = none → (∀ side p, s.descAt side p = canonicalAt s.cfg s.bank side p) →
    t.cfg = s.cfg → t.inflight = [] →
    let u := t.restore s.snapshot
    u.ptR = s.ptR ∧ u.ptW = s.ptW ∧ u.bank = s.bank ∧ u.startLevel = s.startLevel ∧ u.mbxRam = s.mbxRam ∧
    (t.bufs = s.bufs → t.draws = s.draws → ∀ is, resultsOf is u = resultsOf is s ∧ eventsOf is u = eventsOf is s)
end

