-- ==== Sys2Proof/Laws/Cells.lean ====
section
/-! SUPPORT. The laws of sparse memory: a read after a write, canonical form kept by every operation, and equality of
canonical memories that read alike. -/

namespace Sys2Proof.Machine

variable {n : Nat}

@[simp] theorem Cells.read_nil (i : Nat) : Cells.read (n := n) [] i = 0#n := rfl

theorem Cells.read_cons (e : Nat × BitVec n) (m : Cells n) (i : Nat) :
    Cells.read (e :: m) i = if i = e.1 then e.2 else Cells.read m i := by
  unfold Cells.read
  rw [List.lookup_cons]
  by_cases h : i = e.1
  · simp [h]
  · rw [if_neg h, show (i == e.1) = false by simpa using h]

theorem Cells.read_filter_ne (m : Cells n) (i j : Nat) :
    Cells.read (m.filter fun e => e.1 != i) j = if j = i then 0#n else Cells.read m j := by
  induction m with
  | nil => simp
  | cons e m ih =>
    by_cases he : e.1 = i
    · simp only [he, bne_self_eq_false, Bool.false_eq_true, not_false_eq_true, List.filter_cons_of_neg, ih,
        Cells.read_cons]
      split <;> rfl
    · simp [he, Cells.read_cons, ih]
      by_cases hj : j = e.1
      · simp [hj, he]
      · simp [hj]

theorem Cells.read_place (m : Cells n) (i j : Nat) (v : BitVec n) (h : ∀ e ∈ m, e.1 ≠ i) :
    Cells.read (Cells.place i v m) j = if j = i then v else Cells.read m j := by
  induction m with
  | nil => simp [Cells.place, Cells.read_cons]
  | cons e m ih =>
    have he : e.1 ≠ i := h e (by simp)
    have ih' := ih fun x hx => h x (by simp [hx])
    unfold Cells.place
    split
    · simp [Cells.read_cons]
    · simp only [Cells.read_cons, ih']
      by_cases hj : j = e.1
      · simp [hj, he]
      · simp [hj]

/-- A read after a write: the written value at its index, every other index as before. -/
theorem Cells.read_write (m : Cells n) (i j : Nat) (v : BitVec n) :
    Cells.read (Cells.write m i v) j = if j = i then v else Cells.read m j := by
  unfold Cells.write
  by_cases hv : v = Cells.unlisted n
  · simp only [hv, if_true, Cells.read_filter_ne]
    rfl
  · simp only [hv, if_false]
    rw [Cells.read_place _ _ _ _ (by simp), Cells.read_filter_ne]
    by_cases hj : j = i <;> simp [hj]

theorem Cells.read_of_lt {lo : Nat} {m : Cells n} (h : Cells.rising lo m = true) {i : Nat} (hi : i < lo) :
    Cells.read m i = 0#n := by
  induction m generalizing lo with
  | nil => rfl
  | cons e m ih =>
    simp only [Cells.rising, Bool.and_eq_true, decide_eq_true_eq] at h
    rw [Cells.read_cons, if_neg (by omega), ih h.2 (by omega)]

theorem Cells.rising_mono {lo lo' : Nat} {m : Cells n} (h : Cells.rising lo m = true) (hl : lo' ≤ lo) :
    Cells.rising lo' m = true := by
  cases m with
  | nil => rfl
  | cons e m =>
    simp only [Cells.rising, Bool.and_eq_true, decide_eq_true_eq] at h ⊢
    exact ⟨by omega, h.2⟩

theorem Cells.rising_filter (p : Nat × BitVec n → Bool) {lo : Nat} {m : Cells n} (h : Cells.rising lo m = true) :
    Cells.rising lo (m.filter p) = true := by
  induction m generalizing lo with
  | nil => rfl
  | cons e m ih =>
    simp only [Cells.rising, Bool.and_eq_true, decide_eq_true_eq] at h
    by_cases hp : p e = true
    · simp only [List.filter_cons_of_pos hp, Cells.rising, Bool.and_eq_true, decide_eq_true_eq]
      exact ⟨h.1, ih h.2⟩
    · rw [List.filter_cons_of_neg hp]
      exact Cells.rising_mono (ih h.2) (by omega)

theorem Cells.rising_place {lo i : Nat} {v : BitVec n} {m : Cells n} (h : Cells.rising lo m = true) (hlo : lo ≤ i)
    (hi : ∀ e ∈ m, e.1 ≠ i) : Cells.rising lo (Cells.place i v m) = true := by
  induction m generalizing lo with
  | nil => simp [Cells.place, Cells.rising, hlo]
  | cons e m ih =>
    have he : e.1 ≠ i := hi e (by simp)
    simp only [Cells.rising, Bool.and_eq_true, decide_eq_true_eq] at h
    unfold Cells.place
    split
    · simp only [Cells.rising, Bool.and_eq_true, decide_eq_true_eq]
      exact ⟨hlo, by omega, h.2⟩
    · simp only [Cells.rising, Bool.and_eq_true, decide_eq_true_eq]
      exact ⟨h.1, ih h.2 (by omega) fun x hx => hi x (by simp [hx])⟩

theorem Cells.mem_place {i : Nat} {v : BitVec n} {m : Cells n} {e : Nat × BitVec n} (h : e ∈ Cells.place i v m) :
    e = (i, v) ∨ e ∈ m := by
  induction m with
  | nil => simpa [Cells.place] using h
  | cons x m ih =>
    unfold Cells.place at h
    split at h
    · simpa using h
    · rcases List.mem_cons.mp h with h | h
      · exact .inr (by simp [h])
      · rcases ih h with h | h
        · exact .inl h
        · exact .inr (by simp [h])

theorem Cells.wf_iff (len : Nat) (m : Cells n) :
    Cells.wf len m = true ↔ Cells.rising 0 m = true ∧ ∀ e ∈ m, e.1 < len ∧ e.2 ≠ 0#n := by
  unfold Cells.wf Cells.unlisted
  simp [List.all_eq_true]

/-- A write keeps the canonical form. -/
theorem Cells.wf_write {len : Nat} {m : Cells n} (h : Cells.wf len m = true) {i : Nat} (hi : i < len) (v : BitVec n) :
    Cells.wf len (Cells.write m i v) = true := by
  rw [Cells.wf_iff] at h ⊢
  have hr := Cells.rising_filter (fun e => e.1 != i) h.1
  unfold Cells.write
  by_cases hv : v = Cells.unlisted n
  · simp only [hv, if_true]
    exact ⟨hr, fun e he => h.2 e (List.mem_filter.mp he).1⟩
  · simp only [hv, if_false]
    refine ⟨Cells.rising_place hr (Nat.zero_le i) (by simp), fun e he => ?_⟩
    rcases Cells.mem_place he with rfl | he
    · exact ⟨hi, hv⟩
    · exact h.2 e (List.mem_filter.mp he).1

theorem Cells.wf_nil (len : Nat) : Cells.wf (n := n) len [] = true := rfl

/-- The entries `Cells.ofFn` lists for a run of indexes. -/
def Cells.listed (f : Nat → BitVec n) (i : Nat) : Option (Nat × BitVec n) :=
  if f i = Cells.unlisted n then none else some (i, f i)

theorem Cells.ofFn_eq (len : Nat) (f : Nat → BitVec n) :
    Cells.ofFn len f = (List.range' 0 len).filterMap (Cells.listed f) := by
  unfold Cells.ofFn
  rw [← List.range_eq_range']
  rfl

theorem Cells.rising_listed (f : Nat → BitVec n) (lo k : Nat) :
    Cells.rising lo ((List.range' lo k).filterMap (Cells.listed f)) = true := by
  induction k generalizing lo with
  | zero => rfl
  | succ k ih =>
    rw [List.range'_succ, List.filterMap_cons]
    by_cases hf : f lo = Cells.unlisted n
    · simp only [Cells.listed, hf, if_true]
      exact Cells.rising_mono (ih (lo + 1)) (by omega)
    · simp only [Cells.listed, hf, if_false, Cells.rising, Bool.and_eq_true, decide_eq_true_eq]
      exact ⟨Nat.le_refl lo, ih (lo + 1)⟩

/-- The memory of a function is in canonical form. -/
theorem Cells.wf_ofFn (len : Nat) (f : Nat → BitVec n) : Cells.wf len (Cells.ofFn len f) = true := by
  rw [Cells.wf_iff, Cells.ofFn_eq]
  refine ⟨Cells.rising_listed f 0 len, fun e he => ?_⟩
  obtain ⟨i, hi, he⟩ := List.mem_filterMap.mp he
  unfold Cells.listed at he
  split at he
  · cases he
  · next hf =>
    obtain rfl := Option.some.inj he
    exact ⟨by simpa using hi, hf⟩

theorem Cells.read_listed (f : Nat → BitVec n) (lo k i : Nat) :
    Cells.read ((List.range' lo k).filterMap (Cells.listed f)) i = if lo ≤ i ∧ i < lo + k then f i else 0#n := by
  induction k generalizing lo with
  | zero =>
    have : ¬ (lo ≤ i ∧ i < lo + 0) := by omega
    rw [if_neg this]
    rfl
  | succ k ih =>
    rw [List.range'_succ, List.filterMap_cons]
    by_cases hf : f lo = Cells.unlisted n
    · simp only [Cells.listed, hf, if_true]
      rw [ih]
      by_cases hi : i = lo
      · subst hi
        rw [if_neg (by omega), if_pos (by omega), hf]
        rfl
      · by_cases h : lo + 1 ≤ i ∧ i < lo + 1 + k
        · rw [if_pos h, if_pos (by omega)]
        · rw [if_neg h, if_neg (by omega)]
    · simp only [Cells.listed, hf, if_false, Cells.read_cons]
      rw [ih]
      by_cases hi : i = lo
      · subst hi
        rw [if_pos rfl, if_pos (by omega)]
      · rw [if_neg hi]
        by_cases h : lo + 1 ≤ i ∧ i < lo + 1 + k
        · rw [if_pos h, if_pos (by omega)]
        · rw [if_neg h, if_neg (by omega)]

/-- The memory of a function reads as the function. -/
theorem Cells.read_ofFn (len : Nat) (f : Nat → BitVec n) (i : Nat) :
    Cells.read (Cells.ofFn len f) i = if i < len then f i else 0#n := by
  rw [Cells.ofFn_eq, Cells.read_listed]
  by_cases h : i < len <;> simp [h]

end Sys2Proof.Machine
end

