-- ==== Sys2Proof/Laws/Operands.lean ====
section
/-! SUPPORT. The laws of the page table, of page ranges and of the window's lanes. -/

namespace Sys2Proof.Machine

theorem tableAt_tableSet (t : PageTable) (p q : Page) (d : PageDesc) :
    tableAt (tableSet t p d) q = if q = p then d else tableAt t q := by
  unfold tableAt tableSet
  by_cases h : q = p
  · subst h
    simp
  · have hne : p.toNat ≠ q.toNat := fun e => h (BitVec.eq_of_toNat_eq e.symm)
    rw [if_neg h]
    exact Vector.getElem_set_ne _ _ hne

@[simp] theorem tableAt_allDiscard (p : Page) : tableAt allDiscard p = .discard := by
  unfold tableAt allDiscard
  exact Vector.getElem_replicate _

theorem table_ext {t u : PageTable} (h : ∀ p, tableAt t p = tableAt u p) : t = u := by
  apply Vector.ext
  intro i hi
  have := h (BitVec.ofNat 8 i)
  unfold tableAt at this
  simpa [Nat.mod_eq_of_lt hi] using this

theorem mem_pagesOf (ps pe p : Page) : p ∈ pagesOf ps pe ↔ ps ≤ p ∧ p ≤ pe := by
  unfold pagesOf
  rw [List.mem_map]
  simp only [List.mem_range'_1, BitVec.le_def]
  constructor
  · rintro ⟨i, ⟨h1, h2⟩, rfl⟩
    have := pe.isLt
    rw [BitVec.toNat_ofNat, Nat.mod_eq_of_lt (by omega)]
    omega
  · rintro ⟨h1, h2⟩
    exact ⟨p.toNat, by omega, by simp⟩

theorem inRange_iff (ps pe p : Page) : inRange ps pe p = true ↔ ps ≤ p ∧ p ≤ pe := by
  simp [inRange]

theorem mem_pagesOf_iff (ps pe p : Page) : p ∈ pagesOf ps pe ↔ inRange ps pe p = true := by
  rw [mem_pagesOf, inRange_iff]

theorem tableAt_foldl_set (f : Page → PageDesc) (xs : List Page) (t : PageTable) (q : Page) :
    tableAt (xs.foldl (fun t p => tableSet t p (f p)) t) q = if q ∈ xs then f q else tableAt t q := by
  induction xs generalizing t with
  | nil => simp
  | cons p xs ih =>
    rw [List.foldl_cons, ih, tableAt_tableSet]
    by_cases hq : q ∈ xs
    · simp [hq]
    · by_cases hp : q = p <;> simp [hq, hp]

/-- A map writes desc(t, ps, p) at every page of the range and leaves every other page. -/
theorem tableAt_tableMap (tbl : PageTable) (ps pe : Page) (t : TargetSpec) (p : Page) :
    tableAt (tableMap tbl ps pe t) p = if inRange ps pe p then desc t ps p else tableAt tbl p := by
  unfold tableMap
  rw [tableAt_foldl_set fun p => desc t ps p]
  by_cases h : p ∈ pagesOf ps pe
  · rw [if_pos h, if_pos ((mem_pagesOf_iff ..).mp h)]
  · rw [if_neg h, if_neg fun c => h ((mem_pagesOf_iff ..).mpr c)]

/-- The pages of a range ascend: what stands before the k-th page that satisfies q is below it and does not. -/
theorem find_pagesOf {ps pe p : Page} {q : Page → Bool} :
    (pagesOf ps pe).find? q = some p ↔
      q p = true ∧ inRange ps pe p = true ∧ ∀ r, r < p → inRange ps pe r = true → q r = false := by
  have key : ∀ (k lo : Nat), lo + k ≤ 256 →
      (((List.range' lo k).map (BitVec.ofNat 8)).find? q = some p ↔
        q p = true ∧ (lo ≤ p.toNat ∧ p.toNat < lo + k) ∧
          ∀ r : Page, r < p → lo ≤ r.toNat → q r = false) := by
    intro k
    induction k with
    | zero =>
      intro lo _
      simp only [List.range'_zero, List.map_nil, List.find?_nil]
      constructor
      · intro h; cases h
      · rintro ⟨-, h, -⟩; omega
    | succ k ih =>
      intro lo hlo
      have hval : (BitVec.ofNat 8 lo).toNat = lo := by
        rw [BitVec.toNat_ofNat, Nat.mod_eq_of_lt (by omega)]
      rw [List.range'_succ, List.map_cons, List.find?_cons]
      cases hq : q (BitVec.ofNat 8 lo) with
      | true =>
        constructor
        · intro h
          obtain rfl := Option.some.inj h
          refine ⟨hq, by omega, fun r hr hlo' => ?_⟩
          rw [BitVec.lt_def] at hr
          omega
        · rintro ⟨hp, hb, hmin⟩
          by_cases he : p = BitVec.ofNat 8 lo
          · rw [he]
          · have : q (BitVec.ofNat 8 lo) = false := by
              refine hmin _ ?_ (by omega)
              have : p.toNat ≠ lo := fun e => he (BitVec.eq_of_toNat_eq (by omega))
              rw [BitVec.lt_def]
              omega
            rw [this] at hq
            cases hq
      | false =>
        simp only
        rw [ih (lo + 1) (by omega)]
        constructor
        · rintro ⟨hp, hb, hmin⟩
          refine ⟨hp, by omega, fun r hr hlo' => ?_⟩
          by_cases he : r = BitVec.ofNat 8 lo
          · rw [he]; exact hq
          · have : r.toNat ≠ lo := fun e => he (BitVec.eq_of_toNat_eq (by omega))
            exact hmin r hr (by omega)
        · rintro ⟨hp, hb, hmin⟩
          have : p.toNat ≠ lo := by
            intro e
            have : p = BitVec.ofNat 8 lo := BitVec.eq_of_toNat_eq (by omega)
            rw [this, hq] at hp
            cases hp
          exact ⟨hp, by omega, fun r hr hlo' => hmin r hr (by omega)⟩
  have hpe := pe.isLt
  have hps := ps.isLt
  unfold pagesOf
  by_cases hr : ps.toNat ≤ pe.toNat + 1
  · rw [key _ _ (by omega)]
    constructor
    · rintro ⟨hp, hb, hmin⟩
      refine ⟨hp, ?_, fun r hr' hin => hmin r hr' ?_⟩
      · rw [inRange_iff, BitVec.le_def, BitVec.le_def]; omega
      · rw [inRange_iff, BitVec.le_def, BitVec.le_def] at hin; omega
    · rintro ⟨hp, hin, hmin⟩
      rw [inRange_iff, BitVec.le_def, BitVec.le_def] at hin
      refine ⟨hp, by omega, fun r hr' hlo => hmin r hr' ?_⟩
      rw [BitVec.lt_def] at hr'
      rw [inRange_iff, BitVec.le_def, BitVec.le_def]; omega
  · rw [show pe.toNat + 1 - ps.toNat = 0 by omega]
    simp only [List.range'_zero, List.map_nil, List.find?_nil]
    constructor
    · intro h; cases h
    · rintro ⟨-, hin, -⟩
      rw [inRange_iff, BitVec.le_def, BitVec.le_def] at hin
      omega

theorem find_pagesOf_none {ps pe : Page} {q : Page → Bool} :
    (pagesOf ps pe).find? q = none ↔ ∀ p, inRange ps pe p = true → q p = false := by
  rw [List.find?_eq_none]
  constructor
  · intro h p hp
    simpa using h p ((mem_pagesOf_iff ..).mpr hp)
  · intro h p hp
    simpa using h p ((mem_pagesOf_iff ..).mp hp)

theorem high_append (v x : Byte) : (v ++ x).extractLsb' 8 8 = v := by
  apply BitVec.eq_of_getLsbD_eq
  intro i hi
  rw [BitVec.getLsbD_extractLsb', BitVec.getLsbD_append]
  have : ¬ 8 + i < 8 := by omega
  simp [hi, this]

theorem low_append (v x : Byte) : (v ++ x).extractLsb' 0 8 = x := by
  apply BitVec.eq_of_getLsbD_eq
  intro i hi
  rw [BitVec.getLsbD_extractLsb', BitVec.getLsbD_append]
  simp [hi]

/-- The byte written to a lane is read back from it; the other lane is as it was. -/
theorem laneGet_laneSet (evenHigh l l' : Bool) (w : Word) (v : Byte) :
    laneGet evenHigh l' (laneSet evenHigh l w v) = if l' = l then v else laneGet evenHigh l' w := by
  unfold laneGet laneSet laneIsHigh
  cases evenHigh <;> cases l <;> cases l' <;>
    simp only [bne_self_eq_false, Bool.false_eq_true, Bool.true_eq_false, if_true, if_false, Bool.bne_true,
      Bool.bne_false, Bool.not_false] <;>
    first
      | exact high_append _ _
      | exact low_append _ _

theorem mem_gluePages (c : Config) (p : Page) : p ∈ gluePages c ↔ isGluePage c p = true := by
  unfold gluePages
  rw [List.mem_filter, mem_pagesOf]
  constructor
  · exact fun h => h.2
  · intro h
    refine ⟨⟨?_, ?_⟩, h⟩
    · rw [BitVec.le_def]; simp
    · have := p.isLt
      rw [BitVec.le_def, show (255#8).toNat = 255 from rfl]
      omega

end Sys2Proof.Machine
end

