-- ==== Sys2Proof/Laws/State.lean ====
section
/-! SUPPORT. One lemma for each field of State and each update of the shared operations, so that no proof unfolds a
record update. -/

namespace Sys2Proof.Machine

@[simp] theorem State.raise_cfg (f : ModelFault) (s : State) : (s.raise f).cfg = s.cfg := rfl

@[simp] theorem State.raise_ptR (f : ModelFault) (s : State) : (s.raise f).ptR = s.ptR := rfl

@[simp] theorem State.raise_ptW (f : ModelFault) (s : State) : (s.raise f).ptW = s.ptW := rfl

@[simp] theorem State.raise_bufs (f : ModelFault) (s : State) : (s.raise f).bufs = s.bufs := rfl

@[simp] theorem State.raise_mbxRam (f : ModelFault) (s : State) : (s.raise f).mbxRam = s.mbxRam := rfl

@[simp] theorem State.raise_bank (f : ModelFault) (s : State) : (s.raise f).bank = s.bank := rfl

@[simp] theorem State.raise_startLevel (f : ModelFault) (s : State) : (s.raise f).startLevel = s.startLevel := rfl

@[simp] theorem State.raise_inflight (f : ModelFault) (s : State) : (s.raise f).inflight = s.inflight := rfl

@[simp] theorem State.raise_fault (f : ModelFault) (s : State) : (s.raise f).fault = some f := rfl

@[simp] theorem State.raise_ev (f : ModelFault) (s : State) : (s.raise f).ev = s.ev := rfl

@[simp] theorem State.raise_phase (f : ModelFault) (s : State) : (s.raise f).phase = s.phase := rfl

@[simp] theorem State.raise_input (f : ModelFault) (s : State) : (s.raise f).input = s.input := rfl

@[simp] theorem State.raise_pos (f : ModelFault) (s : State) : (s.raise f).pos = s.pos := rfl

@[simp] theorem State.raise_returned (f : ModelFault) (s : State) : (s.raise f).returned = s.returned := rfl

@[simp] theorem State.raise_saved (f : ModelFault) (s : State) : (s.raise f).saved = s.saved := rfl

@[simp] theorem State.raise_draws (f : ModelFault) (s : State) : (s.raise f).draws = s.draws := rfl

@[simp] theorem State.emit_cfg (e : Event) (s : State) : (s.emit e).cfg = s.cfg := rfl

@[simp] theorem State.emit_ptR (e : Event) (s : State) : (s.emit e).ptR = s.ptR := rfl

@[simp] theorem State.emit_ptW (e : Event) (s : State) : (s.emit e).ptW = s.ptW := rfl

@[simp] theorem State.emit_bufs (e : Event) (s : State) : (s.emit e).bufs = s.bufs := rfl

@[simp] theorem State.emit_mbxRam (e : Event) (s : State) : (s.emit e).mbxRam = s.mbxRam := rfl

@[simp] theorem State.emit_bank (e : Event) (s : State) : (s.emit e).bank = s.bank := rfl

@[simp] theorem State.emit_startLevel (e : Event) (s : State) : (s.emit e).startLevel = s.startLevel := rfl

@[simp] theorem State.emit_inflight (e : Event) (s : State) : (s.emit e).inflight = s.inflight := rfl

@[simp] theorem State.emit_fault (e : Event) (s : State) : (s.emit e).fault = s.fault := rfl

@[simp] theorem State.emit_ev (e : Event) (s : State) : (s.emit e).ev = s.ev ++ [e] := rfl

@[simp] theorem State.emit_phase (e : Event) (s : State) : (s.emit e).phase = s.phase := rfl

@[simp] theorem State.emit_input (e : Event) (s : State) : (s.emit e).input = s.input := rfl

@[simp] theorem State.emit_pos (e : Event) (s : State) : (s.emit e).pos = s.pos := rfl

@[simp] theorem State.emit_returned (e : Event) (s : State) : (s.emit e).returned = s.returned := rfl

@[simp] theorem State.emit_saved (e : Event) (s : State) : (s.emit e).saved = s.saved := rfl

@[simp] theorem State.emit_draws (e : Event) (s : State) : (s.emit e).draws = s.draws := rfl

@[simp] theorem State.push_cfg (side : Side) (p : Page) (s : State) : (s.push side p).cfg = s.cfg := rfl

@[simp] theorem State.push_ptR (side : Side) (p : Page) (s : State) : (s.push side p).ptR = s.ptR := rfl

@[simp] theorem State.push_ptW (side : Side) (p : Page) (s : State) : (s.push side p).ptW = s.ptW := rfl

@[simp] theorem State.push_bufs (side : Side) (p : Page) (s : State) : (s.push side p).bufs = s.bufs := rfl

@[simp] theorem State.push_mbxRam (side : Side) (p : Page) (s : State) : (s.push side p).mbxRam = s.mbxRam := rfl

@[simp] theorem State.push_bank (side : Side) (p : Page) (s : State) : (s.push side p).bank = s.bank := rfl

@[simp] theorem State.push_startLevel (side : Side) (p : Page) (s : State) : (s.push side p).startLevel = s.startLevel := rfl

@[simp] theorem State.push_inflight (side : Side) (p : Page) (s : State) : (s.push side p).inflight = (side, p) :: s.inflight := rfl

@[simp] theorem State.push_fault (side : Side) (p : Page) (s : State) : (s.push side p).fault = s.fault := rfl

@[simp] theorem State.push_ev (side : Side) (p : Page) (s : State) : (s.push side p).ev = s.ev := rfl

@[simp] theorem State.push_phase (side : Side) (p : Page) (s : State) : (s.push side p).phase = s.phase := rfl

@[simp] theorem State.push_input (side : Side) (p : Page) (s : State) : (s.push side p).input = s.input := rfl

@[simp] theorem State.push_pos (side : Side) (p : Page) (s : State) : (s.push side p).pos = s.pos := rfl

@[simp] theorem State.push_returned (side : Side) (p : Page) (s : State) : (s.push side p).returned = s.returned := rfl

@[simp] theorem State.push_saved (side : Side) (p : Page) (s : State) : (s.push side p).saved = s.saved := rfl

@[simp] theorem State.push_draws (side : Side) (p : Page) (s : State) : (s.push side p).draws = s.draws := rfl

@[simp] theorem State.pop_cfg (s : State) : (s.pop).cfg = s.cfg := rfl

@[simp] theorem State.pop_ptR (s : State) : (s.pop).ptR = s.ptR := rfl

@[simp] theorem State.pop_ptW (s : State) : (s.pop).ptW = s.ptW := rfl

@[simp] theorem State.pop_bufs (s : State) : (s.pop).bufs = s.bufs := rfl

@[simp] theorem State.pop_mbxRam (s : State) : (s.pop).mbxRam = s.mbxRam := rfl

@[simp] theorem State.pop_bank (s : State) : (s.pop).bank = s.bank := rfl

@[simp] theorem State.pop_startLevel (s : State) : (s.pop).startLevel = s.startLevel := rfl

@[simp] theorem State.pop_inflight (s : State) : (s.pop).inflight = s.inflight.tail := rfl

@[simp] theorem State.pop_fault (s : State) : (s.pop).fault = s.fault := rfl

@[simp] theorem State.pop_ev (s : State) : (s.pop).ev = s.ev := rfl

@[simp] theorem State.pop_phase (s : State) : (s.pop).phase = s.phase := rfl

@[simp] theorem State.pop_input (s : State) : (s.pop).input = s.input := rfl

@[simp] theorem State.pop_pos (s : State) : (s.pop).pos = s.pos := rfl

@[simp] theorem State.pop_returned (s : State) : (s.pop).returned = s.returned := rfl

@[simp] theorem State.pop_saved (s : State) : (s.pop).saved = s.saved := rfl

@[simp] theorem State.pop_draws (s : State) : (s.pop).draws = s.draws := rfl

@[simp] theorem State.answer_cfg (v : Byte) (s : State) : (s.answer v).cfg = s.cfg := rfl

@[simp] theorem State.answer_ptR (v : Byte) (s : State) : (s.answer v).ptR = s.ptR := rfl

@[simp] theorem State.answer_ptW (v : Byte) (s : State) : (s.answer v).ptW = s.ptW := rfl

@[simp] theorem State.answer_bufs (v : Byte) (s : State) : (s.answer v).bufs = s.bufs := rfl

@[simp] theorem State.answer_mbxRam (v : Byte) (s : State) : (s.answer v).mbxRam = s.mbxRam := rfl

@[simp] theorem State.answer_bank (v : Byte) (s : State) : (s.answer v).bank = s.bank := rfl

@[simp] theorem State.answer_startLevel (v : Byte) (s : State) : (s.answer v).startLevel = s.startLevel := rfl

@[simp] theorem State.answer_inflight (v : Byte) (s : State) : (s.answer v).inflight = s.inflight := rfl

@[simp] theorem State.answer_fault (v : Byte) (s : State) : (s.answer v).fault = s.fault := rfl

@[simp] theorem State.answer_ev (v : Byte) (s : State) : (s.answer v).ev = s.ev := rfl

@[simp] theorem State.answer_phase (v : Byte) (s : State) : (s.answer v).phase = s.phase := rfl

@[simp] theorem State.answer_input (v : Byte) (s : State) : (s.answer v).input = s.input := rfl

@[simp] theorem State.answer_pos (v : Byte) (s : State) : (s.answer v).pos = s.pos := rfl

@[simp] theorem State.answer_returned (v : Byte) (s : State) : (s.answer v).returned = some v := rfl

@[simp] theorem State.answer_saved (v : Byte) (s : State) : (s.answer v).saved = s.saved := rfl

@[simp] theorem State.answer_draws (v : Byte) (s : State) : (s.answer v).draws = s.draws := rfl

@[simp] theorem State.countDraw_cfg (s : State) : (s.countDraw).cfg = s.cfg := rfl

@[simp] theorem State.countDraw_ptR (s : State) : (s.countDraw).ptR = s.ptR := rfl

@[simp] theorem State.countDraw_ptW (s : State) : (s.countDraw).ptW = s.ptW := rfl

@[simp] theorem State.countDraw_bufs (s : State) : (s.countDraw).bufs = s.bufs := rfl

@[simp] theorem State.countDraw_mbxRam (s : State) : (s.countDraw).mbxRam = s.mbxRam := rfl

@[simp] theorem State.countDraw_bank (s : State) : (s.countDraw).bank = s.bank := rfl

@[simp] theorem State.countDraw_startLevel (s : State) : (s.countDraw).startLevel = s.startLevel := rfl

@[simp] theorem State.countDraw_inflight (s : State) : (s.countDraw).inflight = s.inflight := rfl

@[simp] theorem State.countDraw_fault (s : State) : (s.countDraw).fault = s.fault := rfl

@[simp] theorem State.countDraw_ev (s : State) : (s.countDraw).ev = s.ev := rfl

@[simp] theorem State.countDraw_phase (s : State) : (s.countDraw).phase = s.phase := rfl

@[simp] theorem State.countDraw_input (s : State) : (s.countDraw).input = s.input := rfl

@[simp] theorem State.countDraw_pos (s : State) : (s.countDraw).pos = s.pos := rfl

@[simp] theorem State.countDraw_returned (s : State) : (s.countDraw).returned = s.returned := rfl

@[simp] theorem State.countDraw_saved (s : State) : (s.countDraw).saved = s.saved := rfl

@[simp] theorem State.countDraw_draws (s : State) : (s.countDraw).draws = s.draws + 1 := rfl

@[simp] theorem State.bufWrite_cfg (b i : Nat) (v : Byte) (s : State) : (s.bufWrite b i v).cfg = s.cfg := rfl

@[simp] theorem State.bufWrite_ptR (b i : Nat) (v : Byte) (s : State) : (s.bufWrite b i v).ptR = s.ptR := rfl

@[simp] theorem State.bufWrite_ptW (b i : Nat) (v : Byte) (s : State) : (s.bufWrite b i v).ptW = s.ptW := rfl

@[simp] theorem State.bufWrite_bufs (b i : Nat) (v : Byte) (s : State) : (s.bufWrite b i v).bufs = s.bufs.modify b fun m => Cells.write (n := 8) m i v := rfl

@[simp] theorem State.bufWrite_mbxRam (b i : Nat) (v : Byte) (s : State) : (s.bufWrite b i v).mbxRam = s.mbxRam := rfl

@[simp] theorem State.bufWrite_bank (b i : Nat) (v : Byte) (s : State) : (s.bufWrite b i v).bank = s.bank := rfl

@[simp] theorem State.bufWrite_startLevel (b i : Nat) (v : Byte) (s : State) : (s.bufWrite b i v).startLevel = s.startLevel := rfl

@[simp] theorem State.bufWrite_inflight (b i : Nat) (v : Byte) (s : State) : (s.bufWrite b i v).inflight = s.inflight := rfl

@[simp] theorem State.bufWrite_fault (b i : Nat) (v : Byte) (s : State) : (s.bufWrite b i v).fault = s.fault := rfl

@[simp] theorem State.bufWrite_ev (b i : Nat) (v : Byte) (s : State) : (s.bufWrite b i v).ev = s.ev := rfl

@[simp] theorem State.bufWrite_phase (b i : Nat) (v : Byte) (s : State) : (s.bufWrite b i v).phase = s.phase := rfl

@[simp] theorem State.bufWrite_input (b i : Nat) (v : Byte) (s : State) : (s.bufWrite b i v).input = s.input := rfl

@[simp] theorem State.bufWrite_pos (b i : Nat) (v : Byte) (s : State) : (s.bufWrite b i v).pos = s.pos := rfl

@[simp] theorem State.bufWrite_returned (b i : Nat) (v : Byte) (s : State) : (s.bufWrite b i v).returned = s.returned := rfl

@[simp] theorem State.bufWrite_saved (b i : Nat) (v : Byte) (s : State) : (s.bufWrite b i v).saved = s.saved := rfl

@[simp] theorem State.bufWrite_draws (b i : Nat) (v : Byte) (s : State) : (s.bufWrite b i v).draws = s.draws := rfl

@[simp] theorem State.mbxWrite_cfg (w : WordIndex) (v : Word) (s : State) : (s.mbxWrite w v).cfg = s.cfg := by unfold State.mbxWrite; split <;> rfl

@[simp] theorem State.mbxWrite_ptR (w : WordIndex) (v : Word) (s : State) : (s.mbxWrite w v).ptR = s.ptR := by unfold State.mbxWrite; split <;> rfl

@[simp] theorem State.mbxWrite_ptW (w : WordIndex) (v : Word) (s : State) : (s.mbxWrite w v).ptW = s.ptW := by unfold State.mbxWrite; split <;> rfl

@[simp] theorem State.mbxWrite_bufs (w : WordIndex) (v : Word) (s : State) : (s.mbxWrite w v).bufs = s.bufs := by unfold State.mbxWrite; split <;> rfl

@[simp] theorem State.mbxWrite_bank (w : WordIndex) (v : Word) (s : State) : (s.mbxWrite w v).bank = s.bank := by unfold State.mbxWrite; split <;> rfl

@[simp] theorem State.mbxWrite_startLevel (w : WordIndex) (v : Word) (s : State) : (s.mbxWrite w v).startLevel = s.startLevel := by unfold State.mbxWrite; split <;> rfl

@[simp] theorem State.mbxWrite_inflight (w : WordIndex) (v : Word) (s : State) : (s.mbxWrite w v).inflight = s.inflight := by unfold State.mbxWrite; split <;> rfl

@[simp] theorem State.mbxWrite_fault (w : WordIndex) (v : Word) (s : State) : (s.mbxWrite w v).fault = s.fault := by unfold State.mbxWrite; split <;> rfl

@[simp] theorem State.mbxWrite_ev (w : WordIndex) (v : Word) (s : State) : (s.mbxWrite w v).ev = s.ev := by unfold State.mbxWrite; split <;> rfl

@[simp] theorem State.mbxWrite_phase (w : WordIndex) (v : Word) (s : State) : (s.mbxWrite w v).phase = s.phase := by unfold State.mbxWrite; split <;> rfl

@[simp] theorem State.mbxWrite_input (w : WordIndex) (v : Word) (s : State) : (s.mbxWrite w v).input = s.input := by unfold State.mbxWrite; split <;> rfl

@[simp] theorem State.mbxWrite_pos (w : WordIndex) (v : Word) (s : State) : (s.mbxWrite w v).pos = s.pos := by unfold State.mbxWrite; split <;> rfl

@[simp] theorem State.mbxWrite_returned (w : WordIndex) (v : Word) (s : State) : (s.mbxWrite w v).returned = s.returned := by unfold State.mbxWrite; split <;> rfl

@[simp] theorem State.mbxWrite_saved (w : WordIndex) (v : Word) (s : State) : (s.mbxWrite w v).saved = s.saved := by unfold State.mbxWrite; split <;> rfl

@[simp] theorem State.mbxWrite_draws (w : WordIndex) (v : Word) (s : State) : (s.mbxWrite w v).draws = s.draws := by unfold State.mbxWrite; split <;> rfl

@[simp] theorem State.setPages_cfg (side : Side) (ps pe : Page) (t : TargetSpec) (s : State) : (s.setPages side ps pe t).cfg = s.cfg := by cases side <;> rfl

@[simp] theorem State.setPages_bufs (side : Side) (ps pe : Page) (t : TargetSpec) (s : State) : (s.setPages side ps pe t).bufs = s.bufs := by cases side <;> rfl

@[simp] theorem State.setPages_mbxRam (side : Side) (ps pe : Page) (t : TargetSpec) (s : State) : (s.setPages side ps pe t).mbxRam = s.mbxRam := by cases side <;> rfl

@[simp] theorem State.setPages_bank (side : Side) (ps pe : Page) (t : TargetSpec) (s : State) : (s.setPages side ps pe t).bank = s.bank := by cases side <;> rfl

@[simp] theorem State.setPages_startLevel (side : Side) (ps pe : Page) (t : TargetSpec) (s : State) : (s.setPages side ps pe t).startLevel = s.startLevel := by cases side <;> rfl

@[simp] theorem State.setPages_inflight (side : Side) (ps pe : Page) (t : TargetSpec) (s : State) : (s.setPages side ps pe t).inflight = s.inflight := by cases side <;> rfl

@[simp] theorem State.setPages_fault (side : Side) (ps pe : Page) (t : TargetSpec) (s : State) : (s.setPages side ps pe t).fault = s.fault := by cases side <;> rfl

@[simp] theorem State.setPages_ev (side : Side) (ps pe : Page) (t : TargetSpec) (s : State) : (s.setPages side ps pe t).ev = s.ev := by cases side <;> rfl

@[simp] theorem State.setPages_phase (side : Side) (ps pe : Page) (t : TargetSpec) (s : State) : (s.setPages side ps pe t).phase = s.phase := by cases side <;> rfl

@[simp] theorem State.setPages_input (side : Side) (ps pe : Page) (t : TargetSpec) (s : State) : (s.setPages side ps pe t).input = s.input := by cases side <;> rfl

@[simp] theorem State.setPages_pos (side : Side) (ps pe : Page) (t : TargetSpec) (s : State) : (s.setPages side ps pe t).pos = s.pos := by cases side <;> rfl

@[simp] theorem State.setPages_returned (side : Side) (ps pe : Page) (t : TargetSpec) (s : State) : (s.setPages side ps pe t).returned = s.returned := by cases side <;> rfl

@[simp] theorem State.setPages_saved (side : Side) (ps pe : Page) (t : TargetSpec) (s : State) : (s.setPages side ps pe t).saved = s.saved := by cases side <;> rfl

@[simp] theorem State.setPages_draws (side : Side) (ps pe : Page) (t : TargetSpec) (s : State) : (s.setPages side ps pe t).draws = s.draws := by cases side <;> rfl

@[simp] theorem State.advance_cfg (s : State) : (s.advance).cfg = s.cfg := by unfold State.advance; split <;> rfl

@[simp] theorem State.advance_ptR (s : State) : (s.advance).ptR = s.ptR := by unfold State.advance; split <;> rfl

@[simp] theorem State.advance_ptW (s : State) : (s.advance).ptW = s.ptW := by unfold State.advance; split <;> rfl

@[simp] theorem State.advance_bufs (s : State) : (s.advance).bufs = s.bufs := by unfold State.advance; split <;> rfl

@[simp] theorem State.advance_mbxRam (s : State) : (s.advance).mbxRam = s.mbxRam := by unfold State.advance; split <;> rfl

@[simp] theorem State.advance_bank (s : State) : (s.advance).bank = s.bank := by unfold State.advance; split <;> rfl

@[simp] theorem State.advance_startLevel (s : State) : (s.advance).startLevel = s.startLevel := by unfold State.advance; split <;> rfl

@[simp] theorem State.advance_inflight (s : State) : (s.advance).inflight = s.inflight := by unfold State.advance; split <;> rfl

@[simp] theorem State.advance_fault (s : State) : (s.advance).fault = s.fault := by unfold State.advance; split <;> rfl

@[simp] theorem State.advance_ev (s : State) : (s.advance).ev = s.ev := by unfold State.advance; split <;> rfl

@[simp] theorem State.advance_phase (s : State) : (s.advance).phase = s.phase := by unfold State.advance; split <;> rfl

@[simp] theorem State.advance_input (s : State) : (s.advance).input = s.input := by unfold State.advance; split <;> rfl

@[simp] theorem State.advance_returned (s : State) : (s.advance).returned = s.returned := by unfold State.advance; split <;> rfl

@[simp] theorem State.advance_saved (s : State) : (s.advance).saved = s.saved := by unfold State.advance; split <;> rfl

@[simp] theorem State.advance_draws (s : State) : (s.advance).draws = s.draws := by unfold State.advance; split <;> rfl

theorem State.setPages_ptR (side : Side) (ps pe : Page) (t : TargetSpec) (s : State) :
    (s.setPages side ps pe t).ptR = if side = .R then tableMap s.ptR ps pe t else s.ptR := by
  cases side <;> rfl

theorem State.setPages_ptW (side : Side) (ps pe : Page) (t : TargetSpec) (s : State) :
    (s.setPages side ps pe t).ptW = if side = .W then tableMap s.ptW ps pe t else s.ptW := by
  cases side <;> rfl

theorem State.advance_pos (s : State) : s.advance.pos = if s.fault = none then s.pos + 1 else s.pos := by
  unfold State.advance
  split <;> simp_all

@[simp] theorem State.resetWith_cfg (c : Config) (n : Nat) : (State.resetWith c n).cfg = c := by
  unfold State.resetWith
  rfl

@[simp] theorem State.resetWith_ptR (c : Config) (n : Nat) : (State.resetWith c n).ptR = allDiscard := by
  unfold State.resetWith
  rfl

@[simp] theorem State.resetWith_ptW (c : Config) (n : Nat) : (State.resetWith c n).ptW = allDiscard := by
  unfold State.resetWith
  rfl

@[simp] theorem State.resetWith_bufs (c : Config) (n : Nat) : (State.resetWith c n).bufs = c.buffers.map BufferInfo.init := by
  unfold State.resetWith
  rfl

@[simp] theorem State.resetWith_mbxRam (c : Config) (n : Nat) : (State.resetWith c n).mbxRam = Cells.ofFn mbxRamWords (Config.resetWord n) := by
  unfold State.resetWith
  rfl

@[simp] theorem State.resetWith_bank (c : Config) (n : Nat) : (State.resetWith c n).bank = c.banks.map BankSelect.resetBank := by
  unfold State.resetWith
  rfl

@[simp] theorem State.resetWith_startLevel (c : Config) (n : Nat) : (State.resetWith c n).startLevel = c.resetStartLevel := by
  unfold State.resetWith
  rfl

@[simp] theorem State.resetWith_inflight (c : Config) (n : Nat) : (State.resetWith c n).inflight = [] := by
  unfold State.resetWith
  rfl

@[simp] theorem State.resetWith_fault (c : Config) (n : Nat) : (State.resetWith c n).fault = none := by
  unfold State.resetWith
  rfl

@[simp] theorem State.resetWith_ev (c : Config) (n : Nat) : (State.resetWith c n).ev = [] := by
  unfold State.resetWith
  rfl

@[simp] theorem State.resetWith_phase (c : Config) (n : Nat) : (State.resetWith c n).phase = .boot := by
  unfold State.resetWith
  rfl

@[simp] theorem State.resetWith_input (c : Config) (n : Nat) : (State.resetWith c n).input = [] := by
  unfold State.resetWith
  rfl

@[simp] theorem State.resetWith_pos (c : Config) (n : Nat) : (State.resetWith c n).pos = 0 := by
  unfold State.resetWith
  rfl

@[simp] theorem State.resetWith_returned (c : Config) (n : Nat) : (State.resetWith c n).returned = none := by
  unfold State.resetWith
  rfl

@[simp] theorem State.resetWith_saved (c : Config) (n : Nat) : (State.resetWith c n).saved = none := by
  unfold State.resetWith
  rfl

@[simp] theorem State.resetWith_draws (c : Config) (n : Nat) : (State.resetWith c n).draws = n + 1 := by
  unfold State.resetWith
  rfl

end Sys2Proof.Machine
end

