-- ==== Sys2Proof/Laws/Ops.lean ====
section
/-! SUPPORT. What each shared operation can do, said once: sequencing after a fault, the in-flight check, MapSide, map
commands by handle, Mathbox Memory and the buffers. -/

namespace Sys2Proof.Machine

/-! ## Sequencing -/

theorem State.andThen_of_none {s : State} (h : s.fault = none) (rest : State → State) : s.andThen rest = rest s := by
  unfold State.andThen
  rw [h]

theorem State.andThen_of_some {s : State} {f : ModelFault} (h : s.fault = some f) (rest : State → State) :
    s.andThen rest = s := by
  unfold State.andThen
  rw [h]

theorem State.andThen_cases (s : State) (rest : State → State) :
    (s.fault = none ∧ s.andThen rest = rest s) ∨ (s.fault ≠ none ∧ s.andThen rest = s) := by
  cases h : s.fault with
  | none => exact .inl ⟨rfl, State.andThen_of_none h rest⟩
  | some f => exact .inr ⟨by simp, State.andThen_of_some h rest⟩

theorem State.forEach_cons {α : Type} (x : α) (xs : List α) (body : α → State → State) (s : State) :
    State.forEach (x :: xs) body s = State.forEach xs body (s.andThen (body x)) := rfl

@[simp] theorem State.forEach_nil {α : Type} (body : α → State → State) (s : State) :
    State.forEach [] body s = s := rfl

/-- What every part of a procedure keeps, the procedure keeps. -/
theorem State.forEach_rel {α : Type} {R : State → State → Prop} (refl : ∀ s, R s s)
    (trans : ∀ s t u, R s t → R t u → R s u) {xs : List α} {body : α → State → State}
    (h : ∀ x ∈ xs, ∀ s, R s (body x s)) (s : State) : R s (State.forEach xs body s) := by
  induction xs generalizing s with
  | nil => exact refl s
  | cons x xs ih =>
    rw [State.forEach_cons]
    refine trans _ _ _ ?_ (ih (fun y hy => h y (by simp [hy])) _)
    rcases State.andThen_cases s (body x) with ⟨-, e⟩ | ⟨-, e⟩ <;> rw [e]
    · exact h x (by simp) s
    · exact refl s

/-- Where no part of a procedure faults in the states P describes, the procedure does not. -/
theorem State.forEach_ok {α : Type} {P : State → Prop} {xs : List α} {body : α → State → State}
    (h : ∀ x ∈ xs, ∀ s, P s → s.fault = none → P (body x s) ∧ (body x s).fault = none) {s : State} (hp : P s)
    (hf : s.fault = none) : P (State.forEach xs body s) ∧ (State.forEach xs body s).fault = none := by
  induction xs generalizing s with
  | nil => exact ⟨hp, hf⟩
  | cons x xs ih =>
    rw [State.forEach_cons, State.andThen_of_none hf]
    obtain ⟨hp', hf'⟩ := h x (by simp) s hp hf
    exact ih (fun y hy => h y (by simp [hy])) hp' hf'

/-- Where no part faults, a view of the state is computed part by part. -/
theorem State.forEach_view {α β : Type} {P : State → Prop} (view : State → β) {g : β → α → β} {xs : List α}
    {body : α → State → State}
    (h : ∀ x ∈ xs, ∀ s, P s → s.fault = none →
      P (body x s) ∧ (body x s).fault = none ∧ view (body x s) = g (view s) x) {s : State} (hp : P s)
    (hf : s.fault = none) : view (State.forEach xs body s) = xs.foldl g (view s) := by
  induction xs generalizing s with
  | nil => rfl
  | cons x xs ih =>
    rw [State.forEach_cons, State.andThen_of_none hf, List.foldl_cons]
    obtain ⟨hp', hf', hv⟩ := h x (by simp) s hp hf
    rw [ih (fun y hy => h y (by simp [hy])) hp' hf', hv]

/-- After a fault a procedure does nothing more. -/
theorem State.forEach_of_some {α : Type} {s : State} {f : ModelFault} (h : s.fault = some f) (xs : List α)
    (body : α → State → State) : State.forEach xs body s = s := by
  induction xs with
  | nil => rfl
  | cons x xs ih => rw [State.forEach_cons, State.andThen_of_some h, ih]

/-- Where a procedure ends with no fault, no part of it faulted: what each part needs for that holds of each. -/
theorem State.forEach_needs {α : Type} {P : State → Prop} {Q : α → Prop} {xs : List α} {body : α → State → State}
    (keep : ∀ x ∈ xs, ∀ s, P s → P (body x s))
    (need : ∀ x ∈ xs, ∀ s, P s → s.fault = none → (body x s).fault = none → Q x) {s : State} (hp : P s)
    (hf : s.fault = none) (h : (State.forEach xs body s).fault = none) : ∀ x ∈ xs, Q x := by
  induction xs generalizing s with
  | nil => simp
  | cons x xs ih =>
    rw [State.forEach_cons, State.andThen_of_none hf] at h
    have h1 : (body x s).fault = none := by
      rcases Option.eq_none_or_eq_some (body x s).fault with h1 | ⟨f, h1⟩
      · exact h1
      · rw [State.forEach_of_some h1] at h
        exact h
    rw [List.forall_mem_cons]
    exact ⟨need x (by simp) s hp hf h1, ih (fun y hy => keep y (by simp [hy])) (fun y hy => need y (by simp [hy]))
      (keep x (by simp) s hp) h1 h⟩

theorem State.command_of_none {s : State} (h : s.fault = none)
    (body : State → Host.Outcome State Fault Refusal) : s.command body = body { s with returned := none } := by
  unfold State.command
  rw [h]

theorem State.command_of_some {s : State} {f : ModelFault} (h : s.fault = some f)
    (body : State → Host.Outcome State Fault Refusal) : s.command body = .fault (.stopped f) := by
  unfold State.command
  rw [h]

/-- A command that answers a next state ran its body in a state with no fault. -/
theorem State.command_next {s u : State} {body : State → Host.Outcome State Fault Refusal}
    (h : s.command body = .next u) : s.fault = none ∧ body { s with returned := none } = .next u := by
  rcases Option.eq_none_or_eq_some s.fault with hf | ⟨f, hf⟩
  · rw [State.command_of_none hf] at h
    exact ⟨hf, h⟩
  · rw [State.command_of_some hf] at h
    cases h

/-! ## The map procedure -/

theorem State.descAt_setPages (side side' : Side) (ps pe p : Page) (t : TargetSpec) (s : State) :
    (s.setPages side ps pe t).descAt side' p =
      if side' = side ∧ inRange ps pe p = true then desc t ps p else s.descAt side' p := by
  cases side <;> cases side' <;> simp [State.descAt, State.setPages, tableAt_tableMap]

theorem State.inFlight_iff (s : State) (p : Page) : s.inFlight p = true ↔ ∃ e ∈ s.inflight, e.2 = p := by
  simp [State.inFlight, List.any_eq_true]

theorem State.lowestInFlight_none (s : State) (ps pe : Page) :
    s.lowestInFlight ps pe = none ↔ ∀ e ∈ s.inflight, ¬ (ps ≤ e.2 ∧ e.2 ≤ pe) := by
  unfold State.lowestInFlight
  rw [find_pagesOf_none]
  constructor
  · intro h e he hr
    have := h e.2 ((inRange_iff ..).mpr hr)
    rw [(State.inFlight_iff ..).mpr ⟨e, he, rfl⟩] at this
    cases this
  · intro h p hp
    cases hq : s.inFlight p with
    | false => rfl
    | true =>
      obtain ⟨e, he, rfl⟩ := (State.inFlight_iff ..).mp hq
      exact absurd ((inRange_iff ..).mp hp) (h e he)

theorem State.lowestInFlight_some (s : State) (ps pe p : Page) :
    s.lowestInFlight ps pe = some p ↔
      (∃ e ∈ s.inflight, e.2 = p) ∧ (ps ≤ p ∧ p ≤ pe) ∧
        ∀ e ∈ s.inflight, ps ≤ e.2 → e.2 ≤ pe → p ≤ e.2 := by
  unfold State.lowestInFlight
  rw [find_pagesOf, State.inFlight_iff, inRange_iff]
  refine and_congr_right fun _ => and_congr_right fun _ => ?_
  constructor
  · intro h e he h1 h2
    by_contra hlt
    have := h e.2 (BitVec.not_le.mp hlt) ((inRange_iff ..).mpr ⟨h1, h2⟩)
    rw [(State.inFlight_iff ..).mpr ⟨e, he, rfl⟩] at this
    cases this
  · intro h r hr hin
    cases hq : s.inFlight r with
    | false => rfl
    | true =>
      obtain ⟨e, he, rfl⟩ := (State.inFlight_iff ..).mp hq
      have hin := (inRange_iff ..).mp hin
      exact absurd (h e he hin.1 hin.2) (BitVec.not_le.mpr hr)

/-- The four ways MapSide can end. -/
theorem State.mapSide_cases (side : Side) (ps pe : Page) (t : TargetSpec) (s : State) :
    (pe < ps ∧ s.mapSide side ps pe t = s) ∨
    (ps ≤ pe ∧ ∃ f, checkTarget s.cfg side ps pe t = some f ∧ s.mapSide side ps pe t = s.raise f) ∨
    (ps ≤ pe ∧ checkTarget s.cfg side ps pe t = none ∧
      ∃ p, s.lowestInFlight ps pe = some p ∧ s.mapSide side ps pe t = s.raise (.remapInflight side p)) ∨
    (ps ≤ pe ∧ checkTarget s.cfg side ps pe t = none ∧ s.lowestInFlight ps pe = none ∧
      s.mapSide side ps pe t = s.setPages side ps pe t) := by
  unfold State.mapSide
  by_cases h : pe < ps
  · exact .inl ⟨h, if_pos h⟩
  · have hle : ps ≤ pe := BitVec.not_lt.mp h
    rw [if_neg h]
    cases hc : checkTarget s.cfg side ps pe t with
    | some f => exact .inr (.inl ⟨hle, f, rfl, rfl⟩)
    | none =>
      cases hl : s.lowestInFlight ps pe with
      | some p => exact .inr (.inr (.inl ⟨hle, rfl, p, rfl, rfl⟩))
      | none => exact .inr (.inr (.inr ⟨hle, rfl, rfl, rfl⟩))

/-- t differs from s in the page table and in FAULT at most. -/
def TablesOnly (s t : State) : Prop := t = { s with ptR := t.ptR, ptW := t.ptW, fault := t.fault }

theorem TablesOnly.refl (s : State) : TablesOnly s s := rfl

theorem TablesOnly.trans {s t u : State} (h : TablesOnly s t) (h' : TablesOnly t u) : TablesOnly s u := by
  unfold TablesOnly at *
  rw [h']
  rw [h]

/-- The frame of MapSide: the page table and FAULT (40_mapping R100). -/
theorem State.mapSide_tablesOnly (side : Side) (ps pe : Page) (t : TargetSpec) (s : State) :
    TablesOnly s (s.mapSide side ps pe t) := by
  rcases State.mapSide_cases side ps pe t s with ⟨-, e⟩ | ⟨-, f, -, e⟩ | ⟨-, -, p, -, e⟩ | ⟨-, -, -, e⟩ <;> rw [e]
  · exact TablesOnly.refl s
  · rfl
  · rfl
  · cases side <;> rfl

/-- MapSide where it does not fault. -/
theorem State.descAt_mapSide {side : Side} {ps pe : Page} {t : TargetSpec} {s : State}
    (h : (s.mapSide side ps pe t).fault = none) (side' : Side) (p : Page) :
    (s.mapSide side ps pe t).descAt side' p =
      if side' = side ∧ inRange ps pe p = true then desc t ps p else s.descAt side' p := by
  rcases State.mapSide_cases side ps pe t s with ⟨hlt, e⟩ | ⟨-, f, -, e⟩ | ⟨-, -, q, -, e⟩ | ⟨-, -, -, e⟩ <;>
    rw [e] at h ⊢
  · have : inRange ps pe p = false := by
      cases hr : inRange ps pe p with
      | false => rfl
      | true =>
        have := (inRange_iff ..).mp hr
        rw [BitVec.le_def, BitVec.le_def] at this
        rw [BitVec.lt_def] at hlt
        omega
    simp [this]
  · cases h
  · cases h
  · exact State.descAt_setPages ..

/-- MapSide does not fault where the target passes and nothing in the range is in flight. -/
theorem State.mapSide_ok {side : Side} {ps pe : Page} {t : TargetSpec} {s : State} (hf : s.fault = none)
    (hc : ps ≤ pe → checkTarget s.cfg side ps pe t = none) (hi : ∀ e ∈ s.inflight, ¬ (ps ≤ e.2 ∧ e.2 ≤ pe)) :
    (s.mapSide side ps pe t).fault = none := by
  rcases State.mapSide_cases side ps pe t s with ⟨-, e⟩ | ⟨hle, f, hc', -⟩ | ⟨-, -, p, hl, -⟩ | ⟨-, -, -, e⟩
  · rw [e]; exact hf
  · rw [hc hle] at hc'; cases hc'
  · rw [(State.lowestInFlight_none ..).mpr hi] at hl; cases hl
  · rw [e]; simpa using hf

theorem State.mapHandle_of_some {side : Side} {ps pe : Page} {h : Handle} {t : TargetSpec} {s : State}
    (ht : targetOf s.cfg h = some t) : s.mapHandle side ps pe h = s.mapSide side ps pe t := by
  unfold State.mapHandle
  rw [ht]

theorem State.mapHandle_of_none {side : Side} {ps pe : Page} {h : Handle} {s : State}
    (ht : targetOf s.cfg h = none) : s.mapHandle side ps pe h = s.raise (.badHandle h) := by
  unfold State.mapHandle
  rw [ht]

theorem State.mapHandle_tablesOnly (side : Side) (ps pe : Page) (h : Handle) (s : State) :
    TablesOnly s (s.mapHandle side ps pe h) := by
  cases ht : targetOf s.cfg h with
  | none => rw [State.mapHandle_of_none ht]; rfl
  | some t => rw [State.mapHandle_of_some ht]; exact State.mapSide_tablesOnly ..

/-- What the map-time checks let through is a good descriptor of its side (10_state R29). -/
theorem desc_ok {c : Config} {side : Side} {ps pe p : Page} {t : TargetSpec}
    (hc : checkTarget c side ps pe t = none) (h1 : ps ≤ p) (h2 : p ≤ pe) :
    (side = .R → readDescOk c (desc t ps p) = true) ∧ (side = .W → writeDescOk c (desc t ps p) = true) := by
  rw [BitVec.le_def] at h1 h2
  cases t with
  | discard => exact ⟨fun _ => rfl, fun _ => rfl⟩
  | mbx w => exact ⟨fun _ => rfl, fun _ => rfl⟩
  | buffer buf base =>
    unfold checkTarget at hc
    cases hb : c.buffers[buf]? with
    | none => simp only [hb] at hc; cases hc
    | some info =>
      simp only [hb] at hc
      split at hc
      · cases hc
      · next hlen =>
        split at hc
        · cases hc
        · next hw =>
          have hin : base + (p.toNat - ps.toNat) * 256 + 255 < info.len := by omega
          constructor
          · intro _
            simp [desc, readDescOk, hb, hin]
          · intro hs
            have : info.writable = true := by
              cases hwr : info.writable with
              | true => rfl
              | false => exact absurd ⟨hs, hwr⟩ hw
            simp [desc, writeDescOk, hb, hin, this]
  | handler h =>
    cases h with
    | glue =>
      refine ⟨fun hs => ?_, fun _ => rfl⟩
      subst hs
      simp [checkTarget] at hc
    | platform id =>
      unfold checkTarget at hc
      by_cases hm : id ∈ c.handlers
      · exact ⟨fun _ => by simp [desc, readDescOk, hm], fun _ => by simp [desc, writeDescOk, hm]⟩
      · simp [hm] at hc

/-! ## Memory -/

/-- A read of a buffer after a write: the written byte, and every other byte as before. -/
theorem State.bufRead_bufWrite (s : State) (b i b' i' : Nat) (v : Byte) (hb : b < s.bufs.length) :
    (s.bufWrite b i v).bufRead b' i' = if b' = b ∧ i' = i then v else s.bufRead b' i' := by
  unfold State.bufRead
  simp only [State.bufWrite_bufs, List.getD_eq_getElem?_getD, List.getElem?_modify]
  by_cases h : b = b'
  · subst h
    rw [List.getElem?_eq_getElem hb]
    simp only [if_true, Option.map_eq_map, Option.map_some, Option.getD_some, true_and]
    exact Cells.read_write _ _ _ _
  · have h' : b' ≠ b := fun e => h e.symm
    cases s.bufs[b']? <;> simp [h, h']

/-- A read of Mathbox Memory after a write: a RAM word takes the value, every other word is as before. -/
theorem State.mbxRead_mbxWrite (s : State) (w w' : WordIndex) (v : Word) :
    (s.mbxWrite w v).mbxRead w' = if w' = w ∧ w.toNat < mbxRamWords then v else s.mbxRead w' := by
  unfold State.mbxRead State.mbxWrite
  by_cases hw : w.toNat < mbxRamWords
  · simp only [hw, if_true, and_true]
    by_cases hw' : w'.toNat < mbxRamWords
    · simp only [hw', if_true, Cells.read_write]
      by_cases e : w' = w
      · simp [e]
      · have : w'.toNat ≠ w.toNat := fun h => e (BitVec.eq_of_toNat_eq h)
        simp [e, this]
    · have : w' ≠ w := fun e => hw' (e ▸ hw)
      simp [hw', this]
  · simp [hw]

theorem State.bufHas_iff (s : State) (b i : Nat) :
    s.bufHas b i = true ↔ ∃ info, s.cfg.buffers[b]? = some info ∧ i < info.len ∧ b < s.bufs.length := by
  unfold State.bufHas
  cases h : s.cfg.buffers[b]? <;> simp

theorem windowWord_toNat (woff : WordIndex) (a : Addr) :
    (windowWord woff a).toNat = (woff.toNat + a.toNat % 256 / 2) % 0x8000 := by
  unfold windowWord offOf
  simp [Nat.shiftRight_eq_div_pow]
  omega

theorem offOf_toNat (a : Addr) : (offOf a).toNat = a.toNat % 256 := by
  simp [offOf]

theorem pageOf_toNat (a : Addr) : (pageOf a).toNat = a.toNat / 256 := by
  have := a.isLt
  simp [pageOf, Nat.shiftRight_eq_div_pow]
  omega

theorem laneOf_eq (a : Addr) : laneOf a = decide (a.toNat % 2 = 1) := by
  unfold laneOf
  rw [BitVec.getLsbD, Nat.testBit_zero]

end Sys2Proof.Machine
end

