-- ==== Sys2Proof/Laws/Glue.lean ====
section
/-! SUPPORT. What the glue can do: one bank, the bank selects of an address, control register A, and any glue write. -/

namespace Sys2Proof.Machine

/-- Every bank table entry of a well-formed configuration passes the map-time checks over its window, and so does the
Discard that stands for a missing entry (00_scope R8 (d), 42_register_glue R156). -/
theorem bankTargets_pass {c : Config} (h : c.bankTablesOk = true) {b : BankSelect} (hb : b ∈ c.banks) (idx : Nat) :
    checkTarget c .R b.winStart b.winEnd (bankTargets b idx).1 = none ∧
      checkTarget c .W b.winStart b.winEnd (bankTargets b idx).2 = none := by
  unfold bankTargets
  cases hl : b.table.lookup idx with
  | none => exact ⟨rfl, rfl⟩
  | some t =>
    have hmem : (idx, t) ∈ b.table := by
      obtain ⟨l1, l2, e, -⟩ := List.lookup_eq_some_iff.mp hl
      rw [e]
      simp
    simp only [Config.bankTablesOk, List.all_eq_true, Bool.and_eq_true, Option.isNone_iff_eq_none] at h
    exact h b hb (idx, t) hmem

theorem State.applyBank_of_some {s : State} {k : Nat} {b : BankSelect} (hb : s.cfg.banks[k]? = some b) :
    s.applyBank k = (s.mapSide .R b.winStart b.winEnd (bankTargets b (s.bankIndex k)).1).andThen
      (State.mapSide .W b.winStart b.winEnd (bankTargets b (s.bankIndex k)).2) := by
  unfold State.applyBank
  rw [hb]

theorem State.applyBank_of_none {s : State} {k : Nat} (hb : s.cfg.banks[k]? = none) : s.applyBank k = s := by
  unfold State.applyBank
  rw [hb]

/-- The frame of ApplyBank: the page table and FAULT (42_register_glue R155). -/
theorem State.applyBank_tablesOnly (k : Nat) (s : State) : TablesOnly s (s.applyBank k) := by
  rcases Option.eq_none_or_eq_some s.cfg.banks[k]? with hb | ⟨b, hb⟩
  · rw [State.applyBank_of_none hb]
    exact TablesOnly.refl s
  · rw [State.applyBank_of_some hb]
    refine TablesOnly.trans
      (State.mapSide_tablesOnly .R b.winStart b.winEnd (bankTargets b (s.bankIndex k)).1 s) ?_
    rcases State.andThen_cases (s.mapSide .R b.winStart b.winEnd (bankTargets b (s.bankIndex k)).1)
      (State.mapSide .W b.winStart b.winEnd (bankTargets b (s.bankIndex k)).2) with ⟨-, e⟩ | ⟨-, e⟩ <;> rw [e]
    · exact State.mapSide_tablesOnly ..
    · exact TablesOnly.refl _

theorem TablesOnly.cfg {s t : State} (h : TablesOnly s t) : t.cfg = s.cfg := by
  unfold TablesOnly at h
  rw [h]
theorem TablesOnly.bank {s t : State} (h : TablesOnly s t) : t.bank = s.bank := by
  unfold TablesOnly at h
  rw [h]
theorem TablesOnly.inflight {s t : State} (h : TablesOnly s t) : t.inflight = s.inflight := by
  unfold TablesOnly at h
  rw [h]
theorem TablesOnly.ev {s t : State} (h : TablesOnly s t) : t.ev = s.ev := by
  unfold TablesOnly at h
  rw [h]
theorem TablesOnly.bufs {s t : State} (h : TablesOnly s t) : t.bufs = s.bufs := by
  unfold TablesOnly at h
  rw [h]
theorem TablesOnly.mbxRam {s t : State} (h : TablesOnly s t) : t.mbxRam = s.mbxRam := by
  unfold TablesOnly at h
  rw [h]
theorem TablesOnly.startLevel {s t : State} (h : TablesOnly s t) : t.startLevel = s.startLevel := by
  unfold TablesOnly at h
  rw [h]
theorem TablesOnly.saved {s t : State} (h : TablesOnly s t) : t.saved = s.saved := by
  unfold TablesOnly at h
  rw [h]
theorem TablesOnly.draws {s t : State} (h : TablesOnly s t) : t.draws = s.draws := by
  unfold TablesOnly at h
  rw [h]

/-- ApplyBank where its two targets pass and no page of its window is in flight: no fault, and both sides of the window
show the bank (42_register_glue R155). -/
theorem State.applyBank_ok {s : State} {k : Nat} {b : BankSelect} (hf : s.fault = none)
    (hb : s.cfg.banks[k]? = some b)
    (hR : checkTarget s.cfg .R b.winStart b.winEnd (bankTargets b (s.bankIndex k)).1 = none)
    (hW : checkTarget s.cfg .W b.winStart b.winEnd (bankTargets b (s.bankIndex k)).2 = none)
    (hi : ∀ e ∈ s.inflight, ¬ (b.winStart ≤ e.2 ∧ e.2 ≤ b.winEnd)) :
    (s.applyBank k).fault = none ∧ ∀ side p, (s.applyBank k).descAt side p =
      if inRange b.winStart b.winEnd p then desc (sideOf side (bankTargets b (s.bankIndex k))) b.winStart p
      else s.descAt side p := by
  rw [State.applyBank_of_some hb]
  have fr := State.mapSide_tablesOnly .R b.winStart b.winEnd (bankTargets b (s.bankIndex k)).1 s
  have h1 := State.mapSide_ok (side := .R) hf (fun _ => hR) hi
  rw [State.andThen_of_none h1]
  have h2 := State.mapSide_ok (side := .W) (t := (bankTargets b (s.bankIndex k)).2) h1
    (fun _ => by rw [fr.cfg]; exact hW) (by rw [fr.inflight]; exact hi)
  refine ⟨h2, fun side p => ?_⟩
  rw [State.descAt_mapSide h2, State.descAt_mapSide h1]
  cases side <;> cases inRange b.winStart b.winEnd p <;> simp [sideOf]

theorem State.bankSelectWrite_of_some {s : State} {k : Nat} {d : Byte} {b : BankSelect}
    (hb : s.cfg.banks[k]? = some b) :
    s.bankSelectWrite k d = State.applyBank k
      (State.emit (.bankSel k (bankDecode b d)) { s with bank := s.bank.set k (bankDecode b d) }) := by
  unfold State.bankSelectWrite
  rw [hb]

theorem State.bankSelectWrite_of_none {s : State} {k : Nat} {d : Byte} (hb : s.cfg.banks[k]? = none) :
    s.bankSelectWrite k d = s := by
  unfold State.bankSelectWrite
  rw [hb]

/-- What a glue write can change: all but the configuration, the buffers, the in-flight stack and the model's own
fields; the trace only grows, the number of bank indices stays, and Mathbox RAM stays canonical. -/
structure GlueRel (s t : State) : Prop where
  frame : t = { s with ptR := t.ptR, ptW := t.ptW, mbxRam := t.mbxRam, bank := t.bank, startLevel := t.startLevel,
                       fault := t.fault, ev := t.ev, draws := t.draws }
  grows : ∃ es, t.ev = s.ev ++ es
  banks : t.bank.length = s.bank.length
  ram : Cells.wf (n := 16) mbxRamWords s.mbxRam = true → Cells.wf (n := 16) mbxRamWords t.mbxRam = true

theorem GlueRel.refl (s : State) : GlueRel s s := ⟨rfl, ⟨[], by simp⟩, rfl, id⟩

theorem GlueRel.trans {s t u : State} (h : GlueRel s t) (h' : GlueRel t u) : GlueRel s u := by
  refine ⟨?_, ?_, h'.banks.trans h.banks, fun w => h'.ram (h.ram w)⟩
  · have h1 := h.frame
    have h2 := h'.frame
    rw [h2]
    rw [h1]
  · obtain ⟨es, he⟩ := h.grows
    obtain ⟨es', he'⟩ := h'.grows
    exact ⟨es ++ es', by rw [he', he, List.append_assoc]⟩

theorem GlueRel.cfg {s t : State} (h : GlueRel s t) : t.cfg = s.cfg := by
  rw [h.frame]
theorem GlueRel.bufs {s t : State} (h : GlueRel s t) : t.bufs = s.bufs := by
  rw [h.frame]
theorem GlueRel.inflight {s t : State} (h : GlueRel s t) : t.inflight = s.inflight := by
  rw [h.frame]
theorem GlueRel.saved {s t : State} (h : GlueRel s t) : t.saved = s.saved := by
  rw [h.frame]

theorem TablesOnly.glueRel {s t : State} (h : TablesOnly s t) : GlueRel s t := by
  refine ⟨?_, ⟨[], by rw [h.ev]; simp⟩, by rw [h.bank], by rw [h.mbxRam]; exact id⟩
  have := h
  unfold TablesOnly at this
  rw [this]

theorem State.bankSelectWrite_glueRel (k : Nat) (d : Byte) (s : State) : GlueRel s (s.bankSelectWrite k d) := by
  rcases Option.eq_none_or_eq_some s.cfg.banks[k]? with hb | ⟨b, hb⟩
  · rw [State.bankSelectWrite_of_none hb]
    exact GlueRel.refl s
  · rw [State.bankSelectWrite_of_some hb]
    refine GlueRel.trans ?_ (State.applyBank_tablesOnly ..).glueRel
    exact ⟨rfl, ⟨_, rfl⟩, by simp, id⟩

theorem State.bankSelects_glueRel (a : Addr) (d : Byte) (s : State) : GlueRel s (s.bankSelects a d) := by
  unfold State.bankSelects
  refine State.forEach_rel (R := GlueRel) GlueRel.refl (fun _ _ _ => GlueRel.trans) (fun k _ s => ?_) s
  split
  · exact State.bankSelectWrite_glueRel ..
  · exact GlueRel.refl s

/-- Where no bank-select register has the address, the bank selects do nothing. -/
theorem State.bankSelects_of_no_bank {s : State} {a : Addr} (h : ∀ b ∈ s.cfg.banks, b.addr ≠ a) (d : Byte) :
    s.bankSelects a d = s := by
  have key : ∀ (xs : List Nat) (body : Nat → State → State), (∀ k ∈ xs, body k s = s) →
      State.forEach xs body s = s := by
    intro xs body
    induction xs with
    | nil => exact fun _ => rfl
    | cons k xs ih =>
      intro hb
      rw [State.forEach_cons]
      have : s.andThen (body k) = s := by
        rcases State.andThen_cases s (body k) with ⟨-, e⟩ | ⟨-, e⟩ <;> rw [e]
        exact hb k (by simp)
      rw [this]
      exact ih fun j hj => hb j (by simp [hj])
  unfold State.bankSelects
  refine key _ _ fun k _ => ?_
  rw [if_neg]
  intro e
  rcases Option.eq_none_or_eq_some s.cfg.banks[k]? with hb | ⟨b, hb⟩
  · rw [hb] at e
    cases e
  · rw [hb] at e
    exact h b (List.mem_of_getElem? hb) (by simpa using e)

/-- The engine's frame: Mathbox RAM, the two events, one draw (42_register_glue R162). -/
theorem State.mathboxStart_eq (s : State) : s.mathboxStart =
    { s with mbxRam := Cells.ofFn mbxRamWords (Config.engineWord s.draws s.mbxRam s.cfg.mbxRom),
             draws := s.draws + 1, ev := s.ev ++ [.mbxStart, .mbxDone] } := by
  simp [State.mathboxStart, State.runEngine, State.countDraw, State.emit]

theorem State.mathboxStart_glueRel (s : State) : GlueRel s s.mathboxStart := by
  rw [State.mathboxStart_eq]
  have hwf := Cells.wf_ofFn (n := 16) mbxRamWords (Config.engineWord s.draws s.mbxRam s.cfg.mbxRom)
  generalize Cells.ofFn mbxRamWords (Config.engineWord s.draws s.mbxRam s.cfg.mbxRom) = ram at hwf ⊢
  exact ⟨rfl, ⟨_, rfl⟩, rfl, fun _ => hwf⟩

/-- Control register A: the level is latched, and a rise starts the engine (42_register_glue R161). -/
theorem State.ctrlAWrite_cases (d : Byte) (s : State) :
    (startLevelOf s.cfg d = true ∧ s.startLevel = false ∧
      s.ctrlAWrite d = State.mathboxStart { s with startLevel := true }) ∨
    (¬ (startLevelOf s.cfg d = true ∧ s.startLevel = false) ∧
      s.ctrlAWrite d = { s with startLevel := startLevelOf s.cfg d }) := by
  unfold State.ctrlAWrite
  by_cases h : startLevelOf s.cfg d = true ∧ s.startLevel = false
  · exact .inl ⟨h.1, h.2, by simp only [h, and_self, if_true]⟩
  · exact .inr ⟨h, by simp only [h, if_false]⟩

theorem State.ctrlAWrite_glueRel (d : Byte) (s : State) : GlueRel s (s.ctrlAWrite d) := by
  rcases State.ctrlAWrite_cases d s with ⟨-, -, e⟩ | ⟨-, e⟩ <;> rw [e]
  · exact GlueRel.trans (t := { s with startLevel := true }) ⟨rfl, ⟨[], by simp⟩, rfl, id⟩
      (State.mathboxStart_glueRel _)
  · exact ⟨rfl, ⟨[], by simp⟩, rfl, id⟩

theorem State.ctrlAWrite_fault (d : Byte) (s : State) : (s.ctrlAWrite d).fault = s.fault := by
  rcases State.ctrlAWrite_cases d s with ⟨-, -, e⟩ | ⟨-, e⟩ <;> rw [e]
  rw [State.mathboxStart_eq]

theorem State.ctrlAWrite_tables (d : Byte) (s : State) :
    (s.ctrlAWrite d).ptR = s.ptR ∧ (s.ctrlAWrite d).ptW = s.ptW := by
  rcases State.ctrlAWrite_cases d s with ⟨-, -, e⟩ | ⟨-, e⟩ <;> rw [e]
  · rw [State.mathboxStart_eq]
    exact ⟨rfl, rfl⟩
  · exact ⟨rfl, rfl⟩

/-- What follows the bank selects in GlueWrite: control register A, control register B, ALPHA_MAP. -/
def State.glueTail (a : Addr) (d : Byte) (s : State) : State :=
  let s := if a = s.cfg.ctrlAAddr then s.ctrlAWrite d else s
  let s := if a = s.cfg.ctrlBAddr then s.emit (.videoCtrl d) else s
  if s.cfg.alphaMapAddr = some a then s.emit (.alphaMap d) else s

theorem State.glueWrite_eq (a : Addr) (d : Byte) (s : State) :
    s.glueWrite a d = (s.bankSelects a d).andThen (State.glueTail a d) := rfl

theorem State.emit_glueRel (e : Event) (s : State) : GlueRel s (s.emit e) := ⟨rfl, ⟨_, rfl⟩, rfl, id⟩

theorem State.glueTail_glueRel (a : Addr) (d : Byte) (s : State) : GlueRel s (s.glueTail a d) := by
  unfold State.glueTail
  dsimp only
  have h1 : GlueRel s (if a = s.cfg.ctrlAAddr then s.ctrlAWrite d else s) := by
    split
    · exact State.ctrlAWrite_glueRel d s
    · exact GlueRel.refl s
  generalize (if a = s.cfg.ctrlAAddr then s.ctrlAWrite d else s) = t at h1 ⊢
  have h2 : GlueRel t (if a = t.cfg.ctrlBAddr then t.emit (.videoCtrl d) else t) := by
    split
    · exact State.emit_glueRel _ t
    · exact GlueRel.refl t
  generalize (if a = t.cfg.ctrlBAddr then t.emit (.videoCtrl d) else t) = u at h2 ⊢
  refine (h1.trans h2).trans ?_
  split
  · exact State.emit_glueRel _ u
  · exact GlueRel.refl u

theorem State.glueTail_fault (a : Addr) (d : Byte) (s : State) : (s.glueTail a d).fault = s.fault := by
  unfold State.glueTail
  dsimp only
  split <;> split <;> split <;> simp [State.ctrlAWrite_fault]

theorem State.glueTail_tables (a : Addr) (d : Byte) (s : State) :
    (s.glueTail a d).ptR = s.ptR ∧ (s.glueTail a d).ptW = s.ptW := by
  have h := State.ctrlAWrite_tables d s
  unfold State.glueTail
  dsimp only
  split <;> split <;> split <;> simp [h]

theorem State.glueTail_bank (a : Addr) (d : Byte) (s : State) : (s.glueTail a d).bank = s.bank := by
  have h : (s.ctrlAWrite d).bank = s.bank := by
    rcases State.ctrlAWrite_cases d s with ⟨-, -, e⟩ | ⟨-, e⟩ <;> rw [e]
    rw [State.mathboxStart_eq]
  unfold State.glueTail
  dsimp only
  split <;> split <;> split <;> simp [h]

/-- The frame of a glue write. -/
theorem State.glueWrite_glueRel (a : Addr) (d : Byte) (s : State) : GlueRel s (s.glueWrite a d) := by
  rw [State.glueWrite_eq]
  refine GlueRel.trans (State.bankSelects_glueRel a d s) ?_
  rcases State.andThen_cases (s.bankSelects a d) (State.glueTail a d) with ⟨-, e⟩ | ⟨-, e⟩ <;> rw [e]
  · exact State.glueTail_glueRel ..
  · exact GlueRel.refl _

/-- A glue write at an address of no bank-select register is what follows the bank selects. -/
theorem State.glueWrite_of_no_bank {s : State} {a : Addr} (hf : s.fault = none)
    (h : ∀ b ∈ s.cfg.banks, b.addr ≠ a) (d : Byte) : s.glueWrite a d = s.glueTail a d := by
  rw [State.glueWrite_eq, State.bankSelects_of_no_bank h, State.andThen_of_none hf]

/-- The states of a glue write under a well-formed configuration: nothing in flight lies in a window of the bank
selects at the address, so no map in it faults (00_scope R8 (c), (d)). -/
structure GlueReady (a : Addr) (c : Config) (s : State) : Prop where
  cfg : s.cfg = c
  tables : c.bankTablesOk = true
  clear : ∀ b ∈ c.banks, b.addr = a → ∀ e ∈ s.inflight, ¬ (b.winStart ≤ e.2 ∧ e.2 ≤ b.winEnd)
  banks : s.bank.length = c.banks.length

theorem GlueReady.of_rel {a : Addr} {c : Config} {s t : State} (h : GlueReady a c s) (r : GlueRel s t) :
    GlueReady a c t :=
  ⟨by rw [r.cfg, h.cfg], h.tables, by rw [r.inflight]; exact h.clear, by rw [r.banks, h.banks]⟩

theorem State.bankIndex_set {s : State} {k : Nat} (h : k < s.bank.length) (idx : Nat) (e : Event) :
    State.bankIndex (State.emit e { s with bank := s.bank.set k idx }) k = idx := by
  simp [State.bankIndex, h]

/-- One bank select where the configuration is well formed (42_register_glue R154, R155). -/
theorem State.bankSelectWrite_ok {a : Addr} {c : Config} {s : State} (hr : GlueReady a c s) (hf : s.fault = none)
    {k : Nat} {b : BankSelect} (hb : c.banks[k]? = some b) (ha : b.addr = a) (d : Byte) :
    (s.bankSelectWrite k d).fault = none ∧
      (s.bankSelectWrite k d).bank = s.bank.set k (bankDecode b d) ∧
      (s.bankSelectWrite k d).ev = s.ev ++ [.bankSel k (bankDecode b d)] ∧
      (∀ side p, (s.bankSelectWrite k d).descAt side p =
        if inRange b.winStart b.winEnd p then desc (sideOf side (bankTargets b (bankDecode b d))) b.winStart p
        else s.descAt side p) ∧
      s.bankSelectWrite k d = { s with ptR := (s.bankSelectWrite k d).ptR, ptW := (s.bankSelectWrite k d).ptW,
                                       bank := s.bank.set k (bankDecode b d),
                                       ev := s.ev ++ [.bankSel k (bankDecode b d)] } := by
  have hmem : b ∈ c.banks := List.mem_of_getElem? hb
  have hk : k < s.bank.length := by
    rw [hr.banks]
    exact (List.getElem?_eq_some_iff.mp hb).1
  have hb' : s.cfg.banks[k]? = some b := by rw [hr.cfg]; exact hb
  rw [State.bankSelectWrite_of_some hb']
  have hidx := State.bankIndex_set hk (bankDecode b d) (.bankSel k (bankDecode b d))
  have pass := bankTargets_pass hr.tables hmem (bankDecode b d)
  obtain ⟨hok, hdesc⟩ := State.applyBank_ok (k := k) (b := b)
    (s := State.emit (.bankSel k (bankDecode b d)) { s with bank := s.bank.set k (bankDecode b d) }) hf hb'
    (by rw [hidx]; simpa [hr.cfg] using pass.1) (by rw [hidx]; simpa [hr.cfg] using pass.2)
    (hr.clear b hmem ha)
  have fr := State.applyBank_tablesOnly k
    (State.emit (.bankSel k (bankDecode b d)) { s with bank := s.bank.set k (bankDecode b d) })
  refine ⟨hok, fr.bank, fr.ev, fun side p => ?_, ?_⟩
  · rw [hdesc, hidx]
    rfl
  · have hfr := fr
    unfold TablesOnly at hfr
    rw [hok] at hfr
    refine hfr.trans ?_
    simp [State.emit, hf]

/-- Control register A writes START_LEVEL, and with a rise of it Mathbox RAM, the draws and the trace
(42_register_glue R160, R161). -/
theorem State.ctrlAWrite_spec (d : Byte) (s : State) : (s.ctrlAWrite d).startLevel = startLevelOf s.cfg d ∧
    (s.ctrlAWrite d).ev = s.ev ++
      (if startLevelOf s.cfg d = true ∧ s.startLevel = false then [.mbxStart, .mbxDone] else []) ∧
    (¬ (startLevelOf s.cfg d = true ∧ s.startLevel = false) →
      (s.ctrlAWrite d).mbxRam = s.mbxRam ∧ (s.ctrlAWrite d).draws = s.draws) ∧
    s.ctrlAWrite d = { s with mbxRam := (s.ctrlAWrite d).mbxRam, draws := (s.ctrlAWrite d).draws,
                              ev := (s.ctrlAWrite d).ev, startLevel := (s.ctrlAWrite d).startLevel } := by
  rcases State.ctrlAWrite_cases d s with ⟨h1, h2, e⟩ | ⟨h, e⟩ <;> rw [e]
  · rw [State.mathboxStart_eq, if_pos ⟨h1, h2⟩]
    exact ⟨h1.symm, rfl, fun hn => absurd ⟨h1, h2⟩ hn, rfl⟩
  · rw [if_neg h]
    exact ⟨rfl, by simp, fun _ => ⟨rfl, rfl⟩, rfl⟩

/-- What follows the bank selects, all at once: the events, the level, and when Mathbox RAM stays
(42_register_glue R151, R161, R164, R165). -/
theorem State.glueTail_spec (a : Addr) (d : Byte) (s : State) :
    (s.glueTail a d).ev = s.ev ++
      (if a = s.cfg.ctrlAAddr ∧ startLevelOf s.cfg d = true ∧ s.startLevel = false then [.mbxStart, .mbxDone]
       else []) ++
      (if a = s.cfg.ctrlBAddr then [.videoCtrl d] else []) ++
      (if s.cfg.alphaMapAddr = some a then [.alphaMap d] else []) ∧
    (s.glueTail a d).startLevel = (if a = s.cfg.ctrlAAddr then startLevelOf s.cfg d else s.startLevel) ∧
    (¬ (a = s.cfg.ctrlAAddr ∧ startLevelOf s.cfg d = true ∧ s.startLevel = false) →
      (s.glueTail a d).mbxRam = s.mbxRam ∧ (s.glueTail a d).draws = s.draws) ∧
    s.glueTail a d = { s with mbxRam := (s.glueTail a d).mbxRam, draws := (s.glueTail a d).draws,
                              ev := (s.glueTail a d).ev, startLevel := (s.glueTail a d).startLevel } := by
  obtain ⟨v, hv, v1, v2, v3, v4⟩ : ∃ v : State, v = (if a = s.cfg.ctrlAAddr then s.ctrlAWrite d else s) ∧
      v.ev = s.ev ++ (if a = s.cfg.ctrlAAddr ∧ startLevelOf s.cfg d = true ∧ s.startLevel = false
        then [.mbxStart, .mbxDone] else []) ∧
      v.startLevel = (if a = s.cfg.ctrlAAddr then startLevelOf s.cfg d else s.startLevel) ∧
      (¬ (a = s.cfg.ctrlAAddr ∧ startLevelOf s.cfg d = true ∧ s.startLevel = false) →
        v.mbxRam = s.mbxRam ∧ v.draws = s.draws) ∧
      v = { s with mbxRam := v.mbxRam, draws := v.draws, ev := v.ev, startLevel := v.startLevel } := by
    refine ⟨_, rfl, ?_⟩
    obtain ⟨c1, c2, c3, c4⟩ := State.ctrlAWrite_spec d s
    by_cases h : a = s.cfg.ctrlAAddr
    · rw [if_pos h]
      exact ⟨by rw [c2]; simp [h], by simp [c1, h], fun hn => c3 fun c => hn ⟨h, c⟩, c4⟩
    · rw [if_neg h]
      exact ⟨by simp [h], by simp [h], fun _ => ⟨rfl, rfl⟩, rfl⟩
  have hvc : v.cfg = s.cfg := by rw [v4]
  obtain ⟨w, hw, hw'⟩ : ∃ w : State, w = (if a = v.cfg.ctrlBAddr then v.emit (.videoCtrl d) else v) ∧
      w = { v with ev := v.ev ++ (if a = s.cfg.ctrlBAddr then [.videoCtrl d] else []) } := by
    refine ⟨_, rfl, ?_⟩
    by_cases h : a = s.cfg.ctrlBAddr
    · rw [if_pos (hvc ▸ h), if_pos h]
      rfl
    · rw [if_neg (hvc ▸ h), if_neg h]
      simp
  have hwc : w.cfg = s.cfg := by rw [hw']; exact hvc
  have hu : s.glueTail a d =
      { w with ev := w.ev ++ (if s.cfg.alphaMapAddr = some a then [.alphaMap d] else []) } := by
    have : s.glueTail a d = if w.cfg.alphaMapAddr = some a then w.emit (.alphaMap d) else w := by
      rw [hw, hv]
      rfl
    rw [this]
    by_cases h : s.cfg.alphaMapAddr = some a
    · rw [if_pos (hwc ▸ h), if_pos h]
      rfl
    · rw [if_neg (hwc ▸ h), if_neg h]
      simp
  rw [hu]
  clear hw
  subst hw'
  exact ⟨by simp [v1], v2, v3, by rw [v4]⟩

end Sys2Proof.Machine
end

