-- ==== Sys2Proof/Laws/Access.lean ====
section
/-! SUPPORT. What the four commands can do: each as one equation where no fault is set, and inverted where it answers a
next state. -/

namespace Sys2Proof.Machine

theorem exec_read {s : State} (h : s.fault = none) (a : Addr) :
    exec (.read a) s = State.readTarget (s.descAt .R (pageOf a)) a { s with returned := none } :=
  State.command_of_none h _

theorem exec_write {s : State} (h : s.fault = none) (a : Addr) (d : Byte) :
    exec (.write a d) s = State.writeTarget (s.descAt .W (pageOf a)) a d { s with returned := none } :=
  State.command_of_none h _

theorem exec_mapr {s : State} (h : s.fault = none) (ps pe : Page) (t : Handle) :
    exec (.mapr ps pe t) s = .next (State.mapHandle .R ps pe t { s with returned := none }) := by
  unfold exec execMapr
  exact State.command_of_none h _

theorem exec_mapw {s : State} (h : s.fault = none) (ps pe : Page) (t : Handle) :
    exec (.mapw ps pe t) s = .next (State.mapHandle .W ps pe t { s with returned := none }) := by
  unfold exec execMapw
  exact State.command_of_none h _

/-- While FAULT is set no command has a step (10_state R35). -/
theorem exec_of_fault {s : State} {f : ModelFault} (h : s.fault = some f) (i : Instr) :
    exec i s = .fault (.stopped f) := by
  cases i <;> simp only [exec, execRead, execWrite, execMapr, execMapw] <;> exact State.command_of_some h _

theorem exec_next_fault {s u : State} {i : Instr} (h : exec i s = .next u) : s.fault = none := by
  rcases Option.eq_none_or_eq_some s.fault with hf | ⟨f, hf⟩
  · exact hf
  · rw [exec_of_fault hf] at h
    cases h

/-- No command is refused. -/
theorem exec_ne_refused (i : Instr) (s : State) (r : Refusal) : exec i s ≠ .refused r := by
  rcases Option.eq_none_or_eq_some s.fault with hf | ⟨f, hf⟩
  · cases i with
    | read a =>
      rw [exec_read hf]
      unfold State.readTarget
      split <;> (try split) <;> exact fun h => by cases h
    | write a d =>
      rw [exec_write hf]
      unfold State.writeTarget
      split <;> (try split) <;> exact fun h => by cases h
    | mapr ps pe t =>
      rw [exec_mapr hf]
      exact fun h => by cases h
    | mapw ps pe t =>
      rw [exec_mapw hf]
      exact fun h => by cases h
  · rw [exec_of_fault hf]
    exact fun h => by cases h

theorem State.handlerRead_eq (h : Nat) (a : Addr) (s : State) : s.handlerRead h a =
    { s with returned := some (Config.handlerByte s.draws), draws := s.draws + 1,
             ev := s.ev ++ [.hRd h a (Config.handlerByte s.draws)] } := rfl

theorem State.handlerWrite_eq (h : Nat) (a : Addr) (v : Byte) (s : State) : s.handlerWrite h a v =
    { s with ev := s.ev ++ [.hWr h a v] } := rfl

/-- The ways a READ answers a next state. -/
theorem read_cases {s u : State} {a : Addr} (h : exec (.read a) s = .next u) : s.fault = none ∧
    ((s.descAt .R (pageOf a) = .discard ∧ u = { s with returned := some 0x00 }) ∨
     (∃ buf off, s.descAt .R (pageOf a) = .buffer buf off ∧ s.bufHas buf (off + a.toNat % 256) = true ∧
        u = { s with returned := some (s.bufRead buf (off + a.toNat % 256)) }) ∨
     (∃ woff, s.descAt .R (pageOf a) = .mbx woff ∧
        u = { s with returned := some (laneGet mbxEvenHigh (laneOf a) (s.mbxRead (windowWord woff a))) }) ∨
     (∃ id, s.descAt .R (pageOf a) = .handler (.platform id) ∧
        u = { s with returned := some (Config.handlerByte s.draws), draws := s.draws + 1,
                     ev := s.ev ++ [.hRd id a (Config.handlerByte s.draws)] })) := by
  have hf := exec_next_fault h
  refine ⟨hf, ?_⟩
  rw [exec_read hf] at h
  cases hd : s.descAt .R (pageOf a) with
  | discard =>
    rw [hd] at h
    cases h
    exact .inl ⟨rfl, rfl⟩
  | buffer buf off =>
    rw [hd] at h
    simp only [State.readTarget, offOf_toNat] at h
    split at h
    · next hb =>
      cases h
      exact .inr (.inl ⟨buf, off, rfl, hb, rfl⟩)
    · cases h
  | mbx woff =>
    rw [hd] at h
    cases h
    exact .inr (.inr (.inl ⟨woff, rfl, rfl⟩))
  | handler hid =>
    cases hid with
    | glue => rw [hd] at h; cases h
    | platform id =>
      rw [hd] at h
      cases h
      exact .inr (.inr (.inr ⟨id, rfl, rfl⟩))

/-- The ways a WRITE answers a next state. -/
theorem write_cases {s u : State} {a : Addr} {d : Byte} (h : exec (.write a d) s = .next u) : s.fault = none ∧
    ((s.descAt .W (pageOf a) = .discard ∧ u = { s with returned := none }) ∨
     (∃ buf off, s.descAt .W (pageOf a) = .buffer buf off ∧ s.bufHas buf (off + a.toNat % 256) = true ∧
        u = State.bufWrite buf (off + a.toNat % 256) d { s with returned := none }) ∨
     (∃ woff, s.descAt .W (pageOf a) = .mbx woff ∧
        u = State.mbxWrite (windowWord woff a)
          (laneSet mbxEvenHigh (laneOf a) (s.mbxRead (windowWord woff a)) d) { s with returned := none }) ∨
     (∃ id, s.descAt .W (pageOf a) = .handler (.platform id) ∧
        u = { s with returned := none, ev := s.ev ++ [.hWr id a d] }) ∨
     (s.descAt .W (pageOf a) = .handler .glue ∧ u = State.glueAccess a d { s with returned := none })) := by
  have hf := exec_next_fault h
  refine ⟨hf, ?_⟩
  rw [exec_write hf] at h
  cases hd : s.descAt .W (pageOf a) with
  | discard =>
    rw [hd] at h
    cases h
    exact .inl ⟨rfl, rfl⟩
  | buffer buf off =>
    rw [hd] at h
    simp only [State.writeTarget, offOf_toNat] at h
    split at h
    · next hb =>
      cases h
      exact .inr (.inl ⟨buf, off, rfl, hb, rfl⟩)
    · cases h
  | mbx woff =>
    rw [hd] at h
    cases h
    exact .inr (.inr (.inl ⟨woff, rfl, rfl⟩))
  | handler hid =>
    cases hid with
    | glue =>
      rw [hd] at h
      cases h
      exact .inr (.inr (.inr (.inr ⟨rfl, rfl⟩)))
    | platform id =>
      rw [hd] at h
      cases h
      exact .inr (.inr (.inr (.inl ⟨id, rfl, rfl⟩)))

/-- A WRITE through the glue: the glue write with the access in flight, popped unless it faulted. -/
theorem glueAccess_cases (a : Addr) (d : Byte) (s : State) :
    ((State.glueWrite a d (s.push .W (pageOf a))).fault = none ∧
      s.glueAccess a d = (State.glueWrite a d (s.push .W (pageOf a))).pop) ∨
    ((State.glueWrite a d (s.push .W (pageOf a))).fault ≠ none ∧
      s.glueAccess a d = State.glueWrite a d (s.push .W (pageOf a))) := by
  unfold State.glueAccess
  exact State.andThen_cases _ _

/-- A WRITE through the glue at an address of no bank-select register. -/
theorem glueAccess_of_no_bank {s : State} {a : Addr} (hf : s.fault = none) (h : ∀ b ∈ s.cfg.banks, b.addr ≠ a)
    (d : Byte) : s.glueAccess a d = State.pop (State.glueTail a d (s.push .W (pageOf a))) := by
  unfold State.glueAccess
  rw [State.glueWrite_of_no_bank (s := s.push .W (pageOf a)) (by simpa using hf) (by simpa using h)]
  exact State.andThen_of_none (by rw [State.glueTail_fault]; simpa using hf) _

/-- A WRITE routed to the glue at an address of no bank-select register. -/
theorem exec_write_glue_of_no_bank {s : State} {a : Addr} (hf : s.fault = none)
    (hg : s.descAt .W (pageOf a) = .handler .glue) (h : ∀ b ∈ s.cfg.banks, b.addr ≠ a) (d : Byte) :
    exec (.write a d) s =
      .next (State.pop (State.glueTail a d (State.push .W (pageOf a) { s with returned := none }))) := by
  rw [exec_write hf, hg]
  have := glueAccess_of_no_bank (s := { s with returned := none }) (a := a) hf h d
  simp only [State.writeTarget, this]

end Sys2Proof.Machine
end

