-- ==== Sys2Proof/Laws/Inv.lean ====
section
/-! SUPPORT. The invariant taken apart, and what it gives: descriptors page by page, bytes that exist, a glue write that
cannot fault. -/

namespace Sys2Proof.Machine

theorem State.inv_iff (s : State) : s.inv = true ↔
    s.cfg.wellFormed = true ∧ Memory.wf s = true ∧ s.bank.length = s.cfg.banks.length ∧ s.tablesOk = true ∧
      s.quiet = true ∧ s.savedOk = true := by
  unfold State.inv
  simp only [Bool.and_eq_true, decide_eq_true_eq, and_assoc]

theorem table_all (t : PageTable) (q : PageDesc → Bool) :
    t.toList.all q = true ↔ ∀ p, q (tableAt t p) = true := by
  rw [List.all_eq_true]
  constructor
  · intro h p
    apply h
    unfold tableAt
    simp
  · intro h d hd
    obtain ⟨i, hi, rfl⟩ := List.mem_iff_getElem.mp hd
    have hlen : i < 256 := by simpa using hi
    have := h (BitVec.ofNat 8 i)
    unfold tableAt at this
    simpa [Nat.mod_eq_of_lt hlen] using this

theorem State.tablesOk_iff (s : State) : s.tablesOk = true ↔
    (∀ p, readDescOk s.cfg (s.descAt .R p) = true) ∧ ∀ p, writeDescOk s.cfg (s.descAt .W p) = true := by
  unfold State.tablesOk
  rw [Bool.and_eq_true, table_all, table_all]
  rfl

theorem State.quiet_iff (s : State) : s.quiet = true ↔ (s.fault = none → s.inflight = []) := by
  unfold State.quiet
  cases s.fault <;> simp

theorem Config.wellFormed_iff (c : Config) : c.wellFormed = true ↔
    c.targetZeroOk = true ∧ c.windowsOk = true ∧ c.glueOutsideWindows = true ∧ c.bankTablesOk = true ∧
      c.bootMapOk = true ∧ c.parametersOk = true ∧ c.initOk = true := by
  unfold Config.wellFormed
  simp only [Bool.and_eq_true, and_assoc]

theorem bufsWf_length {bs : List BufferInfo} {ms : List (List Host.Cell)} (h : bufsWf bs ms = true) :
    ms.length = bs.length := by
  induction bs generalizing ms with
  | nil => cases ms <;> simp_all [bufsWf]
  | cons b bs ih =>
    cases ms with
    | nil => simp [bufsWf] at h
    | cons m ms =>
      simp only [bufsWf, Bool.and_eq_true] at h
      simp [ih h.2]

/-- A write inside a buffer keeps every buffer canonical. -/
theorem bufsWf_modify {bs : List BufferInfo} {ms : List (List Host.Cell)} (h : bufsWf bs ms = true) {b i : Nat}
    {info : BufferInfo} (hb : bs[b]? = some info) (hi : i < info.len) (v : Byte) :
    bufsWf bs (ms.modify b fun m => Cells.write (n := 8) m i v) = true := by
  induction bs generalizing ms b with
  | nil => simp at hb
  | cons x bs ih =>
    cases ms with
    | nil => simp [bufsWf] at h
    | cons m ms =>
      simp only [bufsWf, Bool.and_eq_true] at h
      cases b with
      | zero =>
        obtain rfl : x = info := by simpa using hb
        simp only [List.modify_zero_cons, bufsWf, Bool.and_eq_true]
        exact ⟨Cells.wf_write h.1 hi v, h.2⟩
      | succ b =>
        simp only [List.modify_succ_cons, bufsWf, Bool.and_eq_true]
        exact ⟨h.1, ih h.2 (by simpa using hb)⟩

/-- The reset contents of well-formed buffers are canonical. -/
theorem bufsWf_init {bs : List BufferInfo} (h : ∀ b ∈ bs, Cells.wf (n := 8) b.len b.init = true) :
    bufsWf bs (bs.map BufferInfo.init) = true := by
  induction bs with
  | nil => rfl
  | cons b bs ih =>
    simp only [List.map_cons, bufsWf, Bool.and_eq_true]
    exact ⟨h b (by simp), ih fun x hx => h x (by simp [hx])⟩

theorem Memory.wf_iff (s : State) : Memory.wf s = true ↔
    bufsWf s.cfg.buffers s.bufs = true ∧ Cells.wf (n := 16) mbxRamWords s.mbxRam = true := by
  unfold Memory.wf
  rw [Bool.and_eq_true]

/-- A write of a byte of a buffer keeps the canonical form of memory. -/
theorem Memory.wf_bufWrite {s : State} (h : Memory.wf s = true) {b i : Nat} (hb : s.bufHas b i = true) (v : Byte) :
    Memory.wf (s.bufWrite b i v) = true := by
  rw [Memory.wf_iff] at h ⊢
  obtain ⟨info, hc, hi, -⟩ := (State.bufHas_iff ..).mp hb
  exact ⟨bufsWf_modify h.1 hc hi v, h.2⟩

/-- A write of a word of Mathbox Memory keeps the canonical form of memory. -/
theorem Memory.wf_mbxWrite {s : State} (h : Memory.wf s = true) (w : WordIndex) (v : Word) :
    Memory.wf (s.mbxWrite w v) = true := by
  rw [Memory.wf_iff] at h ⊢
  refine ⟨by simpa using h.1, ?_⟩
  unfold State.mbxWrite
  split
  · next hw => exact Cells.wf_write h.2 hw v
  · exact h.2

/-- The memory of a reset state is canonical. -/
theorem Memory.wf_resetWith {c : Config} (h : c.wellFormed = true) (n : Nat) :
    Memory.wf (State.resetWith c n) = true := by
  rw [Memory.wf_iff]
  obtain ⟨-, -, -, -, -, -, hi⟩ := (Config.wellFormed_iff c).mp h
  rw [State.resetWith_cfg, State.resetWith_bufs, State.resetWith_mbxRam]
  refine ⟨bufsWf_init ?_, Cells.wf_ofFn mbxRamWords (Config.resetWord n)⟩
  simpa [Config.initOk, List.all_eq_true] using hi

/-- Through a good read descriptor the addressed byte exists. -/
theorem bufHas_of_readDesc {s : State} (hm : Memory.wf s = true) {buf off : Nat}
    (hd : readDescOk s.cfg (.buffer buf off) = true) (a : Addr) : s.bufHas buf (off + a.toNat % 256) = true := by
  rw [State.bufHas_iff]
  unfold readDescOk at hd
  cases hb : s.cfg.buffers[buf]? with
  | none => simp [hb] at hd
  | some info =>
    simp only [hb, decide_eq_true_eq] at hd
    refine ⟨info, rfl, by omega, ?_⟩
    rw [bufsWf_length ((Memory.wf_iff s).mp hm).1]
    exact (List.getElem?_eq_some_iff.mp hb).1

/-- Through a good write descriptor the addressed byte exists. -/
theorem bufHas_of_writeDesc {s : State} (hm : Memory.wf s = true) {buf off : Nat}
    (hd : writeDescOk s.cfg (.buffer buf off) = true) (a : Addr) : s.bufHas buf (off + a.toNat % 256) = true := by
  apply bufHas_of_readDesc hm
  unfold writeDescOk at hd
  unfold readDescOk
  cases hb : s.cfg.buffers[buf]? with
  | none => simp [hb] at hd
  | some info =>
    simp only [hb, Bool.and_eq_true] at hd
    simpa only [hb] using hd.1

/-- No page of a window holds a glue register (00_scope R8 (c)). -/
theorem window_clear {c : Config} (h : c.glueOutsideWindows = true) {a : Addr} (ha : a ∈ glueAddrs c)
    {b : BankSelect} (hb : b ∈ c.banks) : ¬ (b.winStart ≤ pageOf a ∧ pageOf a ≤ b.winEnd) := by
  simp only [Config.glueOutsideWindows, List.all_eq_true, Bool.not_eq_true'] at h
  have := h a ha b hb
  intro hr
  rw [(inRange_iff ..).mpr hr] at this
  cases this

theorem bank_addr_mem {c : Config} {b : BankSelect} (hb : b ∈ c.banks) : b.addr ∈ glueAddrs c := by
  simp only [glueAddrs, List.mem_append, List.mem_map]
  exact .inl (.inl ⟨b, hb, rfl⟩)

/-- Under the invariant a glue write starts in a ready state (00_scope R8, 60_exceptions R203). -/
theorem glueReady_of_inv {s : State} (h : s.inv = true) (hf : s.fault = none) (a : Addr) :
    GlueReady a s.cfg (State.push .W (pageOf a) { s with returned := none }) := by
  obtain ⟨hc, -, hl, -, hq, -⟩ := (State.inv_iff s).mp h
  obtain ⟨-, -, hout, htab, -⟩ := (Config.wellFormed_iff _).mp hc
  refine ⟨rfl, htab, fun b hb ha e he => ?_, hl⟩
  have hin := (State.quiet_iff s).mp hq hf
  simp only [State.push_inflight, hin, List.mem_singleton] at he
  subst he
  exact window_clear hout (ha ▸ bank_addr_mem hb) hb

/-- Under a well-formed configuration the bank selects do not fault. -/
theorem State.bankSelects_ok {a : Addr} {c : Config} {s : State} (hr : GlueReady a c s) (hf : s.fault = none)
    (d : Byte) : GlueReady a c (s.bankSelects a d) ∧ (s.bankSelects a d).fault = none := by
  unfold State.bankSelects
  refine State.forEach_ok (P := GlueReady a c) (fun k _ t ht htf => ?_) hr hf
  rcases Option.eq_none_or_eq_some c.banks[k]? with hb | ⟨b, hb⟩
  · rw [if_neg (by rw [ht.cfg, hb]; simp)]
    exact ⟨ht, htf⟩
  · rw [ht.cfg, hb]
    by_cases ha : b.addr = a
    · rw [if_pos (by simp [ha])]
      exact ⟨ht.of_rel (State.bankSelectWrite_glueRel k d t), (State.bankSelectWrite_ok ht htf hb ha d).1⟩
    · rw [if_neg (by simpa using ha)]
      exact ⟨ht, htf⟩

/-- Under a well-formed configuration a glue write does not fault (60_exceptions R203). -/
theorem State.glueWrite_ok {a : Addr} {c : Config} {s : State} (hr : GlueReady a c s) (hf : s.fault = none)
    (d : Byte) : (s.glueWrite a d).fault = none := by
  rw [State.glueWrite_eq, State.andThen_of_none (State.bankSelects_ok hr hf d).2, State.glueTail_fault]
  exact (State.bankSelects_ok hr hf d).2

end Sys2Proof.Machine
end

