-- ==== Sys2Proof/Laws/PerInstr.lean ====
section
/-! SUPPORT. One lemma for each command about its word: the OP field of 30_encoding R71 and the reserved bits of R72 and
R73. -/

namespace Sys2Proof.Laws.OpField

/-- The word of the command carries the command's OP, and its reserved bits, if it has any, are zero. -/
def Statement (i : Instr) : Prop :=
  match i with
  | .read _ => opField (encode i) = 0#2 ∧ reservedR (encode i) = 0#14
  | .write _ _ => opField (encode i) = 1#2 ∧ reservedW (encode i) = 0#6
  | .mapr _ _ _ => opField (encode i) = 2#2
  | .mapw _ _ _ => opField (encode i) = 3#2

/-- The field at bit lo of a word made of two parts is the high part, where it starts there. -/
theorem high_field {m n : Nat} (x : BitVec m) (y : BitVec n) : (x ++ y).extractLsb' n m = x := by
  apply BitVec.eq_of_getLsbD_eq
  intro i hi
  simp [BitVec.getLsbD_append, hi]

/-- A field that ends below the high part of a word made of two parts is a field of the low part. -/
theorem low_field {m n lo k : Nat} (h : lo + k ≤ n) (x : BitVec m) (y : BitVec n) :
    (x ++ y).extractLsb' lo k = y.extractLsb' lo k := by
  apply BitVec.eq_of_getLsbD_eq
  intro i hi
  have : lo + i < n := by omega
  simp [BitVec.getLsbD_append, hi, this]

theorem read (a : Addr) : Statement (.read a) :=
  ⟨high_field 0#2 (0#14 ++ a), (low_field (by omega) 0#2 (0#14 ++ a)).trans (high_field 0#14 a)⟩

theorem write (a : Addr) (d : Byte) : Statement (.write a d) :=
  ⟨high_field 1#2 (0#6 ++ (d ++ a)), (low_field (by omega) 1#2 (0#6 ++ (d ++ a))).trans (high_field 0#6 (d ++ a))⟩

theorem mapr (s e : Page) (t : Handle) : Statement (.mapr s e t) := high_field 2#2 (t ++ (e ++ s))

theorem mapw (s e : Page) (t : Handle) : Statement (.mapw s e t) := high_field 3#2 (t ++ (e ++ s))

end Sys2Proof.Laws.OpField
end

