-- ==== Sys2Proof/Laws/Platform.lean ====
section
/-! SUPPORT. What boot can do: its frame, and the table each of its three steps leaves under a well-formed
configuration. -/

namespace Sys2Proof.Machine

/-- The frame of the rest of a procedure whose two parts write only the page table and FAULT. -/
theorem TablesOnly.andThen {s : State} {rest : State → State} (h : ∀ t, TablesOnly t (rest t)) :
    TablesOnly s (s.andThen rest) := by
  rcases State.andThen_cases s rest with ⟨-, e⟩ | ⟨-, e⟩ <;> rw [e]
  · exact h s
  · exact TablesOnly.refl s

theorem State.bootCommand_of_some {e : BootEntry} {t : TargetSpec} {s : State}
    (h : bootTargetOf s.cfg e.target = some t) : s.bootCommand e = s.mapSide e.side e.pageStart e.pageEnd t := by
  unfold State.bootCommand
  cases he : e.target with
  | handle k =>
    rw [he] at h
    exact State.mapHandle_of_some h
  | spec k =>
    rw [he] at h
    cases h
    rfl

/-- An entry of BOOT_MAP whose handle is not assigned faults (40_mapping R101, R102). -/
theorem State.bootCommand_of_none {e : BootEntry} {s : State} (h : bootTargetOf s.cfg e.target = none) :
    (s.bootCommand e).fault ≠ none := by
  unfold State.bootCommand
  cases he : e.target with
  | handle k =>
    rw [he] at h
    show (s.mapHandle e.side e.pageStart e.pageEnd k).fault ≠ none
    rw [State.mapHandle_of_none h]
    nofun
  | spec k =>
    rw [he] at h
    cases h

/-- The frame of an entry of BOOT_MAP. -/
theorem State.bootCommand_tablesOnly (e : BootEntry) (s : State) : TablesOnly s (s.bootCommand e) := by
  unfold State.bootCommand
  cases e.target with
  | handle t => exact State.mapHandle_tablesOnly ..
  | spec t => exact State.mapSide_tablesOnly ..

theorem State.bootPlatform_tablesOnly (s : State) : TablesOnly s s.bootPlatform :=
  State.forEach_rel (R := TablesOnly) TablesOnly.refl (fun _ _ _ => TablesOnly.trans)
    (fun e _ t => State.bootCommand_tablesOnly e t) s

theorem State.bootGlue_tablesOnly (s : State) : TablesOnly s s.bootGlue :=
  State.forEach_rel (R := TablesOnly) TablesOnly.refl (fun _ _ _ => TablesOnly.trans)
    (fun g _ t => State.mapSide_tablesOnly .W g g (.handler .glue) t) s

theorem State.bootWindows_tablesOnly (s : State) : TablesOnly s s.bootWindows :=
  State.forEach_rel (R := TablesOnly) TablesOnly.refl (fun _ _ _ => TablesOnly.trans)
    (fun k _ t => State.applyBank_tablesOnly k t) s

/-- The frame of boot: the page table and FAULT (70_reset_and_hazards R232). -/
theorem State.bootSteps_tablesOnly (s : State) : TablesOnly s s.bootSteps := by
  unfold State.bootSteps
  exact (s.bootPlatform_tablesOnly.trans (TablesOnly.andThen State.bootGlue_tablesOnly)).trans
    (TablesOnly.andThen State.bootWindows_tablesOnly)

/-- The states boot goes through: one configuration, nothing in flight, one list of bank indices. -/
def BootReady (c : Config) (bank : List Nat) (s : State) : Prop := s.cfg = c ∧ s.inflight = [] ∧ s.bank = bank

theorem BootReady.of_tablesOnly {c : Config} {bank : List Nat} {s t : State} (h : BootReady c bank s)
    (r : TablesOnly s t) : BootReady c bank t :=
  ⟨r.cfg.trans h.1, r.inflight.trans h.2.1, r.bank.trans h.2.2⟩

/-- Boot step 1 under a well-formed configuration (70_reset_and_hazards R232, R233). -/
theorem State.bootPlatform_ok {c : Config} {bank : List Nat} {s : State} (hb : c.bootMapOk = true)
    (hr : BootReady c bank s) (hf : s.fault = none) : s.bootPlatform.fault = none ∧
      ∀ side p, s.descAt side p = .discard → s.bootPlatform.descAt side p = canonicalBoot c side p := by
  have body : ∀ e ∈ s.cfg.bootMap, ∀ t : State, BootReady c bank t → t.fault = none →
      BootReady c bank (t.bootCommand e) ∧
        (t.bootCommand e).fault = none ∧
        ∀ side p, (t.bootCommand e).descAt side p =
          if e.side = side ∧ inRange e.pageStart e.pageEnd p then
            match bootTargetOf c e.target with
            | some u => desc u e.pageStart p
            | none => t.descAt side p
          else t.descAt side p := by
    intro e he t ht htf
    have hok := hb
    simp only [Config.bootMapOk, List.all_eq_true] at hok
    have hok := hok e (hr.1 ▸ he)
    unfold Config.bootEntryOk at hok
    refine ⟨ht.of_tablesOnly (State.bootCommand_tablesOnly ..), ?_⟩
    cases hu : bootTargetOf c e.target with
    | none => simp [hu] at hok
    | some u =>
      simp only [hu, Bool.or_eq_true, decide_eq_true_eq, Option.isNone_iff_eq_none] at hok
      rw [State.bootCommand_of_some (by rw [ht.1]; exact hu)]
      have h1 : (t.mapSide e.side e.pageStart e.pageEnd u).fault = none := by
        refine State.mapSide_ok htf (fun hle => ?_) (by simp [ht.2.1])
        rw [ht.1]
        rcases hok with h | h
        · rw [BitVec.le_def] at hle
          rw [BitVec.lt_def] at h
          omega
        · exact h
      refine ⟨h1, fun side p => ?_⟩
      rw [State.descAt_mapSide h1]
      by_cases hs : e.side = side
      · simp [hs]
      · simp [hs, Ne.symm hs]
  unfold State.bootPlatform
  refine ⟨(State.forEach_ok (P := BootReady c bank) (fun e he t ht htf => ⟨(body e he t ht htf).1,
    (body e he t ht htf).2.1⟩) hr hf).2, fun side p hd => ?_⟩
  have := State.forEach_view (P := BootReady c bank) (fun t => t.descAt side p)
    (g := fun d e => if e.side = side ∧ inRange e.pageStart e.pageEnd p then
        match bootTargetOf c e.target with
        | some u => desc u e.pageStart p
        | none => d
      else d)
    (fun e he t ht htf => ⟨(body e he t ht htf).1, (body e he t ht htf).2.1, (body e he t ht htf).2.2 side p⟩) hr hf
  rw [this, hd, hr.1]
  rfl

/-- A BOOT_MAP that completes is a good one: the check entry by entry asks for no more than that
(00_scope R8 (d), log 18). -/
theorem State.bootMapOk_of_bootPlatform {c : Config} {bank : List Nat} {s : State} (hr : BootReady c bank s)
    (hf : s.fault = none) (h : s.bootPlatform.fault = none) : c.bootMapOk = true := by
  unfold Config.bootMapOk
  rw [List.all_eq_true, ← hr.1]
  refine State.forEach_needs (P := BootReady c bank)
    (fun e _ t ht => ht.of_tablesOnly (State.bootCommand_tablesOnly ..)) (fun e _ t ht htf hok => ?_) hr hf h
  rw [hr.1]
  unfold Config.bootEntryOk
  cases hu : bootTargetOf c e.target with
  | none => exact absurd hok (State.bootCommand_of_none (by rw [ht.1]; exact hu))
  | some u =>
    rw [State.bootCommand_of_some (by rw [ht.1]; exact hu)] at hok
    rcases State.mapSide_cases e.side e.pageStart e.pageEnd u t with ⟨hlt, -⟩ | ⟨-, f, -, e2⟩ |
      ⟨-, hc, p, -, e2⟩ | ⟨-, hc, -⟩
    · simp [hlt]
    · rw [e2] at hok
      cases hok
    · rw [e2] at hok
      cases hok
    · rw [ht.1] at hc
      simp [hc]

/-- Boot from a reset state that completes went through BOOT_MAP without a fault. -/
theorem State.bootPlatform_of_boot {s : State} (h : s.boot.fault = none) : s.bootPlatform.fault = none := by
  have h1 : s.bootSteps.fault = none := by
    unfold State.boot at h
    dsimp only at h
    split at h <;> exact h
  unfold State.bootSteps at h1
  rcases State.andThen_cases (s.bootPlatform.andThen State.bootGlue) State.bootWindows with ⟨h2, -⟩ | ⟨h2, e⟩
  · rcases State.andThen_cases s.bootPlatform State.bootGlue with ⟨h3, -⟩ | ⟨h3, e⟩
    · exact h3
    · rwa [e] at h2
  · rw [e] at h1
    exact absurd h1 h2

/-- Boot step 2: it never faults where nothing is in flight (70_reset_and_hazards R232). -/
theorem State.bootGlue_ok {c : Config} {bank : List Nat} {s : State} (hr : BootReady c bank s) (hf : s.fault = none) :
    s.bootGlue.fault = none ∧ ∀ side p, s.bootGlue.descAt side p =
      if side = .W ∧ isGluePage c p then .handler .glue else s.descAt side p := by
  have body : ∀ (g : Page) (t : State), BootReady c bank t → t.fault = none →
      BootReady c bank (t.mapSide .W g g (.handler .glue)) ∧ (t.mapSide .W g g (.handler .glue)).fault = none ∧
        ∀ side p, (t.mapSide .W g g (.handler .glue)).descAt side p =
          if side = .W ∧ p = g then .handler .glue else t.descAt side p := by
    intro g t ht htf
    have h1 : (t.mapSide .W g g (.handler .glue)).fault = none :=
      State.mapSide_ok htf (fun _ => rfl) (by simp [ht.2.1])
    refine ⟨ht.of_tablesOnly (State.mapSide_tablesOnly ..), h1, fun side p => ?_⟩
    rw [State.descAt_mapSide h1]
    have : inRange g g p = true ↔ p = g := by
      rw [inRange_iff]
      exact ⟨fun h => BitVec.le_antisymm h.2 h.1, fun h => h ▸ ⟨BitVec.le_refl _, BitVec.le_refl _⟩⟩
    simp only [this]
    rfl
  unfold State.bootGlue
  refine ⟨(State.forEach_ok (P := BootReady c bank) (fun g _ t ht htf => ⟨(body g t ht htf).1, (body g t ht htf).2.1⟩)
    hr hf).2, fun side p => ?_⟩
  have := State.forEach_view (P := BootReady c bank) (fun t => t.descAt side p) (xs := gluePages s.cfg)
    (g := fun d g => if side = .W ∧ p = g then .handler .glue else d)
    (fun g _ t ht htf => ⟨(body g t ht htf).1, (body g t ht htf).2.1, (body g t ht htf).2.2 side p⟩) hr hf
  rw [this]
  have fold : ∀ (xs : List Page) (d : PageDesc),
      xs.foldl (fun d g => if side = .W ∧ p = g then PageDesc.handler .glue else d) d =
        if side = .W ∧ p ∈ xs then .handler .glue else d := by
    intro xs
    induction xs with
    | nil => simp
    | cons x xs ih =>
      intro d
      rw [List.foldl_cons, ih]
      by_cases h1 : side = .W <;> by_cases h2 : p = x <;> by_cases h3 : p ∈ xs <;> simp [h1, h2, h3]
  rw [fold]
  simp only [mem_gluePages, hr.1]

/-- Boot step 3 under a well-formed configuration (70_reset_and_hazards R232, R233). -/
theorem State.bootWindows_ok {c : Config} {bank : List Nat} {s : State} (hb : c.bankTablesOk = true)
    (hr : BootReady c bank s) (hf : s.fault = none) : s.bootWindows.fault = none ∧
      ∀ side p, s.bootWindows.descAt side p = (List.range c.banks.length).foldl
        (fun d k => match c.banks[k]? with
          | none => d
          | some b =>
            if inRange b.winStart b.winEnd p then desc (sideOf side (bankTargets b (bank.getD k 0))) b.winStart p
            else d) (s.descAt side p) := by
  have body : ∀ (k : Nat) (t : State), BootReady c bank t → t.fault = none →
      BootReady c bank (t.applyBank k) ∧ (t.applyBank k).fault = none ∧
        ∀ side p, (t.applyBank k).descAt side p = match c.banks[k]? with
          | none => t.descAt side p
          | some b =>
            if inRange b.winStart b.winEnd p then desc (sideOf side (bankTargets b (bank.getD k 0))) b.winStart p
            else t.descAt side p := by
    intro k t ht htf
    refine ⟨ht.of_tablesOnly (State.applyBank_tablesOnly ..), ?_⟩
    rcases Option.eq_none_or_eq_some c.banks[k]? with hk | ⟨b, hk⟩
    · rw [State.applyBank_of_none (by rw [ht.1]; exact hk), hk]
      exact ⟨htf, fun _ _ => rfl⟩
    · have pass := bankTargets_pass hb (List.mem_of_getElem? hk) (t.bankIndex k)
      have := State.applyBank_ok htf (by rw [ht.1]; exact hk) (by rw [ht.1]; exact pass.1)
        (by rw [ht.1]; exact pass.2) (by simp [ht.2.1])
      rw [hk]
      refine ⟨this.1, fun side p => ?_⟩
      rw [this.2]
      unfold State.bankIndex
      rw [ht.2.2]
  unfold State.bootWindows
  rw [hr.1]
  refine ⟨(State.forEach_ok (P := BootReady c bank) (fun k _ t ht htf => ⟨(body k t ht htf).1, (body k t ht htf).2.1⟩)
    hr hf).2, fun side p => ?_⟩
  exact State.forEach_view (P := BootReady c bank) (fun t => t.descAt side p)
    (fun k _ t ht htf => ⟨(body k t ht htf).1, (body k t ht htf).2.1, (body k t ht htf).2.2 side p⟩) hr hf

/-- Boot completes under a well-formed configuration where nothing is in flight (00_scope R8 (d)). -/
theorem State.boot_completes {s : State} (hc : s.cfg.wellFormed = true) (hi : s.inflight = []) (hf : s.fault = none) :
    s.boot.fault = none ∧ s.boot.phase = .run := by
  obtain ⟨-, -, -, ht, hb, -⟩ := (Config.wellFormed_iff _).mp hc
  have r0 : BootReady s.cfg s.bank s := ⟨rfl, hi, rfl⟩
  have h1 := (State.bootPlatform_ok hb r0 hf).1
  have r1 := r0.of_tablesOnly s.bootPlatform_tablesOnly
  have h2 := (State.bootGlue_ok r1 h1).1
  have h3 := (State.bootWindows_ok ht (r1.of_tablesOnly s.bootPlatform.bootGlue_tablesOnly) h2).1
  have h : s.bootSteps.fault = none := by
    unfold State.bootSteps
    rw [State.andThen_of_none h1, State.andThen_of_none h2, h3]
  unfold State.boot
  dsimp only
  rw [if_pos (by rw [h]; rfl)]
  exact ⟨h, rfl⟩

/-- The frame of boot as a step. -/
theorem State.boot_frame (s : State) : s.boot =
    { s with ptR := s.boot.ptR, ptW := s.boot.ptW, fault := s.boot.fault, phase := s.boot.phase } := by
  have h := s.bootSteps_tablesOnly
  unfold TablesOnly at h
  unfold State.boot
  dsimp only
  split <;> rw [h]

/-- The frame of a restore (70_reset_and_hazards R237). -/
theorem State.restore_frame (p : Snapshot) (s : State) : s.restore p =
    { s with mbxRam := p.mbx, bank := p.bank, startLevel := p.startLevel, ptR := (s.restore p).ptR,
             ptW := (s.restore p).ptW, fault := (s.restore p).fault, returned := none } :=
  State.bootSteps_tablesOnly { s with mbxRam := p.mbx, bank := p.bank, startLevel := p.startLevel, fault := none,
                                      ptR := allDiscard, ptW := allDiscard, returned := none }

end Sys2Proof.Machine
end

