-- ==== Sys2Proof/Laws/Step.lean ====
section
/-! SUPPORT. What a step can do: boot, idle, or the issue of one entry; and the frames of boot and of a restore. -/

namespace Sys2Proof.Machine

theorem State.bootsNext_iff (s : State) :
    s.bootsNext = true ↔ s.phase = .boot ∧ s.fault = none ∧ s.input[s.cursor]? ≠ some (.host .reset) := by
  unfold State.bootsNext
  exact decide_eq_true_iff

/-- A step where boot is pending, and the host does not reset, is boot (70_reset_and_hazards R232). -/
theorem step_of_boot {s : State} (hp : s.phase = .boot) (hf : s.fault = none)
    (hx : s.input[s.cursor]? ≠ some (.host .reset)) : step s = .next s.boot := by
  unfold step
  rw [if_pos (s.bootsNext_iff.mpr ⟨hp, hf, hx⟩)]

/-- A step where boot is not next takes the entry at the cursor. -/
theorem step_of_entry {s : State} {x : Input} (hb : s.bootsNext ≠ true) (hx : s.input[s.cursor]? = some x) :
    step s = s.issue x := by
  unfold step
  rw [if_neg hb, hx]

theorem isPageNumber_toNat (p : Page) : isPageNumber (p.toNat : Int) = true := by
  have := p.isLt
  unfold isPageNumber
  rw [Bool.and_eq_true, decide_eq_true_eq, decide_eq_true_eq]
  omega

/-- A map call with page numbers in range is MapSide of its target spec (30_encoding R78, 40_mapping R107). -/
theorem State.mapCall_of_pages (side : Side) (ps pe : Page) (t : TargetSpec) (s : State) :
    s.mapCall side ps.toNat pe.toNat t = s.mapSide side ps pe t := by
  unfold State.mapCall
  rw [isPageNumber_toNat, isPageNumber_toNat, BitVec.ofInt_natCast, BitVec.ofInt_natCast, BitVec.ofNat_toNat,
    BitVec.ofNat_toNat, BitVec.setWidth_eq, BitVec.setWidth_eq]
  rfl

/-- The ways a step answers a next state. -/
theorem step_cases {s u : State} (h : step s = .next u) :
    (s.bootsNext = true ∧ u = s.boot) ∨
    (s.input[s.cursor]? = none ∧ s.fault = none ∧ u = s) ∨
    ∃ x, s.bootsNext ≠ true ∧ s.input[s.cursor]? = some x ∧ s.issue x = .next u := by
  unfold step at h
  by_cases hb : s.bootsNext = true
  · rw [if_pos hb] at h
    cases h
    exact .inl ⟨hb, rfl⟩
  · rw [if_neg hb] at h
    cases hx : s.input[s.cursor]? with
    | none =>
      rw [hx] at h
      unfold State.idle at h
      cases hf : s.fault with
      | none =>
        rw [hf] at h
        cases h
        exact .inr (.inl ⟨rfl, rfl, rfl⟩)
      | some f =>
        rw [hf] at h
        cases h
    | some x =>
      rw [hx] at h
      exact .inr (.inr ⟨x, hb, rfl, h⟩)

/-- The position's move, on an outcome that is a next state. -/
theorem advanced_next {o : Host.Outcome State Fault Refusal} {u : State} (h : advanced o = .next u) :
    ∃ v, o = .next v ∧ u = v.advance := by
  cases o with
  | next v =>
    cases h
    exact ⟨v, rfl, rfl⟩
  | fault r => cases h
  | refused r => cases h

/-- The frame of the position's move. -/
theorem State.advance_eq (s : State) : s.advance = { s with pos := s.advance.pos } := by
  unfold State.advance
  split <;> rfl

end Sys2Proof.Machine
end

