-- ==== Sys2Proof/Machine/Assembler.lean ====
section
/-! DEFINITION. Assembler lines to commands (30_encoding R80, R81). A line is a list of characters (log 22). -/

namespace Sys2Proof.Machine

/-- The value of a decimal digit. -/
def decDigit (c : Char) : Option Nat :=
  if 48 ≤ c.toNat ∧ c.toNat ≤ 57 then some (c.toNat - 48) else none

/-- The value of a hex digit, either case. -/
def hexDigit (c : Char) : Option Nat :=
  if 65 ≤ c.toNat ∧ c.toNat ≤ 70 then some (c.toNat - 55)
  else if 97 ≤ c.toNat ∧ c.toNat ≤ 102 then some (c.toNat - 87)
  else decDigit c

/-- Digits in a base, after the value read so far. -/
def digitsFrom (digit : Char → Option Nat) (base : Nat) : Nat → List Char → Option Nat
  | acc, [] => some acc
  | acc, c :: cs =>
    match digit c with
    | none => none
    | some d => digitsFrom digit base (acc * base + d) cs

/-- A number in decimal, or in hex after 0x (30_encoding R80). -/
def asmNumber : List Char → Option Nat
  | [] => none
  | '0' :: 'x' :: c :: cs => digitsFrom hexDigit 16 0 (c :: cs)
  | c :: cs => digitsFrom decDigit 10 0 (c :: cs)

/-- The characters before and after the first c, where there is one. -/
def splitFirst (c : Char) : List Char → Option (List Char × List Char)
  | [] => none
  | x :: xs => if x = c then some ([], xs) else (splitFirst c xs).map fun r => (x :: r.1, r.2)

/-- Without the spaces at both ends. -/
def trimSpaces (cs : List Char) : List Char :=
  ((cs.dropWhile (· == ' ')).reverse.dropWhile (· == ' ')).reverse

/-- The comma-separated pieces of an operand list. -/
def commaPieces : List Char → List (List Char)
  | [] => [[]]
  | x :: xs =>
    match commaPieces xs with
    | [] => [[x]]
    | p :: ps => if x = ',' then [] :: p :: ps else (x :: p) :: ps

/-- The numbers of an operand list. -/
def asmOperands (cs : List Char) : Option (List Nat) :=
  (commaPieces cs).mapM fun p => asmNumber (trimSpaces p)

/-- An operand of a field of n bits; out of its range it is an assembly error (30_encoding R80). -/
def asmField (n v : Nat) : Option (BitVec n) := if v < 2 ^ n then some (BitVec.ofNat n v) else none

/-- A page range and a handle. -/
def asmMap (s e t : Nat) (f : Page → Page → Handle → List Instr) : Option (List Instr) :=
  match asmField 8 s, asmField 8 e, asmField 14 t with
  | some s, some e, some t => some (f s e t)
  | _, _, _ => none

/-- A page range. -/
def asmRange (s e : Nat) (f : Page → Page → List Instr) : Option (List Instr) :=
  match asmField 8 s, asmField 8 e with
  | some s, some e => some (f s e)
  | _, _ => none

/-- READ with its operand. -/
def asmRead (a : Nat) : Option (List Instr) := (asmField 16 a).map fun a => [.read a]

/-- WRITE with its operands. -/
def asmWrite (a d : Nat) : Option (List Instr) :=
  match asmField 16 a, asmField 8 d with
  | some a, some d => some [.write a d]
  | _, _ => none

/-- A line in mnemonic form: the commands of 30_encoding R80 and the pseudo-commands of R81. -/
def asmMnemonic (name : List Char) (ops : List Nat) : Option (List Instr) :=
  if name = ['R', 'E', 'A', 'D'] then
    match ops with
    | [a] => asmRead a
    | _ => none
  else if name = ['W', 'R', 'I', 'T', 'E'] then
    match ops with
    | [a, d] => asmWrite a d
    | _ => none
  else if name = ['M', 'A', 'P', 'R'] then
    match ops with
    | [s, e, t] => asmMap s e t fun s e t => [.mapr s e t]
    | _ => none
  else if name = ['M', 'A', 'P', 'W'] then
    match ops with
    | [s, e, t] => asmMap s e t fun s e t => [.mapw s e t]
    | _ => none
  else if name = ['M', 'A', 'P', 'R', 'W'] then
    match ops with
    | [s, e, t] => asmMap s e t fun s e t => (Pseudo.maprw s e t).expand
    | _ => none
  else if name = ['M', 'A', 'P', 'R', 'O', 'M'] then
    match ops with
    | [s, e, t] => asmMap s e t fun s e t => (Pseudo.maprom s e t).expand
    | _ => none
  else if name = ['U', 'N', 'M', 'A', 'P', 'R'] then
    match ops with
    | [s, e] => asmRange s e fun s e => (Pseudo.unmapr s e).expand
    | _ => none
  else if name = ['U', 'N', 'M', 'A', 'P', 'W'] then
    match ops with
    | [s, e] => asmRange s e fun s e => (Pseudo.unmapw s e).expand
    | _ => none
  else if name = ['U', 'N', 'M', 'A', 'P'] then
    match ops with
    | [s, e] => asmRange s e fun s e => (Pseudo.unmap s e).expand
    | _ => none
  else none

/-- A line in the source's call form, Read(a), Write(a, v), MapRead(s, e, t), MapWrite(s, e, t) (30_encoding R80). -/
def asmCallForm (name : List Char) (ops : List Nat) : Option (List Instr) :=
  if name = ['R', 'e', 'a', 'd'] then asmMnemonic ['R', 'E', 'A', 'D'] ops
  else if name = ['W', 'r', 'i', 't', 'e'] then asmMnemonic ['W', 'R', 'I', 'T', 'E'] ops
  else if name = ['M', 'a', 'p', 'R', 'e', 'a', 'd'] then asmMnemonic ['M', 'A', 'P', 'R'] ops
  else if name = ['M', 'a', 'p', 'W', 'r', 'i', 't', 'e'] then asmMnemonic ['M', 'A', 'P', 'W'] ops
  else none

/-- The commands of one line, or none for an assembly error (30_encoding R80). -/
def assembleLine (line : List Char) : Option (List Instr) :=
  let line := trimSpaces line
  match splitFirst '(' line with
  | some (name, rest) =>
    match splitFirst ')' rest with
    | some (ops, []) => (asmOperands ops).bind (asmCallForm (trimSpaces name))
    | _ => none
  | none =>
    match splitFirst ' ' line with
    | some (name, ops) => (asmOperands ops).bind (asmMnemonic name)
    | none => none

/-- The command words of a program, one command or pseudo-command a line (30_encoding R80, R81). -/
def assemble (lines : List (List Char)) : Option (List (BitVec 32)) :=
  (lines.mapM assembleLine).map fun p => p.flatten.map encode

end Sys2Proof.Machine
end

