-- ==== Sys2Proof/Tests/Slice0.lean ====
section
/-! SUPPORT. The model's own tests on the configuration EX of 95_test_vectors section 2: well-formedness smoke tests,
decoding of words written out from 30_encoding, vectors of one step, and a witness for each statement that has
hypotheses. -/

set_option Elab.async false

namespace Sys2Proof.Tests

open Machine

/-! ## The configuration EX and its states -/

/-- A decode vector from a function. -/
def decodeVector (f : Nat → Nat) : Vector Nat 256 := ⟨((List.range 256).map f).toArray, by simp⟩

/-- BS_TABLE[0] of EX: bank i is the Mathbox window at i * 0x800. -/
def exMathboxBanks : List (Nat × (TargetSpec × TargetSpec)) :=
  (List.range 16).map fun i => (i, (.mbx (i * 0x800), .mbx (i * 0x800)))

/-- Bank-select function 0 of EX. -/
def exBank0 : BankSelect where
  addr := 0x1800
  decode := decodeVector fun d => d % 16
  winStart := 0x20
  winEnd := 0x2F
  table := exMathboxBanks
  resetBank := 0

/-- Bank-select function 1 of EX. -/
def exBank1 : BankSelect where
  addr := 0x1801
  decode := decodeVector fun d => d % 8
  winStart := 0x40
  winEnd := 0x5F
  table := [(0, (.buffer 2 0, .discard)), (1, (.buffer 2 0x2000, .discard)), (2, (.buffer 3 0, .buffer 3 0)),
    (3, (.buffer 4 0, .buffer 4 0))]
  resetBank := 0

/-- EX (95_test_vectors section 2): buffers 0 RAM, 1 PROG, 2 BANKROM, 3 COM0, 4 COM1, handler 0 IO. Of PROG, BANKROM and
MBX_ROM only the cells the tests read are listed. -/
def ex : Config where
  buffers := [⟨0x800, true, []⟩, ⟨0x4000, false, [(0x142, 0x42), (0x3FFE, 0xFE), (0x3FFF, 0xFF)]⟩,
    ⟨0x4000, false, [(0x105, 0x01), (0x2000, 0x20), (0x3FFF, 0x3F)]⟩, ⟨0x2000, true, []⟩, ⟨0x2000, true, []⟩]
  handlers := [0]
  targets := [(1, .buffer 0 0), (2, .buffer 1 0), (3, .handler (.platform 0)), (4, .mbx 0x7F80), (5, .mbx 0x8000),
    (6, .handler .glue), (7, .mbx 0x7FC0), (8, .buffer 4 0x1000)]
  banks := [exBank0, exBank1]
  ctrlAAddr := 0x1810
  ctrlAStartMask := 0x01
  resetStartLevel := false
  ctrlBAddr := 0x1811
  alphaMapAddr := some 0x1812
  bootMap := [⟨.R, 0x00, 0x07, .handle 1⟩, ⟨.W, 0x00, 0x07, .handle 1⟩, ⟨.R, 0x08, 0x08, .handle 3⟩,
    ⟨.W, 0x08, 0x08, .handle 3⟩, ⟨.R, 0xC0, 0xFF, .handle 2⟩]
  mbxRom := [(0x207F, 0x207F), (0x2800, 0x2800), (0x7FFF, 0x7FFF)]

/-- A side of the page table from a function of the page number. -/
def tableOf (f : Nat → PageDesc) : PageTable := ⟨((List.range 256).map f).toArray, by simp⟩

/-- PT_R of C0 (95_test_vectors section 2.1). -/
def c0Read (p : Nat) : PageDesc :=
  if p ≤ 0x07 then .buffer 0 (p * 0x100)
  else if p = 0x08 then .handler (.platform 0)
  else if 0x20 ≤ p ∧ p ≤ 0x2F then .mbx (BitVec.ofNat 15 ((p - 0x20) * 0x80))
  else if 0x40 ≤ p ∧ p ≤ 0x5F then .buffer 2 ((p - 0x40) * 0x100)
  else if 0xC0 ≤ p then .buffer 1 ((p - 0xC0) * 0x100)
  else .discard

/-- PT_W of C0 (95_test_vectors section 2.1). -/
def c0Write (p : Nat) : PageDesc :=
  if p ≤ 0x07 then .buffer 0 (p * 0x100)
  else if p = 0x08 then .handler (.platform 0)
  else if p = 0x18 then .handler .glue
  else if 0x20 ≤ p ∧ p ≤ 0x2F then .mbx (BitVec.ofNat 15 ((p - 0x20) * 0x80))
  else .discard

/-- C0 of EX (95_test_vectors section 2.1), with every RAM word of Mathbox Memory zero. -/
def c0 : State where
  cfg := ex
  ptR := tableOf c0Read
  ptW := tableOf c0Write
  bufs := ex.buffers.map BufferInfo.init
  mbxRam := []
  bank := [0, 0]
  startLevel := false
  inflight := []
  fault := none
  ev := []
  phase := .run
  input := []
  pos := 0
  returned := none
  saved := none
  draws := 1

/-- The state of EX after reset, boot still to run. -/
def ex0 : State := { c0 with ptR := allDiscard, ptW := allDiscard, phase := .boot }

/-- The next state of an outcome; of another outcome a state no test accepts. -/
def after : Host.Outcome State Fault Refusal → State
  | .next s => s
  | .fault _ => { ex0 with pos := 999 }
  | .refused _ => { ex0 with pos := 999 }

/-- The outcome is a next state. -/
def isNext : Host.Outcome State Fault Refusal → Bool
  | .next _ => true
  | .fault _ => false
  | .refused _ => false

theorem next_after {o : Host.Outcome State Fault Refusal} (h : isNext o = true) : o = .next (after o) := by
  cases o with
  | next s => rfl
  | fault r => cases h
  | refused r => cases h

/-- The state after a command. -/
def run1 (i : Instr) (s : State) : State := after (exec i s)

/-- c0 with a list to run. -/
def issuing (xs : List Input) (s : State) : State := { s with input := xs }

/-- c0 with other contents of Mathbox RAM. -/
def c0With (ram : List (Nat × Word)) : State := { c0 with mbxRam := ram }

/-- c0 with page 0x62 showing Mathbox Memory from woff on both sides. -/
def c0Window (woff : WordIndex) : State :=
  { c0 with ptR := tableSet c0.ptR 0x62 (.mbx woff), ptW := tableSet c0.ptW 0x62 (.mbx woff) }

/-- c0 with accesses in flight. -/
def c0Busy (l : List (Side × Page)) : State := { c0 with inflight := l }

/-- c0 with targets of no buffer and no handler that EX has, and one of the last word of Mathbox Memory. -/
def c0Odd : State :=
  { c0 with cfg := { ex with targets := [(1, .buffer 9 0), (2, .handler (.platform 7)), (3, .mbx 0x7FFF)] } }

/-- c0 with control register A at the address of bank select 0. -/
def c0Shared : State := { c0 with cfg := { ex with ctrlAAddr := 0x1800 } }

/-! ## Well-formedness: what is accepted, and an ill-formed term for each check -/

theorem test_wf_ex : ex.wellFormed = true ∧ Config.bare.wellFormed = true := by decide +kernel

theorem test_wf_refuses_target_zero :
    Config.wellFormed { ex with targets := (0, .buffer 0 0) :: ex.targets } = false ∧
    Config.targetZeroOk { ex with targets := (0, .buffer 0 0) :: ex.targets } = false := by decide +kernel

theorem test_wf_refuses_empty_window :
    Config.windowsOk { ex with banks := [{ exBank0 with winStart := 0x30 }, exBank1] } = false := by decide +kernel

theorem test_wf_refuses_glue_in_window : Config.glueOutsideWindows { ex with ctrlBAddr := 0x2FFF } = false := by
  decide +kernel

theorem test_wf_refuses_bank_table :
    Config.bankTablesOk { ex with banks := [exBank0, { exBank1 with table := [(0, (.buffer 2 0x2001, .discard))] }] } =
      false ∧
    Config.bankTablesOk { ex with banks := [exBank0, { exBank1 with table := [(0, (.discard, .buffer 2 0))] }] } =
      false := by decide +kernel

theorem test_wf_refuses_boot_map : Config.bootMapOk { ex with bootMap := [⟨.R, 0x00, 0x00, .handle 9⟩] } = false ∧
    Config.bootMapOk { ex with bootMap := [⟨.W, 0xC0, 0xFF, .handle 2⟩] } = false ∧
    Config.bootMapOk { ex with bootMap := [⟨.W, 0xC0, 0xFF, .spec (.buffer 1 0)⟩] } = false := by decide +kernel

theorem test_wf_refuses_parameters : Config.parametersOk { ex with banks := [] } = false ∧
    Config.parametersOk { ex with ctrlAStartMask := 0 } = false := by decide +kernel

theorem test_wf_refuses_init : Config.initOk { ex with buffers := [⟨4, true, [(4, 1)]⟩] } = false ∧
    Config.initOk { ex with buffers := [⟨4, true, [(1, 0)]⟩] } = false ∧
    Config.initOk { ex with buffers := [⟨4, true, [(2, 1), (1, 1)]⟩] } = false := by decide +kernel

theorem test_wf_refuses_snapshot : Snapshot.wf ex ⟨[], [0, 0], true⟩ = true ∧ Snapshot.wf ex ⟨[], [0], true⟩ = false ∧
    Snapshot.wf ex ⟨[(0x2000, 1)], [0, 0], true⟩ = false := by decide +kernel

theorem test_wf_refuses_descriptors : readDescOk ex (.buffer 0 0x700) = true ∧ readDescOk ex (.buffer 0 0x701) = false ∧
    readDescOk ex (.handler .glue) = false ∧ writeDescOk ex (.handler .glue) = true ∧
    writeDescOk ex (.buffer 1 0) = false ∧ writeDescOk ex (.handler (.platform 7)) = false := by decide +kernel

theorem test_wf_refuses_memory : Memory.wf c0 = true ∧ Memory.wf (c0With [(5, 0)]) = false ∧
    Memory.wf { c0 with bufs := [] } = false := by decide +kernel

theorem test_inv_c0 : c0.inv = true := by decide +kernel
theorem test_inv_window : (c0Window 0x7FC0).inv = true := by decide +kernel
theorem test_inv_refuses_busy : (c0Busy [(.W, 0x18)]).inv = false := by decide +kernel

/-! ## Decoding: words written out from 30_encoding R72 to R74 -/

theorem test_decode_read : decode 0b00_00000000000000_0000000100100011#32 = some (.read 0x0123) ∧
    decode 0b00_00000000000000_1111111111111111#32 = some (.read 0xFFFF) ∧
    decode 0b00_00000000000001_0000000000000000#32 = none ∧
    decode 0b00_10000000000000_0000000000000000#32 = none := by decide

theorem test_decode_write : decode 0b01_000000_10101011_0000000100100011#32 = some (.write 0x0123 0xAB) ∧
    decode 0b01_000000_11111111_0000000000000000#32 = some (.write 0x0000 0xFF) ∧
    decode 0b01_000001_00000000_0000000000000000#32 = none ∧
    decode 0b01_100000_00000000_0000000000000000#32 = none := by decide

theorem test_decode_mapr : decode 0b10_00000000000001_00000111_00000000#32 = some (.mapr 0x00 0x07 1) ∧
    decode 0b10_11111111111111_11111111_11111111#32 = some (.mapr 0xFF 0xFF 0x3FFF) ∧
    decode 0b10_00000000000101_00001111_00010000#32 = some (.mapr 0x10 0x0F 5) := by decide

theorem test_decode_mapw : decode 0b11_00000000000000_11111111_00000000#32 = some (.mapw 0x00 0xFF 0) ∧
    decode 0b11_11111111111111_11111111_11111111#32 = some (.mapw 0xFF 0xFF 0x3FFF) := by decide

theorem test_encode : encode (.read 0x0123) = 0x00000123#32 ∧ encode (.write 0x0123 0xAB) = 0x40AB0123#32 ∧
    encode (.mapr 0x20 0x3F 3) = 0x80033F20#32 ∧ encode (.mapw 0x00 0x07 1) = 0xC0010700#32 := by decide

theorem test_decode_table_word : decodeTableWord 32 0x40AB0123 = some (.write 0x0123 0xAB) ∧
    decodeTableWord 16 0x0123 = some (.read 0x0123) ∧ decodeTableWord 33 0x0123 = none := by decide

/-! ## Commands: two vectors each -/

/-- V-A3: the top address, with no wrap. -/
theorem test_read_top : (run1 (.read 0xFFFF) c0).returned = some 0xFF ∧
    (run1 (.read 0xFFFE) c0).returned = some 0xFE := by decide +kernel

/-- V-A11: page 0x21 is word 0x80 on, the even byte is the high one. -/
theorem test_read_lanes : (run1 (.read 0x2102) (c0With [(0x81, 0xBEEF)])).returned = some 0xBE ∧
    (run1 (.read 0x2103) (c0With [(0x81, 0xBEEF)])).returned = some 0xEF := by decide +kernel

/-- V-A12: a byte WRITE changes one lane. -/
theorem test_write_lane : (run1 (.write 0x2001 0x56) (c0With [(0, 0x1234)])).mbxRam = [(0, 0x1256)] := by
  decide +kernel

/-- V-G17: control register A at the address of bank select 0: the bank switches first, then the engine starts. -/
theorem test_write_shared_address : (run1 (.write 0x1800 0x05) c0Shared).ev = [.bankSel 0 5, .mbxStart, .mbxDone] ∧
    (run1 (.write 0x1800 0x04) c0Shared).ev = [.bankSel 0 4] ∧
    (run1 (.write 0x1800 0x05) c0Shared).bank = [5, 0] := by decide +kernel

/-- V-M2: nine pages do not fit, and no descriptor changes. -/
theorem test_mapr_bounds : (run1 (.mapr 0x00 0x08 1) c0).fault = some (.mapBounds 0 0 0x00 0x08) ∧
    (run1 (.mapr 0x00 0x08 1) c0).descAt .R 0x07 = .buffer 0 0x700 ∧
    (run1 (.mapr 0x00 0x08 1) c0).descAt .R 0x08 = .handler (.platform 0) := by decide +kernel

/-- V-M12: the word offset wraps at 0x8000. -/
theorem test_mapr_wraps : (run1 (.mapr 0x60 0x61 4) c0).descAt .R 0x60 = .mbx 0x7F80 ∧
    (run1 (.mapr 0x60 0x61 4) c0).descAt .R 0x61 = .mbx 0 ∧
    (run1 (.mapr 0x60 0x61 4) c0).descAt .W 0x60 = .discard := by decide +kernel

/-- V-M4: the bounds row comes before the read-only row. -/
theorem test_mapw_row_order : (run1 (.mapw 0x80 0xC0 2) c0).fault = some (.mapBounds 1 0 0x80 0xC0) ∧
    (run1 (.mapw 0xC0 0xC0 2) c0).fault = some (.mapReadonly 1) := by decide +kernel

/-- V-M11: the glue page can be unmapped, and a WRITE there is then dropped. -/
theorem test_mapw_all : (run1 (.mapw 0x00 0xFF 0) c0).descAt .W 0x18 = .discard ∧
    (run1 (.mapw 0x00 0xFF 0) c0).descAt .W 0x00 = .discard ∧
    (run1 (.write 0x1801 0x01) (run1 (.mapw 0x00 0xFF 0) c0)).bank = [0, 0] := by decide +kernel

/-! ## Calls, boot, host actions, refusals -/

/-- V-E15 to V-E17. -/
theorem test_calls : (after (execCall (.read 0x4105) c0)).returned = some 0x01 ∧
    (after (execCall (.read 0x14105) c0)).returned = some 0x01 ∧
    (after (execCall (.mapRead 0x100 0x100 .discard) c0)).fault = some (.mapRange 0x100 0x100) := by decide +kernel

/-- V-M16 to V-M18: the in-flight check of the map procedure. -/
theorem test_in_flight : ((c0Busy [(.W, 0x18)]).mapSide .R 0x10 0x20 .discard).fault = some (.remapInflight .R 0x18) ∧
    ((c0Busy [(.W, 0x18)]).mapSide .W 0x18 0x18 (.buffer 1 0)).fault = some (.mapReadonly 1) ∧
    ((c0Busy [(.R, 0x25), (.W, 0x18)]).mapSide .W 0x20 0x2F (.mbx 0)).fault = some (.remapInflight .W 0x25) := by
  decide +kernel

/-- V-R2: boot gives C0 and no event. -/
theorem test_boot : (after (step ex0)).descAt .W 0x18 = .handler .glue ∧
    (after (step ex0)).descAt .R 0x18 = .discard ∧ (after (step ex0)).descAt .R 0x2F = .mbx 0x780 ∧
    (after (step ex0)).descAt .R 0x5F = .buffer 2 0x1F00 ∧ (after (step ex0)).descAt .W 0x5F = .discard ∧
    (after (step ex0)).descAt .R 0xFF = .buffer 1 0x3F00 ∧ (after (step ex0)).ev = [] := by decide +kernel

/-- 10_state R23: a BOOT_MAP entry that names a target spec which TGT does not assign. -/
theorem test_boot_target_spec :
    (after (step { ex0 with cfg := { ex with bootMap := [⟨.R, 0x70, 0x71, .spec (.buffer 2 0x100)⟩] } })).descAt .R 0x71 =
      .buffer 2 0x200 := by decide +kernel

/-- 70_reset_and_hazards R230: a reset is taken with boot pending, and boot is pending still. -/
theorem test_reset_before_boot : (after (step (issuing [.host .reset] ex0))).pos = 1 ∧
    (after (step (issuing [.host .reset] ex0))).phase = .boot := by decide +kernel

/-- V-E14: an illegal word is refused. -/
theorem test_illegal_word : step (issuing [.word 0x41000000] c0) = .refused (.illegalWord 0x41000000) := rfl

/-- V-M20: after a fault no command has a step. -/
theorem test_stopped : exec (.read 0x0000) { c0 with fault := some (.mapReadonly 1) } = .fault (.stopped (.mapReadonly 1)) :=
  rfl

/-- V-R5: a restore sets the three elements and rebuilds the windows for the indices. -/
theorem test_restore : (c0.restore ⟨[(0, 0x1234)], [1, 2], true⟩).descAt .W 0x20 = .mbx 0x800 ∧
    (c0.restore ⟨[(0, 0x1234)], [1, 2], true⟩).descAt .W 0x41 = .buffer 3 0x100 ∧
    (c0.restore ⟨[(0, 0x1234)], [1, 2], true⟩).startLevel = true := by decide +kernel

/-- 30_encoding R80, R81: a mnemonic, a call form, a pseudo-command, an operand out of range. -/
theorem test_assembler : assembleLine "WRITE 0x2001, 171".toList = some [.write 0x2001 0xAB] ∧
    assembleLine "MapRead(0x00, 0x07, 1)".toList = some [.mapr 0x00 0x07 1] ∧
    assembleLine "UNMAP 0x10, 0x17".toList = some [.mapr 0x10 0x17 0, .mapw 0x10 0x17 0] ∧
    assembleLine "READ 0x10000".toList = none := by decide +kernel

/-! ## Witnesses: for each statement with hypotheses, a state and operands that meet them all -/

/-- The entry is the one a step of the state takes. -/
theorem takes_entry {s : State} {x : Input} (hp : s.phase = .run) (hx : s.input[s.cursor]? = some x) :
    s.takesEntry x := by
  refine ⟨hx, fun h => ?_⟩
  rw [hp] at h
  cases h

/-- Only k of the bank selects has the address, where the list has it at k only. -/
theorem only_bank {l : List BankSelect} {a : Addr} {k : Nat}
    (h : (List.range l.length).all fun j => (l[j]?).map BankSelect.addr != some a || j == k) (j : Nat) (b : BankSelect)
    (hj : l[j]? = some b) (ha : b.addr = a) : j = k := by
  rw [List.all_eq_true] at h
  have := h j (List.mem_range.mpr (List.getElem?_eq_some_iff.mp hj).1)
  simpa [hj, ha] using this

theorem witness_encodeOfDecode : ∃ w i, decode w = some i := ⟨0xC0010700#32, .mapw 0x00 0x07 1, by decide⟩

/-- One word for each kind of illegal word: the lowest and the highest reserved bit. -/
theorem witness_illegalWordIsRefused :
    (∃ s : State, s.fault = none ∧ s.takesEntry (.word 0x00010000) ∧ decode 0x00010000 = none) ∧
    ∃ s : State, s.fault = none ∧ s.takesEntry (.word 0x60000000) ∧ decode 0x60000000 = none :=
  ⟨⟨issuing [.word 0x00010000] c0, rfl, takes_entry rfl rfl, by decide⟩,
   ⟨issuing [.word 0x60000000] c0, rfl, takes_entry rfl rfl, by decide⟩⟩

theorem witness_pseudoCommandExpansions : ∃ (p : Pseudo) (i j : Instr) (s u : State) (f : ModelFault),
    p.expand = [i, j] ∧ exec i s = .next u ∧ u.fault = some f :=
  ⟨.maprw 0 8 1, .mapr 0 8 1, .mapw 0 8 1, c0, _, .mapBounds 0 0 0 8, rfl, next_after (by decide +kernel),
   by decide +kernel⟩

theorem witness_callsMaskAddressAndByte : (∃ (addr : Int) (a : Addr), addr % 65536 = a.toNat) ∧
    ∃ (addr val : Int) (a : Addr) (d : Byte), addr % 65536 = a.toNat ∧ val % 256 = d.toNat :=
  ⟨⟨0x10123, 0x0123, by decide⟩, ⟨-1, 0x1AB, 0xFFFF, 0xAB, by decide, by decide⟩⟩

/-- Each side just outside the range. -/
theorem witness_callPageNumbersAreNotMasked : ∃ s : State, s.fault = none ∧
    (∃ ps : Int, ps < 0) ∧ (∃ ps : Int, 255 < ps) ∧ (∃ pe : Int, pe < 0) ∧ ∃ pe : Int, 255 < pe :=
  ⟨c0, rfl, ⟨-1, by decide⟩, ⟨256, by decide⟩, ⟨-1, by decide⟩, ⟨256, by decide⟩⟩

/-- A target a handle names; targets no handle names: one on an empty range, one past the buffer's end, one that fills
the buffer beside an access in flight, and one over it. -/
theorem witness_callMapsLikeItsCommand : targetOf c0.cfg 1 = some (.buffer 0 0) ∧
    (c0Busy [(.W, 0x18)]).fault = none ∧ (∀ e ∈ ex.targets, e.2 ≠ .buffer 2 0x3F00 ∧ e.2 ≠ .buffer 2 0x3F01) ∧
    (0x10 : Page) < 0x11 ∧ (0x18 : Page) ≤ 0x18 ∧
    ex.buffers[2]? = some ⟨0x4000, false, [(0x105, 0x01), (0x2000, 0x20), (0x3FFF, 0x3F)]⟩ ∧
    0x4000 < 0x3F01 + ((0x18 : Page).toNat - (0x18 : Page).toNat + 1) * 256 ∧
    checkTarget ex .R 0x17 0x17 (.buffer 2 0x3F00) = none ∧ checkTarget ex .R 0x18 0x18 (.buffer 2 0x3F00) = none ∧
    (∀ e ∈ (c0Busy [(.W, 0x18)]).inflight, ¬ ((0x17 : Page) ≤ e.2 ∧ e.2 ≤ 0x17)) ∧
    (∃ e ∈ (c0Busy [(.W, 0x18)]).inflight, e.2 = 0x18) ∧
    ∀ e ∈ (c0Busy [(.W, 0x18)]).inflight, (0x18 : Page) ≤ e.2 → e.2 ≤ 0x18 → 0x18 ≤ e.2 := by
  decide +kernel

theorem witness_descriptorOfTarget : ∃ ps p : Page, ps ≤ p := ⟨0xFF, 0xFF, by decide⟩

/-- A range that fills the buffer, next to an access in flight. -/
theorem witness_mapCommandCompletes : ∃ (s : State) (side : Side) (ps pe : Page) (h : Handle) (t : TargetSpec),
    s.fault = none ∧ targetOf s.cfg h = some t ∧ ps ≤ pe ∧ checkTarget s.cfg side ps pe t = none ∧
    ∀ e ∈ s.inflight, ¬ (ps ≤ e.2 ∧ e.2 ≤ pe) :=
  ⟨c0Busy [(.W, 0x18)], .R, 0x10, 0x17, 1, .buffer 0 0, by decide +kernel⟩

theorem witness_mapCommandFrame : ∃ (s u : State) (side : Side) (ps pe : Page) (h : Handle),
    exec (mapInstr side ps pe h) s = .next u ∧ u.fault = none ∧ ps ≤ pe :=
  ⟨c0, _, .W, 0x30, 0x30, 6, next_after (by decide +kernel), by decide +kernel, by decide⟩

theorem witness_emptyRangeDoesNothing : ∃ (s : State) (ps pe : Page) (h : Handle) (t : TargetSpec),
    s.fault = none ∧ targetOf s.cfg h = some t ∧ pe < ps :=
  ⟨c0, 0x11, 0x10, 5, .mbx 0x8000, by decide +kernel⟩

theorem witness_unassignedHandleFaults : ∃ (s : State) (h : Handle), s.fault = none ∧ targetOf s.cfg h = none :=
  ⟨c0, 0x3FFF, by decide +kernel⟩

/-- Each clause of the checks, at the boundary where it has one. -/
theorem witness_mapTimeChecks : c0.fault = none ∧ c0Odd.fault = none ∧
    targetOf ex 0 = some .discard ∧
    (targetOf c0Odd.cfg 1 = some (.buffer 9 0) ∧ c0Odd.cfg.buffers[9]? = none) ∧
    (targetOf ex 1 = some (.buffer 0 0) ∧ (0x00 : Page) ≤ 0x08 ∧ 0x800 < 0 + (0x08 - 0x00 + 1) * 256) ∧
    (targetOf ex 2 = some (.buffer 1 0) ∧ (0xC0 : Page) ≤ 0xFF ∧ 0 + (0xFF - 0xC0 + 1) * 256 ≤ 0x4000) ∧
    (targetOf ex 1 = some (.buffer 0 0) ∧ (0x00 : Page) ≤ 0x07 ∧ 0 + (0x07 - 0x00 + 1) * 256 ≤ 0x800) ∧
    ((ex.buffers[0]?).map BufferInfo.len = some 0x800 ∧ (ex.buffers[0]?).map BufferInfo.writable = some true) ∧
    ((ex.buffers[1]?).map BufferInfo.len = some 0x4000 ∧ (ex.buffers[1]?).map BufferInfo.writable = some false) ∧
    targetOf ex 5 = some (.mbx 0x8000) ∧ targetOf c0Odd.cfg 3 = some (.mbx 0x7FFF) ∧
    (targetOf c0Odd.cfg 2 = some (.handler (.platform 7)) ∧ 7 ∉ c0Odd.cfg.handlers) ∧
    (targetOf ex 3 = some (.handler (.platform 0)) ∧ 0 ∈ ex.handlers) ∧
    targetOf ex 6 = some (.handler .glue) := by decide +kernel

/-- The lowest of two pages in flight, at the range's start. -/
theorem witness_remapInFlightFaults : ∃ (s : State) (side : Side) (ps pe p : Page) (h : Handle) (t : TargetSpec),
    s.fault = none ∧ targetOf s.cfg h = some t ∧ checkTarget s.cfg side ps pe t = none ∧ ps ≤ p ∧ p ≤ pe ∧
    (∃ e ∈ s.inflight, e.2 = p) ∧ ∀ e ∈ s.inflight, ps ≤ e.2 → e.2 ≤ pe → p ≤ e.2 :=
  ⟨c0Busy [(.R, 0x2F), (.W, 0x20), (.W, 0x18)], .W, 0x20, 0x2F, 0x20, 4, .mbx 0x7F80, by decide +kernel⟩

theorem witness_directMapFaultCodes : ∃ (s u : State) (side : Side) (ps pe : Page) (h : Handle) (f : ModelFault),
    s.inflight = [] ∧ exec (mapInstr side ps pe h) s = .next u ∧ u.fault = some f :=
  ⟨c0, _, .W, 0xC0, 0xC0, 2, .mapReadonly 1, rfl, next_after (by decide +kernel), by decide +kernel⟩

/-- V-M13. -/
theorem witness_laterMapWins : ∃ (s u v : State) (side : Side) (ps pe ps' pe' : Page) (h h' : Handle)
    (t t' : TargetSpec), exec (mapInstr side ps pe h) s = .next u ∧ u.fault = none ∧ targetOf s.cfg h = some t ∧
    exec (mapInstr side ps' pe' h') u = .next v ∧ v.fault = none ∧ targetOf s.cfg h' = some t' :=
  ⟨c0, _, _, .R, 0x10, 0x11, 0x10, 0x10, 1, 8, .buffer 0 0, .buffer 4 0x1000, next_after (by decide +kernel),
   by decide +kernel, by decide +kernel, next_after (by decide +kernel), by decide +kernel, by decide +kernel⟩

/-- V-M1, the last byte of the range. -/
theorem witness_mappedBufferReadsContiguously : ∃ (s u : State) (ps pe : Page) (h : Handle) (buf base : Nat) (a : Addr),
    s.inv = true ∧ exec (.mapr ps pe h) s = .next u ∧ u.fault = none ∧ targetOf s.cfg h = some (.buffer buf base) ∧
    ps ≤ pageOf a ∧ pageOf a ≤ pe :=
  ⟨c0, _, 0x10, 0x17, 1, 0, 0, 0x17FF, test_inv_c0, next_after (by decide +kernel), by decide +kernel,
   by decide +kernel, by decide, by decide⟩

theorem witness_discardAccess : ∃ (s : State) (a : Addr), s.fault = none ∧ s.descAt .R (pageOf a) = .discard ∧
    s.descAt .W (pageOf a) = .discard := ⟨c0, 0x9000, by decide +kernel⟩

theorem witness_bufferAccess : ∃ (s : State) (a : Addr) (buf off : Nat), s.inv = true ∧ s.fault = none ∧
    s.descAt .R (pageOf a) = .buffer buf off ∧ s.descAt .W (pageOf a) = .buffer buf off :=
  ⟨c0, 0x07FF, 0, 0x700, test_inv_c0, rfl, by decide +kernel, by decide +kernel⟩

theorem witness_handlerAccess : (∃ (s : State) (a : Addr) (id : Nat), s.inv = true ∧ s.fault = none ∧
      s.descAt .R (pageOf a) = .handler (.platform id) ∧ s.descAt .W (pageOf a) = .handler (.platform id)) ∧
    ∃ (s : State) (a : Addr), s.inv = true ∧ s.fault = none ∧ s.descAt .W (pageOf a) = .handler .glue :=
  ⟨⟨c0, 0x0810, 0, test_inv_c0, rfl, by decide +kernel, by decide +kernel⟩,
   ⟨c0, 0x1801, test_inv_c0, rfl, by decide +kernel⟩⟩

/-- The last RAM word, the first ROM word, and a word past the wrap. -/
theorem witness_mathboxWindowAccess :
    ((c0Window 0x1F80).fault = none ∧ (0x1FFF : WordIndex).toNat = ((0x1F80 : WordIndex).toNat +
        (0x62FF : Addr).toNat % 256 / 2) % 0x8000 ∧ (c0Window 0x1F80).descAt .R (pageOf 0x62FF) = .mbx 0x1F80 ∧
      (c0Window 0x1F80).descAt .W (pageOf 0x62FF) = .mbx 0x1F80) ∧
    ((c0Window 0x2000).fault = none ∧ (0x2000 : WordIndex).toNat = ((0x2000 : WordIndex).toNat +
        (0x6200 : Addr).toNat % 256 / 2) % 0x8000 ∧ (c0Window 0x2000).descAt .R (pageOf 0x6200) = .mbx 0x2000 ∧
      (c0Window 0x2000).descAt .W (pageOf 0x6200) = .mbx 0x2000) ∧
    (0x003F : WordIndex).toNat = ((0x7FC0 : WordIndex).toNat + (0x62FE : Addr).toNat % 256 / 2) % 0x8000 :=
  ⟨⟨rfl, by decide, by decide +kernel, by decide +kernel⟩, ⟨rfl, by decide, by decide +kernel, by decide +kernel⟩,
   by decide⟩

theorem witness_inflightRestored : (∃ (s u : State) (a : Addr), exec (.read a) s = .next u) ∧
    ∃ (s u : State) (a : Addr) (d : Byte), exec (.write a d) s = .next u ∧ u.fault = none :=
  ⟨⟨c0, _, 0x0810, next_after (by decide +kernel)⟩,
   ⟨c0, _, 0x1801, 0x01, next_after (by decide +kernel), by decide +kernel⟩⟩

theorem witness_accessesNeverFault : ∃ s : State, s.inv = true ∧ s.fault = none := ⟨c0, test_inv_c0, rfl⟩

theorem witness_readConsultsOnlyItsDescriptor : ∃ (s t u : State) (a : Addr),
    s.descAt .R (pageOf a) = t.descAt .R (pageOf a) ∧ s.cfg = t.cfg ∧ s.bufs = t.bufs ∧ s.mbxRam = t.mbxRam ∧
    s.draws = t.draws ∧ s.fault = t.fault ∧ s.bank ≠ t.bank ∧ exec (.read a) s = .next u :=
  ⟨c0, { c0Busy [(.R, 0x01)] with bank := [5, 3], startLevel := true, ptW := allDiscard }, _, 0x0123, rfl, rfl, rfl, rfl,
   rfl, rfl, by decide, next_after (by decide +kernel)⟩

theorem witness_readFrame : ∃ (s u : State) (a : Addr), exec (.read a) s = .next u ∧
    ∀ id, s.descAt .R (pageOf a) ≠ .handler (.platform id) := by
  refine ⟨c0, _, 0x4105, next_after (by decide +kernel), fun id => ?_⟩
  rw [show c0.descAt .R (pageOf 0x4105) = .buffer 2 0x100 by decide +kernel]
  simp

theorem witness_writeFrame : ∃ (s u : State) (a : Addr) (d : Byte), exec (.write a d) s = .next u ∧
    s.descAt .W (pageOf a) ≠ .handler .glue ∧ ∀ id, s.descAt .W (pageOf a) ≠ .handler (.platform id) := by
  have h : c0.descAt .W (pageOf 0x2001) = .mbx 0 := by decide +kernel
  refine ⟨c0, _, 0x2001, 0x56, next_after (by decide +kernel), ?_, fun id => ?_⟩ <;> rw [h] <;> simp

/-- A buffer byte, and a lane of a RAM word. -/
theorem witness_readAfterWriteSameCell : (∃ (s u : State) (a a' : Addr) (d : Byte) (buf off off' : Nat), s.inv = true ∧
      exec (.write a d) s = .next u ∧ s.descAt .W (pageOf a) = .buffer buf off ∧
      s.descAt .R (pageOf a') = .buffer buf off' ∧ off + a.toNat % 256 = off' + a'.toNat % 256) ∧
    ∃ (s u : State) (a a' : Addr) (d : Byte) (woff woff' : WordIndex), s.inv = true ∧ exec (.write a d) s = .next u ∧
      s.descAt .W (pageOf a) = .mbx woff ∧ s.descAt .R (pageOf a') = .mbx woff' ∧
      (woff.toNat + a.toNat % 256 / 2) % 0x8000 = (woff'.toNat + a'.toNat % 256 / 2) % 0x8000 ∧
      (woff.toNat + a.toNat % 256 / 2) % 0x8000 < 0x2000 ∧ a.toNat % 2 = a'.toNat % 2 :=
  ⟨⟨c0, _, 0x0123, 0x0123, 0xAB, 0, 0x100, 0x100, test_inv_c0, next_after (by decide +kernel), by decide +kernel,
    by decide +kernel, by decide⟩,
   ⟨c0Window 0x7FC0, _, 0x6280, 0x2000, 0x11, 0x7FC0, 0, test_inv_window, next_after (by decide +kernel),
    by decide +kernel, by decide +kernel, by decide, by decide, by decide⟩⟩

/-- A READ of PROG's last byte changes nothing but what it returns. -/
theorem read_top {s : State} (hf : s.fault = none) (hr : s.descAt .R 0xFF = .buffer 1 0x3F00)
    (hb : State.bufHas { s with returned := none } 1 0x3FFF = true) (hv : s.bufRead 1 0x3FFF = 0xFF) :
    exec (.read 0xFFFF) s = .next { s with returned := some 0xFF } := by
  rw [exec_read hf, show pageOf 0xFFFF = 0xFF by decide, hr]
  unfold State.readTarget
  dsimp only
  rw [show 0x3F00 + (offOf 0xFFFF).toNat = 0x3FFF by decide, if_pos hb]
  exact congrArg (fun v => Host.Outcome.next { s with returned := some v }) hv

/-- Discard, a platform handler, a ROM word. -/
theorem witness_writeToNoCellKeepsReads : ∀ x ∈ [((0x9000 : Addr), PageDesc.discard), (0x0810, .handler (.platform 0)),
      (0x627F, .mbx 0x7FC0)], ∃ (s u : State) (a' : Addr) (d v : Byte), exec (.write x.1 d) s = .next u ∧
    s.descAt .W (pageOf x.1) = x.2 ∧ 0x2000 ≤ ((0x7FC0 : WordIndex).toNat + (0x627F : Addr).toNat % 256 / 2) % 0x8000 ∧
    (∀ id, s.descAt .R (pageOf a') ≠ .handler (.platform id)) ∧
    exec (.read a') s = .next { s with returned := some v } := by
  intro x hx
  have hd : (c0Window 0x7FC0).descAt .R 0xFF = .buffer 1 0x3F00 := by decide +kernel
  have hw : [((0x9000 : Addr), PageDesc.discard), (0x0810, .handler (.platform 0)), (0x627F, .mbx 0x7FC0)].all
      (fun x => isNext (exec (.write x.1 0x22) (c0Window 0x7FC0)) &&
        decide ((c0Window 0x7FC0).descAt .W (pageOf x.1) = x.2)) = true := by decide +kernel
  have hw := List.all_eq_true.mp hw x hx
  rw [Bool.and_eq_true, decide_eq_true_eq] at hw
  refine ⟨c0Window 0x7FC0, _, 0xFFFF, 0x22, 0xFF, next_after hw.1, hw.2, by decide, fun id => ?_,
    read_top rfl hd (by decide +kernel) (by decide +kernel)⟩
  rw [show pageOf 0xFFFF = 0xFF by decide, hd]
  simp

/-- Both orders. -/
theorem witness_twoByteWritesMakeAWord : c0.fault = none ∧ (0x2000 : Addr).toNat % 2 = 0 ∧
    (0x2001 : Addr).toNat = (0x2000 : Addr).toNat + 1 ∧ c0.descAt .W (pageOf 0x2000) = .mbx 0 ∧
    (0 : WordIndex).toNat = ((0 : WordIndex).toNat + (0x2000 : Addr).toNat % 256 / 2) % 0x8000 ∧
    (∃ u v, exec (.write 0x2000 0x12) c0 = .next u ∧ exec (.write 0x2001 0x34) u = .next v) ∧
    ∃ u v, exec (.write 0x2001 0x34) c0 = .next u ∧ exec (.write 0x2000 0x12) u = .next v :=
  ⟨rfl, by decide, by decide, by decide +kernel, by decide,
   ⟨_, _, next_after (by decide +kernel), next_after (by decide +kernel)⟩,
   ⟨_, _, next_after (by decide +kernel), next_after (by decide +kernel)⟩⟩

/-- V-G15. -/
theorem witness_glueNonRegisterWrite : ∃ (s : State) (a : Addr), s.fault = none ∧
    s.descAt .W (pageOf a) = .handler .glue ∧ a ∉ glueAddrs s.cfg := ⟨c0, 0x1820, by decide +kernel⟩

/-- V-G1. -/
theorem witness_bankSelectSwitchesWindow : ∃ (s : State) (a : Addr) (k : Nat) (b : BankSelect), s.inv = true ∧
    s.fault = none ∧ s.descAt .W (pageOf a) = .handler .glue ∧ s.cfg.banks[k]? = some b ∧ b.addr = a ∧
    (∀ j b', s.cfg.banks[j]? = some b' → b'.addr = a → j = k) ∧ a ≠ s.cfg.ctrlAAddr ∧ a ≠ s.cfg.ctrlBAddr ∧
    s.cfg.alphaMapAddr ≠ some a :=
  ⟨c0, 0x1801, 1, exBank1, test_inv_c0, rfl, by decide +kernel, rfl, rfl,
   only_bank (by decide +kernel), by decide, by decide, by decide⟩

theorem witness_glueDispatchOrder : ∃ (s : State) (a : Addr), s.inv = true ∧ s.fault = none ∧
    s.descAt .W (pageOf a) = .handler .glue ∧ a = s.cfg.ctrlAAddr ∧ ∃ b ∈ s.cfg.banks, b.addr = a :=
  ⟨c0Shared, 0x1800, by decide +kernel, rfl, by decide +kernel, rfl, exBank0, .head _, rfl⟩

/-- V-G9 to V-G11: level 0, the same level again, a rise. -/
theorem witness_controlAStartsOnRisingEdge : ∃ s t : State, ∃ a : Addr, s.fault = none ∧ t.fault = none ∧
    s.cfg = ex ∧ t.cfg = ex ∧ s.descAt .W (pageOf a) = .handler .glue ∧ t.descAt .W (pageOf a) = .handler .glue ∧
    a = ex.ctrlAAddr ∧ (∀ b ∈ ex.banks, b.addr ≠ a) ∧ a ≠ ex.ctrlBAddr ∧ ex.alphaMapAddr ≠ some a ∧
    (0xFE : Byte) &&& ex.ctrlAStartMask = 0#8 ∧ (0x03 : Byte) &&& ex.ctrlAStartMask ≠ 0#8 ∧ s.startLevel = true ∧
    t.startLevel = false :=
  ⟨{ c0 with startLevel := true }, c0, 0x1810, rfl, rfl, rfl, rfl, by decide +kernel, by decide +kernel, rfl,
   by decide +kernel, by decide, by decide, by decide, by decide, rfl, rfl⟩

/-- A WRITE to control register A of EX completes and leaves a state where another can follow. -/
theorem control_a_step {s : State} (hf : s.fault = none) (hg : s.descAt .W 0x18 = .handler .glue) (hc : s.cfg = ex)
    (d : Byte) : ∃ u, exec (.write 0x1810 d) s = .next u ∧ u.fault = none ∧ u.descAt .W 0x18 = .handler .glue ∧
      u.cfg = ex := by
  have hb : ∀ b ∈ ex.banks, b.addr ≠ 0x1810 := by decide +kernel
  refine ⟨_, exec_write_glue_of_no_bank hf (by exact hg) (hc ▸ hb) d, ?_, ?_, ?_⟩
  · rw [State.pop_fault, State.glueTail_fault]
    exact hf
  · have := (State.glueTail_tables 0x1810 d (State.push .W (pageOf 0x1810) { s with returned := none })).2
    unfold State.descAt at hg ⊢
    rw [State.pop_ptW, this]
    exact hg
  · rw [State.pop_cfg, (State.glueTail_glueRel ..).cfg]
    exact hc

/-- V-G9 to V-G12. -/
theorem witness_startNeedsRearming : ∃ (s s1 s2 s3 s4 : State) (a : Addr) (d1 d2 d3 d4 : Byte),
    s.descAt .W (pageOf a) = .handler .glue ∧ a = s.cfg.ctrlAAddr ∧ (∀ b ∈ s.cfg.banks, b.addr ≠ a) ∧
    a ≠ s.cfg.ctrlBAddr ∧ s.cfg.alphaMapAddr ≠ some a ∧ d1 &&& s.cfg.ctrlAStartMask ≠ 0#8 ∧
    d2 &&& s.cfg.ctrlAStartMask ≠ 0#8 ∧ d3 &&& s.cfg.ctrlAStartMask = 0#8 ∧ d4 &&& s.cfg.ctrlAStartMask ≠ 0#8 ∧
    exec (.write a d1) s = .next s1 ∧ exec (.write a d2) s1 = .next s2 ∧ exec (.write a d3) s2 = .next s3 ∧
    exec (.write a d4) s3 = .next s4 := by
  have hg : c0.descAt .W 0x18 = .handler .glue := by decide +kernel
  obtain ⟨s1, e1, f1, g1, c1⟩ := control_a_step (s := c0) rfl hg rfl 0x01
  obtain ⟨s2, e2, f2, g2, c2⟩ := control_a_step f1 g1 c1 0x03
  obtain ⟨s3, e3, f3, g3, c3⟩ := control_a_step f2 g2 c2 0xFE
  obtain ⟨s4, e4, -, -, -⟩ := control_a_step f3 g3 c3 0x01
  exact ⟨c0, s1, s2, s3, s4, 0x1810, 0x01, 0x03, 0xFE, 0x01, hg, rfl, by decide +kernel, by decide, by decide, by decide,
    by decide, by decide, by decide, e1, e2, e3, e4⟩

/-- V-G14. -/
theorem witness_videoAndAlphaEvents : c0.fault = none ∧ c0.descAt .W (pageOf 0x1811) = .handler .glue ∧
    c0.descAt .W (pageOf 0x1812) = .handler .glue ∧ (∀ b ∈ c0.cfg.banks, b.addr ≠ 0x1811) ∧
    (∀ b ∈ c0.cfg.banks, b.addr ≠ 0x1812) ∧ 0x1811 ≠ c0.cfg.ctrlAAddr ∧ 0x1812 ≠ c0.cfg.ctrlAAddr ∧
    0x1811 = c0.cfg.ctrlBAddr ∧ c0.cfg.alphaMapAddr ≠ some 0x1811 ∧ 0x1812 ≠ c0.cfg.ctrlBAddr ∧
    c0.cfg.alphaMapAddr = some 0x1812 :=
  ⟨rfl, by decide +kernel, by decide +kernel, by decide +kernel, by decide +kernel, by decide, by decide, rfl, by decide,
   by decide, rfl⟩

/-- The last bank select at an address whose window holds a page, where the list has it so. -/
theorem last_bank {l : List BankSelect} {a : Addr} {p : Page} {k : Nat}
    (h : (List.range l.length).all fun j => (l[j]?).all fun b =>
      !decide (b.addr = a ∧ b.winStart ≤ p ∧ p ≤ b.winEnd) || decide (j ≤ k)) (j : Nat) (b : BankSelect)
    (hj : l[j]? = some b) (ha : b.addr = a) (h1 : b.winStart ≤ p) (h2 : p ≤ b.winEnd) : j ≤ k := by
  rw [List.all_eq_true] at h
  have := h j (List.mem_range.mpr (List.getElem?_eq_some_iff.mp hj).1)
  simpa [hj, ha, h1, h2] using this

/-- A bank for each kind of target: a Discard read side, one of a platform handler, and an index with no entry. -/
def exBank2 : BankSelect :=
  { exBank1 with table := [(1, (.discard, .buffer 3 0)), (2, (.handler (.platform 0), .discard))] }

/-- C0 with those banks in place of bank select 1's. -/
def c0Banks : State := { c0 with cfg := { ex with banks := [exBank0, exBank2] } }

/-- The window's last byte: a buffer (V-G1), the Mathbox window at the top of ROM (V-G8), a Discard entry, a platform
handler, and an index with no entry. -/
theorem witness_bankSwitchSeenByNextRead : ∀ x ∈ [(c0, (0x1801 : Addr), (0x5FFF : Addr), (0x01 : Byte), 1, exBank1,
      some (TargetSpec.buffer 2 0x2000, TargetSpec.discard)),
    (c0, 0x1800, 0x2FFF, 0x0F, 0, exBank0, some (.mbx 0x7800, .mbx 0x7800)),
    (c0Banks, 0x1801, 0x5FFF, 0x01, 1, exBank2, some (.discard, .buffer 3 0)),
    (c0Banks, 0x1801, 0x5FFF, 0x02, 1, exBank2, some (.handler (.platform 0), .discard)),
    (c0Banks, 0x1801, 0x5FFF, 0x07, 1, exBank2, none)],
    ∃ (s u : State) (a x' : Addr) (d : Byte) (k : Nat) (b : BankSelect) (o : Option (TargetSpec × TargetSpec)),
      x = (s, a, x', d, k, b, o) ∧ s.inv = true ∧ s.descAt .W (pageOf a) = .handler .glue ∧
      s.cfg.banks[k]? = some b ∧ b.addr = a ∧
      (∀ j b', s.cfg.banks[j]? = some b' → b'.addr = a → b'.winStart ≤ pageOf x' → pageOf x' ≤ b'.winEnd → j ≤ k) ∧
      b.winStart ≤ pageOf x' ∧ pageOf x' ≤ b.winEnd ∧ exec (.write a d) s = .next u ∧
      b.table.lookup (bankDecode b d) = o := by
  intro x hx
  fin_cases hx <;>
    exact ⟨_, _, _, _, _, _, _, _, rfl, by decide +kernel, by decide +kernel, rfl, rfl, last_bank (by decide +kernel),
      by decide, by decide, next_after (by decide +kernel), by decide +kernel⟩

/-- A bank table entry whose write side is read-only, as no well-formed configuration has it. -/
theorem witness_faultKeepsEarlierEffects : ∃ (s : State) (k : Nat) (d : Byte) (b : BankSelect) (f : ModelFault),
    s.fault = none ∧ s.cfg.banks[k]? = some b ∧ k < s.bank.length ∧ b.winStart ≤ b.winEnd ∧
    checkTarget s.cfg .R b.winStart b.winEnd (bankTargets b (bankDecode b d)).1 = none ∧
    checkTarget s.cfg .W b.winStart b.winEnd (bankTargets b (bankDecode b d)).2 = some f ∧
    ∀ e ∈ s.inflight, ¬ (b.winStart ≤ e.2 ∧ e.2 ≤ b.winEnd) :=
  ⟨{ c0 with cfg := { ex with banks := [{ exBank1 with table := [(1, (.buffer 2 0, .buffer 2 0))] }] } }, 0, 0x01,
   { exBank1 with table := [(1, (.buffer 2 0, .buffer 2 0))] }, .mapReadonly 2, rfl, rfl, by decide, by decide,
   by decide +kernel, by decide +kernel, by decide⟩

/-- A step that changes the bank indices and the page table. -/
theorem witness_bankWriters : ∃ (s u : State) (x : Input), s.takesEntry x ∧ step s = .next u ∧ u.bank ≠ s.bank :=
  ⟨issuing [.word 0x40011801] c0, _, .word 0x40011801, takes_entry rfl rfl, next_after (by decide +kernel),
   by decide +kernel⟩

theorem witness_pageTableWriters : ∃ (s u : State) (x : Input), s.takesEntry x ∧ step s = .next u ∧
    (u.ptR ≠ s.ptR ∨ u.ptW ≠ s.ptW) := by
  refine ⟨issuing [.word 0x80011710] c0, _, .word 0x80011710, takes_entry rfl rfl, next_after (by decide +kernel),
    .inl fun h => ?_⟩
  have : (after (step (issuing [.word 0x80011710] c0))).descAt .R 0x10 ≠
      (issuing [.word 0x80011710] c0).descAt .R 0x10 := by decide +kernel
  exact this (by unfold State.descAt; simp only [h])

theorem witness_bufferWriters : ∃ (s u : State) (b i : Nat), step s = .next u ∧ u.bufRead b i ≠ s.bufRead b i :=
  ⟨issuing [.word 0x40AB0123] c0, _, 0, 0x123, next_after (by decide +kernel), by decide +kernel⟩

theorem witness_mathboxRomIsFixed : ∃ (s u : State) (w : WordIndex), step s = .next u ∧ 0x2000 ≤ w.toNat :=
  ⟨issuing [.word 0x40222000] c0, _, 0x2000, next_after (by decide +kernel), by decide⟩

theorem witness_configurationNeverChanges : ∃ s u : State, step s = .next u :=
  ⟨issuing [.host .reset] c0, _, next_after (by decide +kernel)⟩

theorem witness_traceOnlyGrows : ∃ s u : State, step s = .next u ∧ u.ev ≠ s.ev :=
  ⟨issuing [.word 0x405A0810] c0, _, next_after (by decide +kernel), by decide +kernel⟩

/-- The one step of a faulted state: a reset. -/
theorem witness_faultIsSticky : ∃ (s u : State) (f : ModelFault), s.fault = some f ∧ step s = .next u :=
  ⟨{ issuing [.word 0xC002C0C0, .host .reset] c0 with fault := some (.mapReadonly 1) }, _, .mapReadonly 1, rfl,
   next_after (by decide +kernel)⟩

theorem witness_stepKeepsInvariant : ∃ s u : State, s.inv = true ∧ step s = .next u :=
  ⟨issuing [.word 0x40011801] c0, _, by decide +kernel, next_after (by decide +kernel)⟩

theorem witness_resetMeetsInvariant : ∃ c : Config, c.wellFormed = true := ⟨ex, by decide +kernel⟩

/-- Two states alike in the block, with other traces; a list that completes and one that ends in a fault. -/
theorem witness_commandsSeeOnlyTheBlock : ∃ s t : State, Alike s t ∧ s ≠ t ∧
    (∃ u, execAll [.write 0x1801 0x01, .read 0x4000] s = .next u) ∧
    ∃ r, execAll [.mapw 0xC0 0xC0 2, .read 0x4000] s = .fault r := by
  refine ⟨c0, { c0 with ev := [.mbxDone] }, ⟨rfl, rfl, rfl, rfl, rfl, rfl, rfl, rfl, rfl, rfl⟩, fun h => ?_,
    ⟨_, next_after (by decide +kernel)⟩, ⟨.stopped (.mapReadonly 1), ?_⟩⟩
  · have := congrArg State.ev h
    cases this
  · have h1 : exec (.mapw 0xC0 0xC0 2) c0 = .next (run1 (.mapw 0xC0 0xC0 2) c0) := next_after (by decide +kernel)
    have h2 : (run1 (.mapw 0xC0 0xC0 2) c0).fault = some (.mapReadonly 1) := by decide +kernel
    unfold execAll
    rw [h1]
    unfold execAll exec
    unfold execRead State.command
    simp only [h2]

/-- A command that completes, and a word in a faulted state. -/
theorem witness_stepRunsDecodedCommand : (∃ (s u : State) (w : BitVec 32) (i : Instr), s.takesEntry (.word w) ∧
      decode w = some i ∧ exec i s = .next u) ∧
    ∃ (s : State) (w : BitVec 32) (i : Instr) (r : Fault), s.takesEntry (.word w) ∧ decode w = some i ∧
      exec i s = .fault r :=
  ⟨⟨issuing [.word 0x00004105] c0, _, 0x00004105, .read 0x4105, takes_entry rfl rfl, by decide,
    next_after (by decide +kernel)⟩,
   ⟨{ issuing [.word 0xC002C0C0, .word 0x00004105] c0 with fault := some (.mapReadonly 1) }, 0x00004105, .read 0x4105,
    .stopped (.mapReadonly 1), takes_entry rfl rfl, by decide, rfl⟩⟩

/-- A faulted state, and one with boot pending. -/
theorem witness_resetValues : (∃ s u : State, s.takesEntry (.host .reset) ∧ s.fault ≠ none ∧ step s = .next u) ∧
    ∃ s : State, s.takesEntry (.host .reset) ∧ s.phase = .boot ∧ s.fault = none :=
  ⟨⟨{ issuing [.word 0xC002C0C0, .host .reset] c0 with fault := some (.mapReadonly 1) }, _, takes_entry rfl rfl,
    by decide, next_after (by decide +kernel)⟩, issuing [.host .reset] ex0, ⟨rfl, fun _ _ => rfl⟩, rfl, rfl⟩

/-- EX meets the constraints; with an empty window it does not. -/
theorem witness_illFormedConfigurationRefused : ex.meetsConstraints ∧
    ¬ Config.meetsConstraints { ex with banks := [{ exBank0 with winStart := 0x30 }] } := by
  have targets : ∀ e ∈ ex.targets, e.1 = 0#14 → e.2 = .discard := by decide +kernel
  have windows : ∀ b ∈ ex.banks, b.winStart ≤ b.winEnd := by decide +kernel
  have glue : ex.glueOutsideWindows = true := by decide +kernel
  have tables : ∀ b ∈ ex.banks, ∀ e ∈ b.table, checkTarget ex .R b.winStart b.winEnd e.2.1 = none ∧
      checkTarget ex .W b.winStart b.winEnd e.2.2 = none := by decide +kernel
  have inits : ∀ b ∈ ex.buffers, Cells.wf b.len b.init = true := by decide +kernel
  have mask : ex.ctrlAStartMask ≠ 0#8 := by decide +kernel
  have accepted : (State.resetWith ex 0).cfg.wellFormed = true := by
    rw [State.resetWith_cfg]
    exact test_wf_ex.1
  have boots := State.boot_completes accepted (State.resetWith_inflight ..) (State.resetWith_fault ..)
  have boot := step_of_boot (State.resetWith_phase ex 0) (State.resetWith_fault ..)
    (by rw [State.resetWith_input]; exact nofun)
  exact ⟨⟨rfl, targets, windows, fun _ ha _ hb => window_clear glue ha hb, tables, ⟨_, boot, boots⟩,
    List.cons_ne_nil _ _, mask, inits⟩, fun h => absurd (h.2.2.1 _ (.head _)) (by decide)⟩

theorem witness_bootGivesCanonicalTable : ∃ s : State, s.cfg.wellFormed = true ∧ s.phase = .boot ∧ s.fault = none ∧
    ¬ s.takesEntry (.host .reset) ∧ s.inflight = [] ∧ ∀ side p, s.descAt side p = .discard := by
  refine ⟨ex0, by decide +kernel, rfl, rfl, (fun h => nomatch h.1), rfl, fun side p => ?_⟩
  have h : tableAt allDiscard p = .discard := by
    unfold tableAt allDiscard
    exact Vector.getElem_replicate _
  cases side <;> exact h

theorem witness_snapshotContents : ∃ s : State, s.takesEntry (.host .snapshot) ∧ s.fault = none :=
  ⟨issuing [.host .snapshot] c0, takes_entry rfl rfl, rfl⟩

theorem witness_restoreRebuildsTheTable : ∃ (s : State) (p : Snapshot), s.inv = true ∧ s.fault = none ∧
    s.takesEntry (.host .restore) ∧ s.saved = some p :=
  ⟨{ issuing [.host .restore] c0 with saved := some ⟨[(0, 0x1234)], [1, 2], true⟩ }, ⟨[(0, 0x1234)], [1, 2], true⟩,
   by decide +kernel, rfl, takes_entry rfl rfl, rfl⟩

/-- C0 has the canonical table. -/
theorem witness_snapshotRestoreRoundTrip : ∃ s t : State, s.inv = true ∧ s.fault = none ∧
    (∀ side p, s.descAt side p = canonicalAt s.cfg s.bank side p) ∧ t.cfg = s.cfg ∧ t.inflight = [] ∧
    t.bufs = s.bufs ∧ t.draws = s.draws ∧ t.startLevel ≠ s.startLevel := by
  refine ⟨c0, { c0 with startLevel := true, bank := [3, 3] }, test_inv_c0, rfl, fun side p => ?_, rfl, rfl, rfl, rfl,
    by decide⟩
  have h : (List.range 256).all (fun n => [Side.R, Side.W].all fun side =>
      decide (c0.descAt side (BitVec.ofNat 8 n) = canonicalAt c0.cfg c0.bank side (BitVec.ofNat 8 n))) = true := by
    decide +kernel
  rw [List.all_eq_true] at h
  have := h p.toNat (List.mem_range.mpr p.isLt)
  rw [List.all_eq_true] at this
  have := this side (by cases side <;> simp)
  rwa [BitVec.ofNat_toNat, BitVec.setWidth_eq, decide_eq_true_eq] at this

end Sys2Proof.Tests
end

-- Family 00_scope: which configurations power-up accepts.
section
/-! SUPPORT. The checks of `Config.wellFormed` in the spec's words (00_scope R7, R8), and boot from a reset state. -/

namespace Sys2Proof.Machine

/-! ## Each check as the constraint it decides -/

/-- 00_scope R8 (a). That handle 0 itself names Discard holds of every configuration (10_state R23). -/
theorem Config.targetZeroOk_iff (c : Config) :
    c.targetZeroOk = true ↔ ∀ e ∈ c.targets, e.1 = 0#14 → e.2 = .discard := by
  unfold Config.targetZeroOk
  simp only [List.all_eq_true, Bool.or_eq_true, Bool.not_eq_true', decide_eq_false_iff_not, decide_eq_true_eq,
    imp_iff_not_or]

/-- 00_scope R8 (b). -/
theorem Config.windowsOk_iff (c : Config) : c.windowsOk = true ↔ ∀ b ∈ c.banks, b.winStart ≤ b.winEnd := by
  unfold Config.windowsOk
  simp only [List.all_eq_true, decide_eq_true_eq]

/-- 00_scope R8 (c). -/
theorem Config.glueOutsideWindows_iff (c : Config) : c.glueOutsideWindows = true ↔
    ∀ a ∈ glueAddrs c, ∀ b ∈ c.banks, ¬ (b.winStart ≤ pageOf a ∧ pageOf a ≤ b.winEnd) := by
  unfold Config.glueOutsideWindows
  simp only [List.all_eq_true, Bool.not_eq_true', ← Bool.not_eq_true, inRange_iff]

/-- 00_scope R8 (d), first half. -/
theorem Config.bankTablesOk_iff (c : Config) : c.bankTablesOk = true ↔
    ∀ b ∈ c.banks, ∀ e ∈ b.table, checkTarget c .R b.winStart b.winEnd e.2.1 = none ∧
      checkTarget c .W b.winStart b.winEnd e.2.2 = none := by
  unfold Config.bankTablesOk
  simp only [List.all_eq_true, Bool.and_eq_true, Option.isNone_iff_eq_none]

/-- 00_scope R7, on NUM_BS and CTRL_A_START_MASK. -/
theorem Config.parametersOk_iff (c : Config) :
    c.parametersOk = true ↔ c.banks ≠ [] ∧ c.ctrlAStartMask ≠ 0#8 := by
  unfold Config.parametersOk
  simp only [Bool.and_eq_true, Bool.not_eq_true', List.isEmpty_eq_false_iff, decide_eq_true_eq]

theorem Config.initOk_iff (c : Config) :
    c.initOk = true ↔ ∀ b ∈ c.buffers, Cells.wf b.len b.init = true := by
  unfold Config.initOk
  exact List.all_eq_true

/-! ## Boot from a reset state -/

/-- The first step after a reset with nothing issued is boot (70_reset_and_hazards R232). -/
theorem step_resetWith (c : Config) (n : Nat) : step (State.resetWith c n) = .next (State.resetWith c n).boot :=
  step_of_boot (State.resetWith_phase c n) (State.resetWith_fault c n) (by simp)

theorem BootReady.resetWith (c : Config) (n : Nat) :
    BootReady c (c.banks.map BankSelect.resetBank) (State.resetWith c n) :=
  ⟨State.resetWith_cfg c n, State.resetWith_inflight c n, State.resetWith_bank c n⟩

/-- The entry-by-entry check of BOOT_MAP asks for no more than boot itself does (00_scope R8 (d), log 18). -/
theorem Config.bootMapOk_of_boot {c : Config} {n : Nat} (h : (State.resetWith c n).boot.fault = none) :
    c.bootMapOk = true :=
  State.bootMapOk_of_bootPlatform (BootReady.resetWith c n) (State.resetWith_fault c n)
    (State.bootPlatform_of_boot h)

/-! ## Power-up -/

/-- A well-formed configuration meets the constraints of 00_scope R7 and R8. -/
theorem Config.meetsConstraints_of_wellFormed {c : Config} (h : c.wellFormed = true) : c.meetsConstraints := by
  have boots : (State.resetWith c 0).boot.fault = none ∧ (State.resetWith c 0).boot.phase = .run :=
    State.boot_completes (by rwa [State.resetWith_cfg]) (State.resetWith_inflight c 0) (State.resetWith_fault c 0)
  obtain ⟨hzero, hwin, hglue, htab, -, hpar, hinit⟩ := (Config.wellFormed_iff c).mp h
  obtain ⟨hbanks, hmask⟩ := (Config.parametersOk_iff c).mp hpar
  exact ⟨rfl, (Config.targetZeroOk_iff c).mp hzero, (Config.windowsOk_iff c).mp hwin,
    (Config.glueOutsideWindows_iff c).mp hglue, (Config.bankTablesOk_iff c).mp htab, ⟨_, step_resetWith c 0, boots⟩,
    hbanks, hmask, (Config.initOk_iff c).mp hinit⟩

/-- A configuration that meets the constraints of 00_scope R7 and R8 is well formed. The one that is no check of its own
is the boot that completes: it makes BOOT_MAP a good one. -/
theorem Config.wellFormed_of_meetsConstraints {c : Config} (h : c.meetsConstraints) : c.wellFormed = true := by
  obtain ⟨-, hzero, hwin, hglue, htab, ⟨u, hstep, hfault, -⟩, hbanks, hmask, hinit⟩ := h
  have hboot : (State.resetWith c 0).boot.fault = none := by
    obtain rfl : (State.resetWith c 0).boot = u := by
      rw [step_resetWith] at hstep
      exact Host.Outcome.next.inj hstep
    exact hfault
  exact (Config.wellFormed_iff c).mpr ⟨(Config.targetZeroOk_iff c).mpr hzero, (Config.windowsOk_iff c).mpr hwin,
    (Config.glueOutsideWindows_iff c).mpr hglue, (Config.bankTablesOk_iff c).mpr htab, Config.bootMapOk_of_boot hboot,
    (Config.parametersOk_iff c).mpr ⟨hbanks, hmask⟩, (Config.initOk_iff c).mpr hinit⟩

theorem powerUp_of_wellFormed {c : Config} (h : c.wellFormed = true) : powerUp c = .next (State.resetWith c 0) :=
  if_pos h

theorem powerUp_of_not_wellFormed {c : Config} (h : ¬ c.wellFormed = true) : powerUp c = .refused .illFormedConfig :=
  if_neg h

/-- Settles O52: the checks of power-up and the constraints ask for the same, boot included. -/
theorem illFormedConfigurationRefused : Obligations.IllFormedConfigurationRefused := by
  unfold Obligations.IllFormedConfigurationRefused
  exact fun c => ⟨fun h => powerUp_of_wellFormed (Config.wellFormed_of_meetsConstraints h),
    fun h => powerUp_of_not_wellFormed (mt Config.meetsConstraints_of_wellFormed h)⟩

end Sys2Proof.Machine
end
-- Family 10_state: what one step can do, the invariant, and which steps write what.
section
/-! SUPPORT. A step inverted: boot, idle, a host action, or one command with its effect. -/

namespace Sys2Proof.Machine

/-! ## The entry a step takes -/

/-- An entry is taken where it stands at the cursor and boot is not what this step runs (70_reset_and_hazards R230,
R232). -/
theorem State.takesEntry_iff (s : State) (x : Input) :
    s.takesEntry x ↔ s.bootsNext ≠ true ∧ s.input[s.cursor]? = some x := by
  unfold State.takesEntry
  rw [Ne, State.bootsNext_iff]
  constructor
  · rintro ⟨hx, hreset⟩
    refine ⟨fun ⟨hp, hf, hne⟩ => hne ?_, hx⟩
    rw [hx, hreset hp hf]
  · rintro ⟨hb, hx⟩
    refine ⟨hx, fun hp hf => ?_⟩
    by_contra hne
    exact hb ⟨hp, hf, by rwa [hx, Ne, Option.some_inj]⟩

theorem step_of_takesEntry {s : State} {x : Input} (h : s.takesEntry x) : step s = s.issue x := by
  obtain ⟨hb, hx⟩ := (State.takesEntry_iff s x).mp h
  exact step_of_entry hb hx

/-! ## Map procedures, faults included -/

/-- What every map procedure does: it writes the page table and FAULT at most, and only descriptors that pass the
map-time checks (40_mapping R100, R104). -/
structure MapRel (s t : State) : Prop where
  frame : TablesOnly s t
  tables : s.tablesOk = true → t.tablesOk = true

theorem MapRel.refl (s : State) : MapRel s s := ⟨TablesOnly.refl s, id⟩

theorem MapRel.trans {s t u : State} (h : MapRel s t) (h' : MapRel t u) : MapRel s u :=
  ⟨h.frame.trans h'.frame, h'.tables ∘ h.tables⟩

theorem MapRel.andThen {s : State} {rest : State → State} (h : ∀ t, MapRel t (rest t)) :
    MapRel s (s.andThen rest) := by
  rcases State.andThen_cases s rest with ⟨-, e⟩ | ⟨-, e⟩ <;> rw [e]
  · exact h s
  · exact MapRel.refl s

theorem MapRel.forEach {α : Type} {xs : List α} {body : α → State → State} (h : ∀ x s, MapRel s (body x s))
    (s : State) : MapRel s (State.forEach xs body s) :=
  State.forEach_rel (R := MapRel) MapRel.refl (fun _ _ _ => MapRel.trans) (fun x _ => h x) s

/-- Good descriptors stay good where the configuration and the page table stay. -/
theorem State.tablesOk_congr {s t : State} (hc : t.cfg = s.cfg) (hR : t.ptR = s.ptR) (hW : t.ptW = s.ptW) :
    t.tablesOk = s.tablesOk := by
  unfold State.tablesOk
  rw [hc, hR, hW]

theorem State.raise_mapRel (f : ModelFault) (s : State) : MapRel s (s.raise f) := ⟨rfl, id⟩

/-- Pages mapped to a target that passes the map-time checks get good descriptors (10_state R29). -/
theorem State.tablesOk_setPages {side : Side} {ps pe : Page} {t : TargetSpec} {s : State}
    (hc : checkTarget s.cfg side ps pe t = none) (h : s.tablesOk = true) :
    (s.setPages side ps pe t).tablesOk = true := by
  have hcfg : (s.setPages side ps pe t).cfg = s.cfg := by cases side <;> rfl
  obtain ⟨hR, hW⟩ := (State.tablesOk_iff s).mp h
  have good (p : Page) (hp : inRange ps pe p = true) :
      (side = .R → readDescOk s.cfg (desc t ps p) = true) ∧
        (side = .W → writeDescOk s.cfg (desc t ps p) = true) :=
    desc_ok hc ((inRange_iff ps pe p).mp hp).1 ((inRange_iff ps pe p).mp hp).2
  rw [State.tablesOk_iff, hcfg]
  constructor <;> intro p <;> rw [State.descAt_setPages] <;> split
  · next hp => exact (good p hp.2).1 hp.1.symm
  · exact hR p
  · next hp => exact (good p hp.2).2 hp.1.symm
  · exact hW p

theorem State.mapSide_mapRel (side : Side) (ps pe : Page) (t : TargetSpec) (s : State) :
    MapRel s (s.mapSide side ps pe t) := by
  refine ⟨State.mapSide_tablesOnly side ps pe t s, ?_⟩
  rcases State.mapSide_cases side ps pe t s with ⟨-, e⟩ | ⟨-, f, -, e⟩ | ⟨-, -, p, -, e⟩ | ⟨-, hc, -, e⟩ <;> rw [e]
  · exact id
  · exact (s.raise_mapRel f).tables
  · exact (s.raise_mapRel _).tables
  · exact State.tablesOk_setPages hc

theorem State.mapHandle_mapRel (side : Side) (ps pe : Page) (h : Handle) (s : State) :
    MapRel s (s.mapHandle side ps pe h) := by
  cases ht : targetOf s.cfg h with
  | none => rw [State.mapHandle_of_none ht]; exact s.raise_mapRel _
  | some t => rw [State.mapHandle_of_some ht]; exact s.mapSide_mapRel side ps pe t

theorem State.mapCall_mapRel (side : Side) (ps pe : Int) (t : TargetSpec) (s : State) :
    MapRel s (s.mapCall side ps pe t) := by
  unfold State.mapCall
  split
  · exact s.mapSide_mapRel ..
  · exact s.raise_mapRel _

theorem State.applyBank_mapRel (k : Nat) (s : State) : MapRel s (s.applyBank k) := by
  rcases Option.eq_none_or_eq_some s.cfg.banks[k]? with hb | ⟨b, hb⟩
  · rw [State.applyBank_of_none hb]
    exact MapRel.refl s
  · rw [State.applyBank_of_some hb]
    exact (s.mapSide_mapRel ..).trans (MapRel.andThen fun t => t.mapSide_mapRel ..)

theorem State.bootCommand_mapRel (e : BootEntry) (s : State) : MapRel s (s.bootCommand e) := by
  unfold State.bootCommand
  cases e.target with
  | handle t => exact s.mapHandle_mapRel ..
  | spec t => exact s.mapSide_mapRel ..

theorem State.bootSteps_mapRel (s : State) : MapRel s s.bootSteps := by
  have platform : MapRel s s.bootPlatform := MapRel.forEach State.bootCommand_mapRel s
  have glue (t : State) : MapRel t t.bootGlue :=
    MapRel.forEach (fun g u => u.mapSide_mapRel .W g g (.handler .glue)) t
  have windows (t : State) : MapRel t t.bootWindows := MapRel.forEach State.applyBank_mapRel t
  exact (platform.trans (MapRel.andThen glue)).trans (MapRel.andThen windows)

/-! ## The commands and host actions -/

/-- The call's argument masked to n bits (20_memory R53). -/
theorem toNat_ofInt_eq_emod (n : Nat) (i : Int) : i % ((2 ^ n : Nat) : Int) = ((BitVec.ofInt n i).toNat : Int) := by
  rw [BitVec.toNat_ofInt, Int.toNat_of_nonneg]
  exact Int.emod_nonneg i (by positivity)

/-- What the issue of one entry can do: an action of the host; or a READ, a WRITE or a map command, as a word or as a
call, and then the move of the position. -/
inductive Issued (s : State) : Input → State → Prop
  | reset : Issued s (.host .reset) s.hostReset
  | snapshot (hf : s.fault = none) :
      Issued s (.host .snapshot) (State.advance { s with returned := none, saved := some s.snapshot })
  | restore {p : Snapshot} (hf : s.fault = none) (hp : s.saved = some p) :
      Issued s (.host .restore) (s.restore p).advance
  | read {x : Input} {a : Addr} {v : State} (h : exec (.read a) s = .next v) : Issued s x v.advance
  | write {x : Input} {a : Addr} {d : Byte} {v : State} (hx : x.isWrite a d) (h : exec (.write a d) s = .next v) :
      Issued s x v.advance
  | map {x : Input} {v : State} (hx : x.isMap) (hf : s.fault = none) (h : MapRel { s with returned := none } v) :
      Issued s x v.advance

theorem Issued.of_word {s v : State} {w : BitVec 32} {i : Instr} (hi : decode w = some i) (h : exec i s = .next v) :
    Issued s (.word w) v.advance := by
  have hf := exec_next_fault h
  cases i with
  | read a => exact .read h
  | write a d => exact .write (.inl ⟨w, rfl, hi⟩) h
  | mapr ps pe t =>
    rw [exec_mapr hf] at h
    cases h
    exact .map (.inl ⟨w, .R, ps, pe, t, rfl, hi⟩) hf (State.mapHandle_mapRel ..)
  | mapw ps pe t =>
    rw [exec_mapw hf] at h
    cases h
    exact .map (.inl ⟨w, .W, ps, pe, t, rfl, hi⟩) hf (State.mapHandle_mapRel ..)

theorem Issued.of_call {s v : State} {c : Call} (h : execCall c s = .next v) : Issued s (.call c) v.advance := by
  cases c with
  | read addr => exact .read (a := BitVec.ofInt 16 addr) h
  | write addr val =>
    exact .write (.inr ⟨addr, val, rfl, toNat_ofInt_eq_emod 16 addr, toNat_ofInt_eq_emod 8 val⟩) h
  | mapRead ps pe t =>
    simp only [execCall] at h
    obtain ⟨hf, e⟩ := State.command_next h
    cases e
    exact .map (.inr ⟨.R, ps, pe, t, rfl⟩) hf (State.mapCall_mapRel ..)
  | mapWrite ps pe t =>
    simp only [execCall] at h
    obtain ⟨hf, e⟩ := State.command_next h
    cases e
    exact .map (.inr ⟨.W, ps, pe, t, rfl⟩) hf (State.mapCall_mapRel ..)

theorem Issued.of_host {s u : State} {a : HostAction} (h : s.hostAct a = .next u) : Issued s (.host a) u := by
  cases a with
  | reset =>
    cases h
    exact .reset
  | snapshot =>
    simp only [State.hostAct] at h
    obtain ⟨hf, e⟩ := State.command_next h
    cases e
    exact .snapshot hf
  | restore =>
    simp only [State.hostAct] at h
    obtain ⟨hf, e⟩ := State.command_next h
    split at e
    · cases e
    · next p hp =>
      cases e
      exact .restore hf hp

theorem State.issue_next {s u : State} {x : Input} (h : s.issue x = .next u) : Issued s x u := by
  cases x with
  | word w =>
    cases hi : decode w with
    | none => simp [State.issue, hi] at h
    | some i =>
      simp only [State.issue, hi] at h
      obtain ⟨v, hv, rfl⟩ := advanced_next h
      exact .of_word hi hv
  | call c =>
    obtain ⟨v, hv, rfl⟩ := advanced_next h
    exact .of_call hv
  | host a => exact .of_host h

theorem issued_of_takesEntry {s u : State} {x : Input} (hx : s.takesEntry x) (h : step s = .next u) :
    Issued s x u := by
  rw [step_of_takesEntry hx] at h
  exact State.issue_next h

/-- The ways a step answers a next state: boot, idle at the end of the input, or the issue of the entry it takes. -/
theorem step_next {s u : State} (h : step s = .next u) :
    (s.fault = none ∧ u = s.boot) ∨ (s.fault = none ∧ u = s) ∨ ∃ x, s.takesEntry x ∧ Issued s x u := by
  rcases step_cases h with ⟨hb, e⟩ | ⟨-, hf, e⟩ | ⟨x, hb, hx, hi⟩
  · exact .inl ⟨((State.bootsNext_iff s).mp hb).2.1, e⟩
  · exact .inr (.inl ⟨hf, e⟩)
  · exact .inr (.inr ⟨x, (State.takesEntry_iff s x).mpr ⟨hb, hx⟩, State.issue_next hi⟩)

end Sys2Proof.Machine
end

section
/-! SUPPORT. The invariant: what every command and boot keep of it, and the states a reset, a snapshot and a restore
leave. -/

namespace Sys2Proof.Machine

/-! ## The page table through a glue write -/

theorem State.tablesOk_bankSelectWrite {s : State} (h : s.tablesOk = true) (k : Nat) (d : Byte) :
    (s.bankSelectWrite k d).tablesOk = true := by
  rcases Option.eq_none_or_eq_some s.cfg.banks[k]? with hb | ⟨b, hb⟩
  · rwa [State.bankSelectWrite_of_none hb]
  · rw [State.bankSelectWrite_of_some hb]
    exact (State.applyBank_mapRel k _).tables h

theorem State.tablesOk_bankSelects {s : State} (h : s.tablesOk = true) (a : Addr) (d : Byte) :
    (s.bankSelects a d).tablesOk = true := by
  refine State.forEach_rel (R := fun s t => s.tablesOk = true → t.tablesOk = true) (fun _ => id)
    (fun _ _ _ h1 h2 => h2 ∘ h1) (fun k _ t ht => ?_) s h
  split
  · exact State.tablesOk_bankSelectWrite ht k d
  · exact ht

theorem State.tablesOk_glueTail (a : Addr) (d : Byte) (s : State) : (s.glueTail a d).tablesOk = s.tablesOk :=
  State.tablesOk_congr (s.glueTail_glueRel a d).cfg (s.glueTail_tables a d).1 (s.glueTail_tables a d).2

theorem State.tablesOk_glueWrite {s : State} (h : s.tablesOk = true) (a : Addr) (d : Byte) :
    (s.glueWrite a d).tablesOk = true := by
  have hb := State.tablesOk_bankSelects h a d
  rw [State.glueWrite_eq]
  rcases State.andThen_cases (s.bankSelects a d) (State.glueTail a d) with ⟨-, e⟩ | ⟨-, e⟩ <;> rw [e]
  · rwa [State.tablesOk_glueTail]
  · exact hb

/-! ## What a command keeps -/

/-- What every command and boot keep, part by part of the invariant, with the growth of the trace (10_state R25, R28 to
R37). A fault inside a glue WRITE leaves its access in flight (log 26). -/
structure Keeps (s t : State) : Prop where
  cfg : t.cfg = s.cfg
  grows : ∃ es, t.ev = s.ev ++ es
  saved : t.saved = s.saved
  banks : t.bank.length = s.bank.length
  memory : Memory.wf s = true → Memory.wf t = true
  tables : s.tablesOk = true → t.tablesOk = true
  inflight : t.fault = none → t.inflight = s.inflight

theorem State.savedOk_congr {s t : State} (hc : t.cfg = s.cfg) (hs : t.saved = s.saved) : t.savedOk = s.savedOk := by
  unfold State.savedOk
  rw [hc, hs]

theorem Keeps.inv {s t : State} (k : Keeps s t) (hf : s.fault = none) (h : s.inv = true) : t.inv = true := by
  obtain ⟨hcfg, hmem, hbank, htab, hquiet, hsaved⟩ := (State.inv_iff s).mp h
  refine (State.inv_iff t).mpr ⟨by rwa [k.cfg], k.memory hmem, by rw [k.banks, k.cfg, hbank], k.tables htab,
    (State.quiet_iff t).mpr fun ht => ?_, by rwa [State.savedOk_congr k.cfg k.saved]⟩
  rw [k.inflight ht]
  exact (State.quiet_iff s).mp hquiet hf

/-- What a command returns is no part of the invariant. -/
theorem Keeps.returned (s : State) (r : Option Byte) : Keeps s { s with returned := r } :=
  ⟨rfl, ⟨[], by simp⟩, rfl, rfl, id, id, fun _ => rfl⟩

theorem Keeps.refl (s : State) : Keeps s s := Keeps.returned s s.returned

/-- A command begins by returning nothing. -/
theorem Keeps.of_cleared {s t : State} (k : Keeps { s with returned := none } t) : Keeps s t :=
  ⟨k.cfg, k.grows, k.saved, k.banks, k.memory, k.tables, k.inflight⟩

/-- A command ends with the move of the position. -/
theorem Keeps.advance {s t : State} (k : Keeps s t) : Keeps s t.advance := by
  rw [State.advance_eq]
  exact ⟨k.cfg, k.grows, k.saved, k.banks, k.memory, k.tables, k.inflight⟩

theorem MapRel.keeps {s t : State} (h : MapRel s t) : Keeps s t := by
  obtain ⟨frame, tables⟩ := h
  refine ⟨frame.cfg, ⟨[], by simp [frame.ev]⟩, frame.saved, by rw [frame.bank], fun hm => ?_, tables,
    fun _ => frame.inflight⟩
  rwa [Memory.wf_iff, frame.cfg, frame.bufs, frame.mbxRam, ← Memory.wf_iff]

theorem State.boot_keeps (s : State) : Keeps s s.boot := by
  have k := s.bootSteps_mapRel.keeps
  unfold State.boot
  dsimp only
  split
  · exact ⟨k.cfg, k.grows, k.saved, k.banks, k.memory, k.tables, k.inflight⟩
  · exact k

theorem read_keeps {s u : State} {a : Addr} (h : exec (.read a) s = .next u) : Keeps s u := by
  obtain ⟨-, ⟨-, rfl⟩ | ⟨buf, off, -, -, rfl⟩ | ⟨woff, -, rfl⟩ | ⟨id', -, rfl⟩⟩ := read_cases h
  · exact Keeps.returned s _
  · exact Keeps.returned s _
  · exact Keeps.returned s _
  · exact ⟨rfl, ⟨_, rfl⟩, rfl, rfl, id, id, fun _ => rfl⟩

/-- A WRITE through the glue pops the access it pushed, unless it faulted (41_access R123, R127). -/
theorem State.glueAccess_keeps (a : Addr) (d : Byte) (s : State) : Keeps s (s.glueAccess a d) := by
  have g := State.glueWrite_glueRel a d (s.push .W (pageOf a))
  have memory (hm : Memory.wf s = true) : Memory.wf (State.glueWrite a d (s.push .W (pageOf a))) = true := by
    obtain ⟨hbufs, hram⟩ := (Memory.wf_iff s).mp hm
    rw [Memory.wf_iff, g.cfg, g.bufs]
    exact ⟨hbufs, g.ram hram⟩
  have tables (ht : s.tablesOk = true) : (State.glueWrite a d (s.push .W (pageOf a))).tablesOk = true :=
    State.tablesOk_glueWrite (s := s.push .W (pageOf a)) ht a d
  rcases glueAccess_cases a d s with ⟨-, e⟩ | ⟨hf, e⟩ <;> rw [e]
  · exact ⟨g.cfg, g.grows, g.saved, g.banks, memory, tables, fun _ => by simp [g.inflight]⟩
  · exact ⟨g.cfg, g.grows, g.saved, g.banks, memory, tables, fun hn => absurd hn hf⟩

theorem write_keeps {s u : State} {a : Addr} {d : Byte} (h : exec (.write a d) s = .next u) : Keeps s u := by
  obtain ⟨-, ⟨-, rfl⟩ | ⟨buf, off, -, hb, rfl⟩ | ⟨woff, -, rfl⟩ | ⟨id', -, rfl⟩ | ⟨-, rfl⟩⟩ := write_cases h
  · exact Keeps.returned s none
  · exact ⟨rfl, ⟨[], by simp⟩, rfl, rfl, fun hm => Memory.wf_bufWrite (s := { s with returned := none }) hm hb d, id,
      fun _ => rfl⟩
  · exact ⟨by simp, ⟨[], by simp⟩, by simp, by simp,
      fun hm => Memory.wf_mbxWrite (s := { s with returned := none }) hm _ _,
      fun ht => (State.tablesOk_congr (s := s) (by simp) (by simp) (by simp)).trans ht, fun _ => by simp⟩
  · exact ⟨rfl, ⟨_, rfl⟩, rfl, rfl, id, id, fun _ => rfl⟩
  · exact (State.glueAccess_keeps a d { s with returned := none }).of_cleared

/-! ## Reset, snapshot and restore -/

theorem State.tablesOk_of_discard {s : State} (hR : s.ptR = allDiscard) (hW : s.ptW = allDiscard) :
    s.tablesOk = true := by
  rw [State.tablesOk_iff]
  simp only [State.descAt, hR, hW, tableAt_allDiscard]
  exact ⟨fun _ => rfl, fun _ => rfl⟩

/-- The state after reset meets the invariant (10_state R41, 70_reset_and_hazards R230). -/
theorem State.inv_resetWith {c : Config} (hc : c.wellFormed = true) (n : Nat) :
    (State.resetWith c n).inv = true := by
  refine (State.inv_iff _).mpr ⟨hc, Memory.wf_resetWith hc n, by simp, ?_, rfl, rfl⟩
  exact State.tablesOk_of_discard (State.resetWith_ptR c n) (State.resetWith_ptW c n)

/-- A reset by the host keeps its snapshot, which is one of the same configuration (log 12). -/
theorem State.inv_hostReset {s : State} (h : s.inv = true) : s.hostReset.inv = true := by
  obtain ⟨hcfg, -, -, -, -, hsaved⟩ := (State.inv_iff s).mp h
  obtain ⟨hc, hmem, hbank, htab, hquiet, -⟩ := (State.inv_iff _).mp (State.inv_resetWith hcfg s.draws)
  exact (State.inv_iff _).mpr ⟨hc, hmem, hbank, htab, hquiet, hsaved⟩

theorem Snapshot.wf_iff (c : Config) (p : Snapshot) :
    p.wf c = true ↔ Cells.wf (n := 16) mbxRamWords p.mbx = true ∧ p.bank.length = c.banks.length := by
  unfold Snapshot.wf
  rw [Bool.and_eq_true, decide_eq_true_eq]

theorem State.wf_of_saved {s : State} {p : Snapshot} (h : s.savedOk = true) (hp : s.saved = some p) :
    p.wf s.cfg = true := by
  simpa only [State.savedOk, hp] using h

/-- A snapshot of a state that meets the invariant is one of its configuration (70_reset_and_hazards R236). -/
theorem State.inv_saved_snapshot {s : State} (h : s.inv = true) :
    State.inv { s with returned := none, saved := some s.snapshot } = true := by
  obtain ⟨hc, hmem, hbank, htab, hquiet, -⟩ := (State.inv_iff s).mp h
  exact (State.inv_iff _).mpr ⟨hc, hmem, hbank, htab, hquiet,
    (Snapshot.wf_iff ..).mpr ⟨((Memory.wf_iff s).mp hmem).2, hbank⟩⟩

/-- A restore puts the parts of a snapshot of this machine in place and goes through the steps of boot
(70_reset_and_hazards R237). -/
theorem State.inv_restore {s : State} {p : Snapshot} (h : s.inv = true) (hf : s.fault = none)
    (hp : s.saved = some p) : (s.restore p).inv = true := by
  obtain ⟨hc, hmem, -, -, hquiet, hsaved⟩ := (State.inv_iff s).mp h
  obtain ⟨hram, hbank⟩ := (Snapshot.wf_iff ..).mp (State.wf_of_saved hsaved hp)
  refine (State.bootSteps_mapRel _).keeps.inv rfl ((State.inv_iff _).mpr ⟨hc, ?_, hbank,
    State.tablesOk_of_discard rfl rfl, (State.quiet_iff _).mpr fun _ => (State.quiet_iff s).mp hquiet hf, hsaved⟩)
  exact (Memory.wf_iff _).mpr ⟨((Memory.wf_iff s).mp hmem).1, hram⟩

theorem State.restore_ev (p : Snapshot) (s : State) : (s.restore p).ev = s.ev := by rw [State.restore_frame]

theorem State.restore_cfg (p : Snapshot) (s : State) : (s.restore p).cfg = s.cfg := by rw [State.restore_frame]

theorem State.restore_bufs (p : Snapshot) (s : State) : (s.restore p).bufs = s.bufs := by rw [State.restore_frame]

/-! ## Every step -/

/-- What a step does that is no reset by the host: the configuration stays, the trace grows, and the invariant is
kept. -/
structure Runs (s u : State) : Prop where
  cfg : u.cfg = s.cfg
  grows : ∃ es, u.ev = s.ev ++ es
  inv : s.inv = true → u.inv = true

theorem Keeps.runs {s u : State} (k : Keeps s u) (hf : s.fault = none) : Runs s u := ⟨k.cfg, k.grows, k.inv hf⟩

theorem Runs.advance {s u : State} (r : Runs s u) : Runs s u.advance := by
  rw [State.advance_eq]
  exact ⟨r.cfg, r.grows, r.inv⟩

theorem Issued.runs {s u : State} {x : Input} (h : Issued s x u) :
    (x = .host .reset ∧ u = s.hostReset) ∨ Runs s u := by
  cases h with
  | reset => exact .inl ⟨rfl, rfl⟩
  | snapshot hf => exact .inr (Runs.advance ⟨rfl, ⟨[], by simp⟩, State.inv_saved_snapshot⟩)
  | @restore p hf hp =>
    exact .inr (Runs.advance ⟨State.restore_cfg p s, ⟨[], by simp [State.restore_ev]⟩,
      fun h => State.inv_restore h hf hp⟩)
  | read h => exact .inr ((read_keeps h).runs (exec_next_fault h)).advance
  | write hx h => exact .inr ((write_keeps h).runs (exec_next_fault h)).advance
  | map hx hf h => exact .inr (h.keeps.of_cleared.runs hf).advance

theorem step_runs {s u : State} (h : step s = .next u) :
    (s.takesEntry (.host .reset) ∧ u = s.hostReset) ∨ Runs s u := by
  obtain ⟨hf, rfl⟩ | ⟨hf, rfl⟩ | ⟨x, hx, hi⟩ := step_next h
  · exact .inr (s.boot_keeps.runs hf)
  · exact .inr ((Keeps.refl u).runs hf)
  · exact hi.runs.imp_left fun ⟨e, hu⟩ => ⟨e ▸ hx, hu⟩

/-- Settles O47: boot, every command and every action of the host keep the invariant, faulting ones included. -/
theorem stepKeepsInvariant : Obligations.StepKeepsInvariant := by
  unfold Obligations.StepKeepsInvariant
  intro s u hinv h
  obtain ⟨-, rfl⟩ | r := step_runs h
  · exact State.inv_hostReset hinv
  · exact r.inv hinv

/-- The configuration that stands for the machine at hand is well formed (00_scope R8, log 1). -/
theorem Config.checked_wellFormed (c : Config) : c.checked.wellFormed = true := by
  unfold Config.checked
  split
  · assumption
  · decide

/-- Settles O48: the parts of the invariant at reset, and the configuration of the machine at hand is well formed. -/
theorem resetMeetsInvariant : Obligations.ResetMeetsInvariant := by
  unfold Obligations.ResetMeetsInvariant
  exact ⟨fun _ n hc => State.inv_resetWith hc n, State.inv_resetWith (Config.checked_wellFormed _) 0⟩

/-- Settles O44: a reset keeps the configuration, and so does every other step. -/
theorem configurationNeverChanges : Obligations.ConfigurationNeverChanges := by
  unfold Obligations.ConfigurationNeverChanges
  intro s u h
  obtain ⟨-, rfl⟩ | r := step_runs h
  · rfl
  · exact r.cfg

/-- Settles O45: a reset leaves an empty trace, and every other step appends to it. -/
theorem traceOnlyGrows : Obligations.TraceOnlyGrows := by
  unfold Obligations.TraceOnlyGrows
  intro s u h
  obtain ⟨hx, rfl⟩ | r := step_runs h
  · exact .inr ⟨hx, rfl⟩
  · exact .inl r.grows

/-- A ROM word of Mathbox Memory is the configuration's (10_state R30). -/
theorem State.mbxRead_of_rom (s : State) {w : WordIndex} (hw : 0x2000 ≤ w.toNat) :
    s.mbxRead w = Cells.read s.cfg.mbxRom w.toNat := by
  unfold State.mbxRead
  rw [if_neg (by unfold mbxRamWords; omega)]

/-- Settles O43: ROM words are read from the configuration, which no step changes. -/
theorem mathboxRomIsFixed : Obligations.MathboxRomIsFixed := by
  unfold Obligations.MathboxRomIsFixed
  intro s u h w hw
  rw [u.mbxRead_of_rom hw, s.mbxRead_of_rom hw, configurationNeverChanges s u h]
  exact ⟨rfl, rfl⟩

end Sys2Proof.Machine
end

section
/-! SUPPORT. Who writes BANK, the page table and the buffers, what a fault stops, and the step of a decoded word. -/

namespace Sys2Proof.Machine

/-- A WRITE of a reaches a bank select through the glue (42_register_glue R151). -/
def State.SelectsBank (s : State) (a : Addr) : Prop :=
  ∃ (k : Nat) (b : BankSelect), s.descAt .W (pageOf a) = .handler .glue ∧ s.cfg.banks[k]? = some b ∧ b.addr = a

/-- A WRITE that reaches no bank select leaves BANK and the page table (10_state R27, R32). -/
theorem write_keeps_bank_tables {s u : State} {a : Addr} {d : Byte} (h : exec (.write a d) s = .next u)
    (hn : ¬ s.SelectsBank a) : u.bank = s.bank ∧ u.ptR = s.ptR ∧ u.ptW = s.ptW := by
  obtain ⟨hf, ⟨-, rfl⟩ | ⟨buf, off, -, -, rfl⟩ | ⟨woff, -, rfl⟩ | ⟨id', -, rfl⟩ | ⟨hg, rfl⟩⟩ := write_cases h
  · exact ⟨rfl, rfl, rfl⟩
  · exact ⟨rfl, rfl, rfl⟩
  · simp
  · exact ⟨rfl, rfl, rfl⟩
  · have noBank : ∀ b ∈ s.cfg.banks, b.addr ≠ a := by
      intro b hb ha
      obtain ⟨k, hk⟩ := List.mem_iff_getElem?.mp hb
      exact hn ⟨k, b, hg, hk, ha⟩
    rw [glueAccess_of_no_bank (s := { s with returned := none }) hf noBank]
    simp [State.glueTail_bank, State.glueTail_tables]

/-- A READ leaves BANK, the page table and the buffers (41_access R125). -/
theorem read_keeps_bank_tables_bufs {s u : State} {a : Addr} (h : exec (.read a) s = .next u) :
    u.bank = s.bank ∧ u.ptR = s.ptR ∧ u.ptW = s.ptW ∧ u.bufs = s.bufs := by
  obtain ⟨-, ⟨-, rfl⟩ | ⟨buf, off, -, -, rfl⟩ | ⟨woff, -, rfl⟩ | ⟨id', -, rfl⟩⟩ := read_cases h
  · exact ⟨rfl, rfl, rfl, rfl⟩
  · exact ⟨rfl, rfl, rfl, rfl⟩
  · exact ⟨rfl, rfl, rfl, rfl⟩
  · exact ⟨rfl, rfl, rfl, rfl⟩

/-- An entry that is no reset, no restore and no WRITE that reaches a bank select leaves BANK, and the page table too
unless it is a map. -/
theorem Issued.bank_tables {s u : State} {x : Input} (h : Issued s x u) :
    x = .host .reset ∨ x = .host .restore ∨ (∃ a d, x.isWrite a d ∧ s.SelectsBank a) ∨
      (u.bank = s.bank ∧ (x.isMap ∨ (u.ptR = s.ptR ∧ u.ptW = s.ptW))) := by
  cases h with
  | reset => exact .inl rfl
  | snapshot hf => exact .inr (.inr (.inr (by simp)))
  | restore hf hp => exact .inr (.inl rfl)
  | read h => exact .inr (.inr (.inr (by simp [read_keeps_bank_tables_bufs h])))
  | @write _ a d v hx h =>
    by_cases hs : s.SelectsBank a
    · exact .inr (.inr (.inl ⟨a, d, hx, hs⟩))
    · exact .inr (.inr (.inr (by simp [write_keeps_bank_tables h hs])))
  | map hx hf h => exact .inr (.inr (.inr ⟨by simp [h.frame.bank], .inl hx⟩))

/-- Settles O40: of the entries that are no reset and no restore, only a WRITE that reaches a bank select changes
BANK. -/
theorem bankWriters : Obligations.BankWriters := by
  unfold Obligations.BankWriters
  intro s u x hx h hne
  obtain e | e | ⟨a, d, hw, k, b, hsel⟩ | ⟨hbank, -⟩ := (issued_of_takesEntry hx h).bank_tables
  · exact .inl e
  · exact .inr (.inl e)
  · exact .inr (.inr ⟨a, d, k, b, hw, hsel⟩)
  · exact absurd hbank hne

/-- Settles O41: of the entries that are no reset, no restore and no map, only a WRITE that reaches a bank select changes
a descriptor. -/
theorem pageTableWriters : Obligations.PageTableWriters := by
  unfold Obligations.PageTableWriters
  intro s u x hx h hne
  obtain e | e | ⟨a, d, hw, k, b, hsel⟩ | ⟨-, hmap | htables⟩ := (issued_of_takesEntry hx h).bank_tables
  · exact .inl e
  · exact .inr (.inl e)
  · exact .inr (.inr (.inr ⟨a, d, k, b, hw, hsel⟩))
  · exact .inr (.inr (.inl hmap))
  · exact absurd htables (not_and_or.mpr hne)

theorem State.bufRead_congr {s t : State} (h : t.bufs = s.bufs) (b i : Nat) : t.bufRead b i = s.bufRead b i := by
  unfold State.bufRead
  rw [h]

/-- A WRITE changes a byte of a buffer only where its descriptor names that byte (10_state R28, 41_access R122). -/
theorem write_changes_named_byte {s u : State} {a : Addr} {d : Byte} (h : exec (.write a d) s = .next u) {b i : Nat}
    (hne : u.bufRead b i ≠ s.bufRead b i) :
    ∃ off, s.descAt .W (pageOf a) = .buffer b off ∧ i = off + a.toNat % 256 := by
  obtain ⟨-, ⟨-, rfl⟩ | ⟨buf, off, hd, hb, rfl⟩ | ⟨woff, -, rfl⟩ | ⟨id', -, rfl⟩ | ⟨-, rfl⟩⟩ := write_cases h
  · exact absurd rfl hne
  · obtain ⟨info, -, -, hlen⟩ := (State.bufHas_iff ..).mp hb
    rw [State.bufRead_bufWrite { s with returned := none } _ _ _ _ _ hlen] at hne
    split at hne
    · next e =>
      obtain ⟨rfl, rfl⟩ := e
      exact ⟨off, hd, rfl⟩
    · exact absurd rfl hne
  · exact absurd (State.bufRead_congr (by simp) b i) hne
  · exact absurd rfl hne
  · refine absurd (State.bufRead_congr ?_ b i) hne
    have g := State.glueWrite_glueRel a d (State.push .W (pageOf a) { s with returned := none })
    rcases glueAccess_cases a d { s with returned := none } with ⟨-, e⟩ | ⟨-, e⟩ <;> rw [e]
    · exact g.bufs
    · exact g.bufs

/-- Settles O42: boot and every entry that is no reset and no WRITE leave the buffers. -/
theorem bufferWriters : Obligations.BufferWriters := by
  unfold Obligations.BufferWriters
  intro s u b i hstep hne
  obtain ⟨-, rfl⟩ | ⟨-, rfl⟩ | ⟨x, hx, hi⟩ := step_next hstep
  · exact absurd (State.bufRead_congr (by rw [State.boot_frame]) b i) hne
  · exact absurd rfl hne
  cases hi with
  | reset => exact .inl hx
  | snapshot hf => exact absurd (State.bufRead_congr (by simp) b i) hne
  | restore hf hp => exact absurd (State.bufRead_congr (by simp [State.restore_bufs]) b i) hne
  | read h => exact absurd (State.bufRead_congr (by simp [read_keeps_bank_tables_bufs h]) b i) hne
  | @write _ a d v hw h =>
    rw [State.bufRead_congr (State.advance_bufs v)] at hne
    obtain ⟨off, hd, hoff⟩ := write_changes_named_byte h hne
    exact .inr ⟨x, a, d, off, hx, hw, hd, hoff⟩
  | map hm hf h => exact absurd (State.bufRead_congr (by simp [h.frame.bufs]) b i) hne

/-! ## Faults -/

/-- While FAULT is set no call has a step (10_state R35). -/
theorem execCall_of_fault {s : State} {f : ModelFault} (h : s.fault = some f) (c : Call) :
    execCall c s = .fault (.stopped f) := by
  cases c with
  | read addr => exact exec_of_fault h (.read (BitVec.ofInt 16 addr))
  | write addr val => exact exec_of_fault h (.write (BitVec.ofInt 16 addr) (BitVec.ofInt 8 val))
  | mapRead ps pe t =>
    unfold execCall
    exact State.command_of_some h _
  | mapWrite ps pe t =>
    unfold execCall
    exact State.command_of_some h _

/-- What is issued with no fault set, unless it is a reset by the host. -/
theorem Issued.reset_or_no_fault {s u : State} {x : Input} (h : Issued s x u) :
    (x = .host .reset ∧ u = s.hostReset) ∨ s.fault = none := by
  cases h with
  | reset => exact .inl ⟨rfl, rfl⟩
  | snapshot hf => exact .inr hf
  | restore hf hp => exact .inr hf
  | read h => exact .inr (exec_next_fault h)
  | write hx h => exact .inr (exec_next_fault h)
  | map hx hf h => exact .inr hf

/-- Settles O46: commands and calls stop with the fault, and of what a step can do only a reset needs no state without
one. -/
theorem faultIsSticky : Obligations.FaultIsSticky := by
  unfold Obligations.FaultIsSticky
  intro s f hf
  have hfault : s.fault ≠ none := by simp [hf]
  refine ⟨exec_of_fault hf, execCall_of_fault hf, fun u h => ?_⟩
  obtain ⟨hn, -⟩ | ⟨hn, -⟩ | ⟨x, hx, hi⟩ := step_next h
  · exact absurd hn hfault
  · exact absurd hn hfault
  · obtain ⟨rfl, rfl⟩ | hn := hi.reset_or_no_fault
    · exact ⟨hx, rfl⟩
    · exact absurd hn hfault

/-! ## A decoded word, and the descriptor of a target -/

/-- Settles O50: the step of a word is the move of the position after its meaning. -/
theorem stepRunsDecodedCommand : Obligations.StepRunsDecodedCommand := by
  unfold Obligations.StepRunsDecodedCommand
  intro s w i hx hi
  have hstep : step s = advanced (exec i s) := by
    rw [step_of_takesEntry hx]
    simp only [State.issue, hi]
  rw [hstep]
  constructor
  · intro u hu
    rw [hu, advanced, State.advance_eq, State.advance_pos]
  · intro r hr
    rw [hr, advanced]

/-- Settles O10: each row of `desc`; a Mathbox base is reduced to 15 bits. -/
theorem descriptorOfTarget : Obligations.DescriptorOfTarget := by
  unfold Obligations.DescriptorOfTarget
  intro ps p _
  exact ⟨rfl, fun _ _ => rfl, fun _ => ⟨_, rfl, BitVec.toNat_ofNat ..⟩, fun _ => rfl⟩

end Sys2Proof.Machine
end

section
/-! SUPPORT. Commands see only the block: a command run inside other surroundings, another trace, input and snapshot, does
the same and appends the same events. -/

namespace Sys2Proof.Machine

/-! ## The block and its surroundings -/

/-- The block of s in the surroundings of r: its events come after those of r, and the phase, the input, the position and
the host's snapshot are those of r. -/
def State.within (r s : State) : State :=
  { s with ev := r.ev ++ s.ev, phase := r.phase, input := r.input, pos := r.pos, saved := r.saved }

/-- The block of s alone, with no events and nothing issued, returned or saved. -/
def State.blockOf (s : State) : State :=
  { s with ev := [], phase := .run, input := [], pos := 0, returned := none, saved := none }

theorem State.within_blockOf (s : State) : s.within s.blockOf = { s with returned := none } := by
  simp [State.within, State.blockOf]

theorem Alike.blockOf_eq {s t : State} (h : Alike s t) : s.blockOf = t.blockOf := by
  unfold State.blockOf
  rw [h.cfg, h.ptR, h.ptW, h.bufs, h.mbxRam, h.bank, h.startLevel, h.inflight, h.fault, h.draws]

theorem State.within_alike (r r' s : State) : Alike (r.within s) (r'.within s) :=
  ⟨rfl, rfl, rfl, rfl, rfl, rfl, rfl, rfl, rfl, rfl⟩

theorem State.within_raise (r : State) (f : ModelFault) (s : State) : (r.within s).raise f = r.within (s.raise f) := rfl

/-- A part of a command that does not see the surroundings. -/
def Blind (f : State → State) : Prop := ∀ r s : State, f (r.within s) = r.within (f s)

theorem Blind.id : Blind fun s => s := fun _ _ => rfl

theorem Blind.comp {f g : State → State} (hf : Blind f) (hg : Blind g) : Blind fun s => f (g s) :=
  fun r s => (congrArg f (hg r s)).trans (hf r (g s))

theorem Blind.ite {c : State → Prop} [DecidablePred c] {f g : State → State} (hc : ∀ r s : State, c (r.within s) ↔ c s)
    (hf : Blind f) (hg : Blind g) : Blind fun s => if c s then f s else g s := by
  intro r s
  by_cases h : c s
  · simp only [if_pos h, if_pos ((hc r s).mpr h), hf r s]
  · simp only [if_neg h, if_neg (mt (hc r s).mp h), hg r s]

theorem Blind.andThen {f g : State → State} (hf : Blind f) (hg : Blind g) : Blind fun s => (f s).andThen g := by
  intro r s
  show (f (r.within s)).andThen g = r.within ((f s).andThen g)
  rw [hf r s]
  have hfault : (r.within (f s)).fault = (f s).fault := rfl
  rcases Option.eq_none_or_eq_some (f s).fault with hn | ⟨e, he⟩
  · rw [State.andThen_of_none hn, State.andThen_of_none (hfault.trans hn), hg r (f s)]
  · rw [State.andThen_of_some he, State.andThen_of_some (hfault.trans he)]

theorem Blind.forEach {α : Type} {body : α → State → State} (h : ∀ x, Blind (body x)) (xs : List α) :
    Blind (State.forEach xs body) := by
  induction xs with
  | nil => exact Blind.id
  | cons x xs ih => exact ih.comp (Blind.id.andThen (h x))

/-! ## The parts of a command -/

theorem State.emit_blind (e : Event) : Blind (State.emit e) := by
  intro r s
  simp [State.emit, State.within]

theorem State.mapSide_blind (side : Side) (ps pe : Page) (t : TargetSpec) : Blind (State.mapSide side ps pe t) := by
  intro r s
  have hcfg : (r.within s).cfg = s.cfg := rfl
  have hlow : (r.within s).lowestInFlight ps pe = s.lowestInFlight ps pe := rfl
  unfold State.mapSide
  rw [hcfg, hlow]
  split
  · rfl
  · cases checkTarget s.cfg side ps pe t with
    | some f => rfl
    | none =>
      cases s.lowestInFlight ps pe with
      | some p => rfl
      | none => cases side <;> rfl

theorem State.mapHandle_blind (side : Side) (ps pe : Page) (h : Handle) : Blind (State.mapHandle side ps pe h) := by
  intro r s
  have hcfg : (r.within s).cfg = s.cfg := rfl
  cases ht : targetOf s.cfg h with
  | none => rw [State.mapHandle_of_none ht, State.mapHandle_of_none (hcfg ▸ ht), State.within_raise]
  | some t => rw [State.mapHandle_of_some ht, State.mapHandle_of_some (hcfg ▸ ht), State.mapSide_blind]

theorem State.applyBank_blind (k : Nat) : Blind (State.applyBank k) := by
  intro r s
  have hcfg : (r.within s).cfg = s.cfg := rfl
  rcases Option.eq_none_or_eq_some s.cfg.banks[k]? with hb | ⟨b, hb⟩
  · rw [State.applyBank_of_none hb, State.applyBank_of_none (hcfg ▸ hb)]
  · rw [State.applyBank_of_some hb, State.applyBank_of_some (hcfg ▸ hb)]
    have mapped (side : Side) (t : TargetSpec) : Blind (State.mapSide side b.winStart b.winEnd t) :=
      State.mapSide_blind side b.winStart b.winEnd t
    exact (mapped .R _).andThen (mapped .W _) r s

theorem State.bankSelectWrite_blind (k : Nat) (d : Byte) : Blind (State.bankSelectWrite k d) := by
  intro r s
  have hcfg : (r.within s).cfg = s.cfg := rfl
  rcases Option.eq_none_or_eq_some s.cfg.banks[k]? with hb | ⟨b, hb⟩
  · rw [State.bankSelectWrite_of_none hb, State.bankSelectWrite_of_none (hcfg ▸ hb)]
  · rw [State.bankSelectWrite_of_some hb, State.bankSelectWrite_of_some (hcfg ▸ hb)]
    exact (State.applyBank_blind k).comp (State.emit_blind _) r { s with bank := s.bank.set k (bankDecode b d) }

theorem State.bankSelects_blind (a : Addr) (d : Byte) : Blind (State.bankSelects a d) := by
  intro r s
  exact Blind.forEach (fun k => Blind.ite (c := fun s => (s.cfg.banks[k]?).map BankSelect.addr = some a)
    (fun _ _ => Iff.rfl) (State.bankSelectWrite_blind k d) Blind.id) (List.range s.cfg.banks.length) r s

theorem State.mathboxStart_blind : Blind State.mathboxStart := by
  intro r s
  rw [State.mathboxStart_eq, State.mathboxStart_eq]
  simp [State.within]

theorem State.ctrlAWrite_blind (d : Byte) : Blind (State.ctrlAWrite d) := by
  have latch : Blind fun s => { s with startLevel := startLevelOf s.cfg d } := fun _ _ => rfl
  exact Blind.ite (c := fun s => startLevelOf s.cfg d ∧ s.startLevel = false) (fun _ _ => Iff.rfl)
    (State.mathboxStart_blind.comp latch) latch

theorem State.glueTail_blind (a : Addr) (d : Byte) : Blind (State.glueTail a d) := by
  have ctrlA : Blind fun s => if a = s.cfg.ctrlAAddr then s.ctrlAWrite d else s :=
    Blind.ite (fun _ _ => Iff.rfl) (State.ctrlAWrite_blind d) Blind.id
  have ctrlB : Blind fun s => if a = s.cfg.ctrlBAddr then s.emit (.videoCtrl d) else s :=
    Blind.ite (fun _ _ => Iff.rfl) (State.emit_blind _) Blind.id
  have alpha : Blind fun s => if s.cfg.alphaMapAddr = some a then s.emit (.alphaMap d) else s :=
    Blind.ite (fun _ _ => Iff.rfl) (State.emit_blind _) Blind.id
  exact alpha.comp (ctrlB.comp ctrlA)

theorem State.glueAccess_blind (a : Addr) (d : Byte) : Blind (State.glueAccess a d) := by
  have push : Blind (State.push .W (pageOf a)) := fun _ _ => rfl
  have pop : Blind State.pop := fun _ _ => rfl
  have write : Blind (State.glueWrite a d) := (State.bankSelects_blind a d).andThen (State.glueTail_blind a d)
  exact (write.comp push).andThen pop

theorem State.handlerRead_blind (h : Nat) (a : Addr) : Blind (State.handlerRead h a) := by
  intro r s
  simp [State.handlerRead_eq, State.within]

theorem State.handlerWrite_blind (h : Nat) (a : Addr) (v : Byte) : Blind (State.handlerWrite h a v) := by
  intro r s
  simp [State.handlerWrite_eq, State.within]

theorem State.mbxWrite_blind (w : WordIndex) (v : Word) : Blind (State.mbxWrite w v) :=
  Blind.ite (fun _ _ => Iff.rfl) (fun _ _ => rfl) Blind.id

/-! ## The commands -/

/-- What a command answers, in the surroundings of r. -/
def answerWithin (r : State) : Host.Outcome State Fault Refusal → Host.Outcome State Fault Refusal
  | .next s => .next (r.within s)
  | .fault e => .fault e
  | .refused e => .refused e

theorem State.readTarget_within (d : PageDesc) (a : Addr) (r s : State) :
    (r.within s).readTarget d a = answerWithin r (s.readTarget d a) := by
  cases d with
  | discard => rfl
  | buffer buf off =>
    have hhas : (r.within s).bufHas buf (off + (offOf a).toNat) = s.bufHas buf (off + (offOf a).toNat) := rfl
    unfold State.readTarget
    simp only [hhas]
    split <;> rfl
  | mbx woff => rfl
  | handler h =>
    cases h with
    | glue => rfl
    | platform h => exact congrArg Host.Outcome.next (State.handlerRead_blind h a r s)

theorem State.writeTarget_within (d : PageDesc) (a : Addr) (v : Byte) (r s : State) :
    (r.within s).writeTarget d a v = answerWithin r (s.writeTarget d a v) := by
  cases d with
  | discard => rfl
  | buffer buf off =>
    have hhas : (r.within s).bufHas buf (off + (offOf a).toNat) = s.bufHas buf (off + (offOf a).toNat) := rfl
    unfold State.writeTarget
    simp only [hhas]
    split <;> rfl
  | mbx woff => exact congrArg Host.Outcome.next (State.mbxWrite_blind _ _ r s)
  | handler h =>
    cases h with
    | glue => exact congrArg Host.Outcome.next (State.glueAccess_blind a v r s)
    | platform h => exact congrArg Host.Outcome.next (State.handlerWrite_blind h a v r s)

/-- A command does the same in all surroundings (10_state R20, 20_memory R62). -/
theorem exec_within (i : Instr) (r s : State) : exec i (r.within s) = answerWithin r (exec i s) := by
  have hfault : (r.within s).fault = s.fault := rfl
  rcases Option.eq_none_or_eq_some s.fault with hn | ⟨f, hf⟩
  · have hn' : (r.within s).fault = none := hfault.trans hn
    cases i with
    | read a =>
      rw [exec_read hn, exec_read hn']
      exact State.readTarget_within (s.descAt .R (pageOf a)) a r { s with returned := none }
    | write a d =>
      rw [exec_write hn, exec_write hn']
      exact State.writeTarget_within (s.descAt .W (pageOf a)) a d r { s with returned := none }
    | mapr ps pe t =>
      rw [exec_mapr hn, exec_mapr hn']
      exact congrArg Host.Outcome.next (State.mapHandle_blind .R ps pe t r { s with returned := none })
    | mapw ps pe t =>
      rw [exec_mapw hn, exec_mapw hn']
      exact congrArg Host.Outcome.next (State.mapHandle_blind .W ps pe t r { s with returned := none })
  · rw [exec_of_fault hf, exec_of_fault (hfault.trans hf), answerWithin]

/-- A command does not see what the command before it returned (log 19). -/
theorem exec_cleared (i : Instr) (s : State) : exec i { s with returned := none } = exec i s := by
  cases i <;> rfl

/-- A command is what it does to the block alone, in the surroundings of its state. -/
theorem exec_blockOf (i : Instr) (s : State) : exec i s = answerWithin s (exec i s.blockOf) := by
  rw [← exec_within, State.within_blockOf, exec_cleared]

/-- One command in two states alike: states alike with the same result and the same new events, or the same fault. -/
theorem exec_of_alike {s t : State} (h : Alike s t) (i : Instr) :
    (∃ u v : State, exec i s = .next u ∧ exec i t = .next v ∧ Alike u v ∧ u.returned = v.returned ∧
      u.ev.drop s.ev.length = v.ev.drop t.ev.length) ∨
    ∃ r, exec i s = .fault r ∧ exec i t = .fault r := by
  rw [exec_blockOf i s, exec_blockOf i t, ← h.blockOf_eq]
  cases hw : exec i s.blockOf with
  | next w =>
    refine .inl ⟨_, _, rfl, rfl, State.within_alike s t w, rfl, ?_⟩
    simp [State.within]
  | fault r => exact .inr ⟨r, rfl, rfl⟩
  | refused r => exact absurd hw (exec_ne_refused i _ r)

/-- Settles O49, by induction on the list: each command in two states alike gives states alike. -/
theorem commandsSeeOnlyTheBlock : Obligations.CommandsSeeOnlyTheBlock := by
  unfold Obligations.CommandsSeeOnlyTheBlock
  intro is
  induction is with
  | nil =>
    intro s t h
    refine ⟨rfl, rfl, fun u hu => ?_, nofun⟩
    cases hu
    exact ⟨t, rfl, h⟩
  | cons i is ih =>
    intro s t h
    obtain ⟨u, v, hu, hv, huv, hret, hev⟩ | ⟨r, hs, ht⟩ := exec_of_alike h i
    · obtain ⟨hresults, hevents, hnext, hfault⟩ := ih u v huv
      simp only [resultsOf, eventsOf, execAll, hu, hv, hret, hev, hresults, hevents, true_and]
      exact ⟨hnext, hfault⟩
    · simp [resultsOf, eventsOf, execAll, hs, ht]

end Sys2Proof.Machine
end

-- Family 20_memory: what a READ finds in the cell a WRITE stored to, and in a window that was just switched.
section
/-! SUPPORT. READ and WRITE as one equation for each kind of descriptor, and the lanes of a Mathbox word as numbers. -/

namespace Sys2Proof.Machine

/-! ## READ and WRITE by the descriptor of their page -/

section

variable {s : State} {a : Addr} (hf : s.fault = none)

include hf

theorem exec_read_of_discard (hd : s.descAt .R (pageOf a) = .discard) :
    exec (.read a) s = .next { s with returned := some 0x00 } := by
  rw [exec_read hf, hd]
  rfl

theorem exec_read_of_buffer {buf off : Nat} (hd : s.descAt .R (pageOf a) = .buffer buf off)
    (hb : s.bufHas buf (off + a.toNat % 256) = true) :
    exec (.read a) s = .next { s with returned := some (s.bufRead buf (off + a.toNat % 256)) } := by
  rw [exec_read hf, hd]
  simp only [State.readTarget, offOf_toNat]
  exact if_pos hb

theorem exec_read_of_mbx {woff : WordIndex} (hd : s.descAt .R (pageOf a) = .mbx woff) :
    exec (.read a) s =
      .next { s with returned := some (laneGet mbxEvenHigh (laneOf a) (s.mbxRead (windowWord woff a))) } := by
  rw [exec_read hf, hd]
  rfl

theorem exec_read_of_platform {id : Nat} (hd : s.descAt .R (pageOf a) = .handler (.platform id)) :
    exec (.read a) s = .next { s with
      returned := some (Config.handlerByte s.draws), draws := s.draws + 1,
      ev := s.ev ++ [.hRd id a (Config.handlerByte s.draws)] } := by
  rw [exec_read hf, hd]
  rfl

theorem exec_write_of_discard (hd : s.descAt .W (pageOf a) = .discard) (d : Byte) :
    exec (.write a d) s = .next { s with returned := none } := by
  rw [exec_write hf, hd]
  rfl

theorem exec_write_of_buffer {buf off : Nat} (hd : s.descAt .W (pageOf a) = .buffer buf off)
    (hb : s.bufHas buf (off + a.toNat % 256) = true) (d : Byte) :
    exec (.write a d) s = .next (State.bufWrite buf (off + a.toNat % 256) d { s with returned := none }) := by
  rw [exec_write hf, hd]
  simp only [State.writeTarget, offOf_toNat]
  exact if_pos hb

theorem exec_write_of_mbx {woff : WordIndex} (hd : s.descAt .W (pageOf a) = .mbx woff) (d : Byte) :
    exec (.write a d) s = .next (State.mbxWrite (windowWord woff a)
      (laneSet mbxEvenHigh (laneOf a) (s.mbxRead (windowWord woff a)) d) { s with returned := none }) := by
  rw [exec_write hf, hd]
  rfl

theorem exec_write_of_platform {id : Nat} (hd : s.descAt .W (pageOf a) = .handler (.platform id)) (d : Byte) :
    exec (.write a d) s = .next { s with returned := none, ev := s.ev ++ [.hWr id a d] } := by
  rw [exec_write hf, hd]
  rfl

theorem exec_write_of_glue (hd : s.descAt .W (pageOf a) = .handler .glue) (d : Byte) :
    exec (.write a d) s = .next (State.glueAccess a d { s with returned := none }) := by
  rw [exec_write hf, hd]
  rfl

end

/-! ## What the invariant gives an access -/

/-- The byte a READ through a buffer addresses exists (10_state R29). -/
theorem State.bufHas_of_read {s : State} (h : s.inv = true) {a : Addr} {buf off : Nat}
    (hd : s.descAt .R (pageOf a) = .buffer buf off) : s.bufHas buf (off + a.toNat % 256) = true := by
  obtain ⟨-, hmem, -, htab, -⟩ := (State.inv_iff s).mp h
  exact bufHas_of_readDesc hmem (hd ▸ ((State.tablesOk_iff s).mp htab).1 (pageOf a)) a

/-- The byte a WRITE through a buffer addresses exists (10_state R29). -/
theorem State.bufHas_of_write {s : State} (h : s.inv = true) {a : Addr} {buf off : Nat}
    (hd : s.descAt .W (pageOf a) = .buffer buf off) : s.bufHas buf (off + a.toNat % 256) = true := by
  obtain ⟨-, hmem, -, htab, -⟩ := (State.inv_iff s).mp h
  exact bufHas_of_writeDesc hmem (hd ▸ ((State.tablesOk_iff s).mp htab).2 (pageOf a)) a

/-- No read side holds the glue (10_state R29, 41_access R123). -/
theorem State.descAt_read_ne_glue {s : State} (h : s.inv = true) (p : Page) : s.descAt .R p ≠ .handler .glue := by
  obtain ⟨-, -, -, htab, -⟩ := (State.inv_iff s).mp h
  have hread := ((State.tablesOk_iff s).mp htab).1 p
  intro hd
  rw [hd] at hread
  cases hread

/-! ## The page table through a store, and Mathbox words -/

@[simp] theorem State.descAt_bufWrite (b i : Nat) (v : Byte) (s : State) (side : Side) (p : Page) :
    (s.bufWrite b i v).descAt side p = s.descAt side p := by
  cases side <;> rfl

@[simp] theorem State.descAt_mbxWrite (w : WordIndex) (v : Word) (s : State) (side : Side) (p : Page) :
    (s.mbxWrite w v).descAt side p = s.descAt side p := by
  cases side <;> simp [State.descAt]

/-- A store to a ROM word is dropped (41_access R124). -/
theorem State.mbxWrite_of_rom {w : WordIndex} (hw : 0x2000 ≤ w.toNat) (v : Word) (s : State) : s.mbxWrite w v = s := by
  unfold State.mbxWrite
  exact if_neg (by unfold mbxRamWords; omega)

/-- The even lane is the high byte of a word, the odd lane its low byte (20_memory R55). The halves of a word are taken
as the page and the offset of an address are. -/
theorem laneGet_toNat (l : Bool) (w : Word) :
    (laneGet mbxEvenHigh l w).toNat = if l then w.toNat % 256 else w.toNat / 256 := by
  cases l
  · have hhigh : (w.extractLsb' 8 8).toNat = w.toNat / 256 := pageOf_toNat w
    exact hhigh
  · have hlow : (w.extractLsb' 0 8).toNat = w.toNat % 256 := offOf_toNat w
    exact hlow

/-- The lane of an even address is the high byte of the word, that of an odd address its low byte (20_memory R55). -/
theorem laneGet_laneOf_toNat (a : Addr) (w : Word) :
    (laneGet mbxEvenHigh (laneOf a) w).toNat = if a.toNat % 2 = 0 then w.toNat / 256 else w.toNat % 256 := by
  rw [laneGet_toNat, laneOf_eq]
  obtain heven | hodd := Nat.mod_two_eq_zero_or_one a.toNat
  · simp [heven]
  · simp [hodd]

theorem word_toNat_eq_lanes (w : Word) : w.toNat =
    (laneGet mbxEvenHigh false w).toNat * 256 + (laneGet mbxEvenHigh true w).toNat := by
  rw [laneGet_toNat, laneGet_toNat]
  simp only [if_true, Bool.false_eq_true, if_false]
  omega

end Sys2Proof.Machine
end

section
/-! SUPPORT. The functional interface's arguments, a READ after a WRITE, and two WRITEs of the lanes of one word. -/

namespace Sys2Proof.Machine

/-! ## The functional interface -/

theorem ofInt_eq_of_emod {n : Nat} {i : Int} {v : BitVec n} (h : i % ((2 ^ n : Nat) : Int) = (v.toNat : Int)) :
    BitVec.ofInt n i = v := by
  rw [toNat_ofInt_eq_emod] at h
  exact BitVec.eq_of_toNat_eq (Int.ofNat_inj.mp h)

/-- Settles O7: an argument masked to n bits is the one value of n bits it is congruent to. -/
theorem callsMaskAddressAndByte : Obligations.CallsMaskAddressAndByte := by
  unfold Obligations.CallsMaskAddressAndByte
  constructor
  · intro s addr a ha
    rw [execCall, ofInt_eq_of_emod (n := 16) ha, exec]
  · intro s addr val a d ha hd
    rw [execCall, ofInt_eq_of_emod (n := 16) ha, ofInt_eq_of_emod (n := 8) hd, exec]

/-! ## The cell a WRITE stores to -/

/-- The lanes of the RAM word a WRITE addresses: its own takes the byte, the other is as it was (20_memory R57). -/
theorem laneGet_mbxRead_of_write {s u : State} {a : Addr} {d : Byte} {woff : WordIndex}
    (h : exec (.write a d) s = .next u) (hd : s.descAt .W (pageOf a) = .mbx woff)
    (hw : (windowWord woff a).toNat < 0x2000) (l : Bool) :
    laneGet mbxEvenHigh l (u.mbxRead (windowWord woff a)) =
      if l = laneOf a then d else laneGet mbxEvenHigh l (s.mbxRead (windowWord woff a)) := by
  rw [exec_write_of_mbx (exec_next_fault h) hd] at h
  cases h
  rw [State.mbxRead_mbxWrite, if_pos ⟨rfl, hw⟩, laneGet_laneSet]

/-- The byte of a buffer a WRITE addresses is the byte it stored (20_memory R60, 41_access R122). -/
theorem bufRead_of_write {s u : State} {a : Addr} {d : Byte} {buf off : Nat} (h : exec (.write a d) s = .next u)
    (hd : s.descAt .W (pageOf a) = .buffer buf off) (hb : s.bufHas buf (off + a.toNat % 256) = true) :
    u.bufRead buf (off + a.toNat % 256) = d := by
  obtain ⟨-, -, -, hlen⟩ := (State.bufHas_iff ..).mp hb
  rw [exec_write_of_buffer (exec_next_fault h) hd hb] at h
  cases h
  exact (State.bufRead_bufWrite { s with returned := none } _ _ _ _ _ hlen).trans (if_pos ⟨rfl, rfl⟩)

/-- A WRITE that is not routed to the glue leaves every descriptor and raises no fault (41_access R126). -/
theorem write_keeps_descAt {s u : State} {a : Addr} {d : Byte} (h : exec (.write a d) s = .next u)
    (hg : s.descAt .W (pageOf a) ≠ .handler .glue) :
    u.fault = none ∧ ∀ side p, u.descAt side p = s.descAt side p := by
  obtain ⟨hf, ⟨-, rfl⟩ | ⟨buf, off, -, -, rfl⟩ | ⟨woff, -, rfl⟩ | ⟨id, -, rfl⟩ | ⟨hd, -⟩⟩ := write_cases h
  · exact ⟨hf, fun _ _ => rfl⟩
  · exact ⟨hf, State.descAt_bufWrite _ _ _ { s with returned := none }⟩
  · exact ⟨(State.mbxWrite_fault ..).trans hf, State.descAt_mbxWrite _ _ { s with returned := none }⟩
  · exact ⟨hf, fun _ _ => rfl⟩
  · exact absurd hd hg

theorem read_after_write_buffer {s u : State} {a a' : Addr} {d : Byte} {buf off off' : Nat} (hinv : s.inv = true)
    (h : exec (.write a d) s = .next u) (hd : s.descAt .W (pageOf a) = .buffer buf off)
    (hd' : s.descAt .R (pageOf a') = .buffer buf off') (hi : off + a.toNat % 256 = off' + a'.toNat % 256) :
    exec (.read a') u = .next { u with returned := some d } := by
  have hinv' := (write_keeps h).inv (exec_next_fault h) hinv
  obtain ⟨hf, hdesc⟩ := write_keeps_descAt h (by simp [hd])
  have hr := (hdesc .R (pageOf a')).trans hd'
  rw [exec_read_of_buffer hf hr (State.bufHas_of_read hinv' hr), ← hi,
    bufRead_of_write h hd (State.bufHas_of_write hinv hd)]

theorem read_after_write_mbx {s u : State} {a a' : Addr} {d : Byte} {woff woff' : WordIndex}
    (h : exec (.write a d) s = .next u) (hd : s.descAt .W (pageOf a) = .mbx woff)
    (hd' : s.descAt .R (pageOf a') = .mbx woff') (hw : windowWord woff' a' = windowWord woff a)
    (hram : (windowWord woff a).toNat < 0x2000) (hl : laneOf a' = laneOf a) :
    exec (.read a') u = .next { u with returned := some d } := by
  obtain ⟨hf, hdesc⟩ := write_keeps_descAt h (by simp [hd])
  rw [exec_read_of_mbx hf ((hdesc .R (pageOf a')).trans hd'), hw, laneGet_mbxRead_of_write h hd hram, if_pos hl]

/-- Settles O29: the byte of a buffer and the lane of a RAM word hold what was stored to them. -/
theorem readAfterWriteSameCell : Obligations.ReadAfterWriteSameCell := by
  unfold Obligations.ReadAfterWriteSameCell
  rintro s u a a' d hinv h (⟨buf, off, off', hd, hd', hi⟩ | ⟨woff, woff', hd, hd', hw, hram, hpar⟩)
  · exact read_after_write_buffer hinv h hd hd' hi
  · rw [← windowWord_toNat, ← windowWord_toNat] at hw
    rw [← windowWord_toNat] at hram
    exact read_after_write_mbx h hd hd' (BitVec.eq_of_toNat_eq hw.symm) hram (by rw [laneOf_eq, laneOf_eq, hpar])

/-! ## A WRITE to no cell -/

/-- A WRITE through Discard, a platform handler or to a ROM word appends to the trace at most (20_memory R60,
log 15). -/
theorem write_to_no_cell {s u : State} {a : Addr} {d : Byte} (h : exec (.write a d) s = .next u)
    (hd : s.descAt .W (pageOf a) = .discard ∨ (∃ id, s.descAt .W (pageOf a) = .handler (.platform id)) ∨
      ∃ woff : WordIndex, s.descAt .W (pageOf a) = .mbx woff ∧ 0x2000 ≤ (windowWord woff a).toNat) :
    ∃ es, u = { s with returned := none, ev := es } := by
  have hf := exec_next_fault h
  obtain hd | ⟨id, hd⟩ | ⟨woff, hd, hrom⟩ := hd
  · rw [exec_write_of_discard hf hd] at h
    cases h
    exact ⟨s.ev, rfl⟩
  · rw [exec_write_of_platform hf hd] at h
    cases h
    exact ⟨_, rfl⟩
  · rw [exec_write_of_mbx hf hd, State.mbxWrite_of_rom hrom] at h
    cases h
    exact ⟨s.ev, rfl⟩

/-- A READ that changes nothing but what it returns finds the same byte under another trace. It is none of a platform
handler, which counts a draw (log 5). -/
theorem read_under_trace {s : State} {a : Addr} {v : Byte} (h : exec (.read a) s = .next { s with returned := some v })
    (es : List Event) :
    exec (.read a) { s with returned := none, ev := es } = .next { s with returned := some v, ev := es } := by
  obtain ⟨hf, ⟨hd, e⟩ | ⟨buf, off, hd, hb, e⟩ | ⟨woff, hd, e⟩ | ⟨id, -, e⟩⟩ := read_cases h
  · obtain rfl := Option.some.inj (congrArg State.returned e)
    exact exec_read_of_discard (s := { s with returned := none, ev := es }) hf hd
  · obtain rfl := Option.some.inj (congrArg State.returned e)
    exact exec_read_of_buffer (s := { s with returned := none, ev := es }) hf hd hb
  · obtain rfl := Option.some.inj (congrArg State.returned e)
    exact exec_read_of_mbx (s := { s with returned := none, ev := es }) hf hd
  · have hdraws : s.draws = s.draws + 1 := congrArg State.draws e
    omega

/-- Settles O30: a WRITE to no cell leaves all but the trace, which no cell's READ consults. -/
theorem writeToNoCellKeepsReads : Obligations.WriteToNoCellKeepsReads := by
  unfold Obligations.WriteToNoCellKeepsReads
  intro s u a a' d v h hd _ hread
  simp only [← windowWord_toNat] at hd
  obtain ⟨es, rfl⟩ := write_to_no_cell h hd
  exact read_under_trace hread es

/-! ## Two WRITEs of one word -/

/-- After WRITEs of both lanes of a RAM word each lane holds its own byte, whichever was written last. -/
theorem laneGet_mbxRead_of_two_writes {s u v : State} {a b : Addr} {d e : Byte} {woff w : WordIndex}
    (h : exec (.write a d) s = .next u) (h' : exec (.write b e) u = .next v) (hpage : pageOf b = pageOf a)
    (hd : s.descAt .W (pageOf a) = .mbx woff) (ha : windowWord woff a = w) (hb : windowWord woff b = w)
    (hw : w.toNat < 0x2000) (hl : laneOf a ≠ laneOf b) :
    laneGet mbxEvenHigh (laneOf a) (v.mbxRead w) = d ∧ laneGet mbxEvenHigh (laneOf b) (v.mbxRead w) = e := by
  have hd' : u.descAt .W (pageOf b) = .mbx woff := by rw [(write_keeps_descAt h (by simp [hd])).2, hpage, hd]
  have first := laneGet_mbxRead_of_write h hd (ha ▸ hw)
  have last := laneGet_mbxRead_of_write h' hd' (hb ▸ hw)
  rw [ha] at first
  rw [hb] at last
  exact ⟨by rw [last, if_neg hl, first, if_pos rfl], by rw [last, if_pos rfl]⟩

/-- Settles O31: the even and the odd address are the two lanes of one word. -/
theorem twoByteWritesMakeAWord : Obligations.TwoByteWritesMakeAWord := by
  unfold Obligations.TwoByteWritesMakeAWord
  intro s u v a b hi lo woff w _ heven hnext hd hword hram hwrites
  have hwa : windowWord woff a = w := BitVec.eq_of_toNat_eq (by rw [windowWord_toNat, hword])
  have hwb : windowWord woff b = w := BitVec.eq_of_toNat_eq (by rw [windowWord_toNat]; omega)
  have hpage : pageOf b = pageOf a := BitVec.eq_of_toNat_eq (by rw [pageOf_toNat, pageOf_toNat]; omega)
  have hla : laneOf a = false := by rw [laneOf_eq, decide_eq_false_iff_not]; omega
  have hlb : laneOf b = true := by rw [laneOf_eq, decide_eq_true_eq]; omega
  have lanes : laneGet mbxEvenHigh (laneOf a) (v.mbxRead w) = hi ∧
      laneGet mbxEvenHigh (laneOf b) (v.mbxRead w) = lo := by
    obtain ⟨h, h'⟩ | ⟨h, h'⟩ := hwrites
    · exact laneGet_mbxRead_of_two_writes h h' hpage hd hwa hwb hram (by simp [hla, hlb])
    · exact (laneGet_mbxRead_of_two_writes h h' hpage.symm (hpage ▸ hd) hwb hwa hram (by simp [hla, hlb])).symm
  rw [hla, hlb] at lanes
  rw [word_toNat_eq_lanes, lanes.1, lanes.2]

end Sys2Proof.Machine
end

section
/-! SUPPORT. What a WRITE through the glue leaves at each page and in Mathbox Memory, and a READ of the window after a
bank switch. -/

namespace Sys2Proof.Machine

/-! ## The bank selects of an address -/

/-- The descriptor of page p after bank select k took the byte d written to a: its window's new bank, or the one before
(42_register_glue R154, R155). -/
def descAfterSelect (c : Config) (a : Addr) (d : Byte) (side : Side) (p : Page) (old : PageDesc) (k : Nat) : PageDesc :=
  match c.banks[k]? with
  | some b =>
    if b.addr = a ∧ b.winStart ≤ p ∧ p ≤ b.winEnd then
      desc (sideOf side (bankTargets b (bankDecode b d))) b.winStart p
    else old
  | none => old

theorem descAfterSelect_of_window {c : Config} {a : Addr} {k : Nat} {b : BankSelect} {p : Page}
    (hb : c.banks[k]? = some b) (ha : b.addr = a) (h1 : b.winStart ≤ p) (h2 : p ≤ b.winEnd) (d : Byte) (side : Side)
    (old : PageDesc) : descAfterSelect c a d side p old k =
      desc (sideOf side (bankTargets b (bankDecode b d))) b.winStart p := by
  unfold descAfterSelect
  rw [hb]
  exact if_pos ⟨ha, h1, h2⟩

theorem descAfterSelect_of_no_window {c : Config} {a : Addr} {k : Nat} {p : Page}
    (h : ∀ b, c.banks[k]? = some b → ¬ (b.addr = a ∧ b.winStart ≤ p ∧ p ≤ b.winEnd)) (d : Byte) (side : Side)
    (old : PageDesc) : descAfterSelect c a d side p old k = old := by
  unfold descAfterSelect
  split
  · next b hb => exact if_neg (h b hb)
  · rfl

/-- Every bank select at the address switches its window, ascending (42_register_glue R151). -/
theorem State.descAt_bankSelects {a : Addr} {c : Config} {s : State} (hr : GlueReady a c s) (hf : s.fault = none)
    (d : Byte) (side : Side) (p : Page) : (s.bankSelects a d).descAt side p =
      (List.range c.banks.length).foldl (descAfterSelect c a d side p) (s.descAt side p) := by
  unfold State.bankSelects
  rw [hr.cfg]
  refine State.forEach_view (P := GlueReady a c) (fun t => t.descAt side p) (fun k _ t ht htf => ?_) hr hf
  rcases Option.eq_none_or_eq_some c.banks[k]? with hb | ⟨b, hb⟩
  · rw [if_neg (by rw [ht.cfg, hb]; simp), descAfterSelect_of_no_window (by simp [hb])]
    exact ⟨ht, htf, rfl⟩
  · rw [ht.cfg, hb]
    by_cases ha : b.addr = a
    · rw [if_pos (by simp [ha])]
      obtain ⟨hfault, -, -, hdesc, -⟩ := State.bankSelectWrite_ok ht htf hb ha d
      refine ⟨ht.of_rel (State.bankSelectWrite_glueRel k d t), hfault, ?_⟩
      simp only [hdesc, inRange_iff, descAfterSelect, hb, ha, true_and]
    · rw [if_neg (by simpa using ha), descAfterSelect_of_no_window (by simp [hb, ha])]
      exact ⟨ht, htf, rfl⟩

/-- Of the steps of a fold over 0 .. n-1, the last that sets the value decides it. -/
theorem foldl_range_of_last {β : Type} {g : β → Nat → β} {n k : Nat} {v : β} (hk : k < n) (sets : ∀ x, g x k = v)
    (keeps : ∀ j, k < j → ∀ x, g x j = x) (x : β) : (List.range n).foldl g x = v := by
  induction n with
  | zero => omega
  | succ n ih =>
    rw [List.range_succ, List.foldl_append, List.foldl_cons, List.foldl_nil]
    rcases Nat.lt_succ_iff_lt_or_eq.mp hk with hlt | rfl
    · rw [keeps n hlt, ih hlt]
    · exact sets _

/-- The bank selects leave Mathbox RAM (42_register_glue R154). -/
theorem State.bankSelects_mbxRam (a : Addr) (d : Byte) (s : State) : (s.bankSelects a d).mbxRam = s.mbxRam := by
  refine State.forEach_rel (R := fun s t => t.mbxRam = s.mbxRam) (fun _ => rfl) (fun _ _ _ h h' => h'.trans h)
    (fun k _ t => ?_) s
  split
  · rcases Option.eq_none_or_eq_some t.cfg.banks[k]? with hb | ⟨b, hb⟩
    · rw [State.bankSelectWrite_of_none hb]
    · rw [State.bankSelectWrite_of_some hb]
      exact (State.applyBank_tablesOnly k _).mbxRam
  · rfl

/-! ## A WRITE through the glue -/

theorem State.descAt_glueTail (a : Addr) (d : Byte) (s : State) (side : Side) (p : Page) :
    (s.glueTail a d).descAt side p = s.descAt side p := by
  obtain ⟨hR, hW⟩ := State.glueTail_tables a d s
  cases side
  · exact congrArg (tableAt · p) hR
  · exact congrArg (tableAt · p) hW

/-- Under the invariant a WRITE through the glue is the bank selects and what follows them, with the access pushed
before and popped after (41_access R123, 42_register_glue R151). -/
theorem write_glue_next {s u : State} {a : Addr} {d : Byte} (hinv : s.inv = true)
    (hg : s.descAt .W (pageOf a) = .handler .glue) (h : exec (.write a d) s = .next u) : u.fault = none ∧
      u = (State.glueTail a d (State.bankSelects a d (State.push .W (pageOf a) { s with returned := none }))).pop := by
  have hf := exec_next_fault h
  obtain ⟨-, hbanks⟩ := State.bankSelects_ok (glueReady_of_inv hinv hf a) hf d
  have hglue := State.glueWrite_ok (glueReady_of_inv hinv hf a) hf d
  rw [exec_write_of_glue hf hg, State.glueAccess, State.andThen_of_none hglue] at h
  cases h
  exact ⟨hglue, by rw [State.glueWrite_eq, State.andThen_of_none hbanks]⟩

/-- The bank selects of the address decide each page's descriptors, the last whose window holds it (42_register_glue
R151, R155). -/
theorem descAt_of_write_glue {s u : State} {a : Addr} {d : Byte} (hinv : s.inv = true)
    (hg : s.descAt .W (pageOf a) = .handler .glue) (h : exec (.write a d) s = .next u) (side : Side) (p : Page) :
    u.descAt side p =
      (List.range s.cfg.banks.length).foldl (descAfterSelect s.cfg a d side p) (s.descAt side p) := by
  have hf := exec_next_fault h
  have tail (t : State) : (State.glueTail a d t).pop.descAt side p = t.descAt side p :=
    State.descAt_glueTail a d t side p
  rw [(write_glue_next hinv hg h).2, tail]
  exact State.descAt_bankSelects (glueReady_of_inv hinv hf a) hf d side p

/-- A WRITE through the glue leaves the buffers (10_state R28). -/
theorem write_glue_bufs {s u : State} {a : Addr} {d : Byte} (hinv : s.inv = true)
    (hg : s.descAt .W (pageOf a) = .handler .glue) (h : exec (.write a d) s = .next u) : u.bufs = s.bufs := by
  rw [(write_glue_next hinv hg h).2]
  exact (State.glueTail_glueRel a d _).bufs.trans (State.bankSelects_glueRel a d _).bufs

/-- A WRITE through the glue leaves a ROM word, and every word unless the address is control register A's
(42_register_glue R162, R163). -/
theorem mbxRead_of_write_glue {s u : State} {a : Addr} {d : Byte} (hinv : s.inv = true)
    (hg : s.descAt .W (pageOf a) = .handler .glue) (h : exec (.write a d) s = .next u) {w : WordIndex}
    (hw : a ≠ s.cfg.ctrlAAddr ∨ 0x2000 ≤ w.toNat) : u.mbxRead w = s.mbxRead w := by
  have hcfg := (write_keeps h).cfg
  obtain ha | hrom := hw
  · have hram : u.mbxRam = s.mbxRam := by
      obtain ⟨-, -, hkeep, -⟩ :=
        State.glueTail_spec a d (State.bankSelects a d (State.push .W (pageOf a) { s with returned := none }))
      rw [(write_glue_next hinv hg h).2]
      exact (hkeep (by simp [(State.bankSelects_glueRel ..).cfg, ha])).1.trans (State.bankSelects_mbxRam ..)
    unfold State.mbxRead
    rw [hram, hcfg]
  · rw [u.mbxRead_of_rom hrom, s.mbxRead_of_rom hrom, hcfg]

/-! ## A READ of a mapped range -/

/-- A range mapped to a buffer reads as consecutive bytes from the base (10_state R24, 42_register_glue R159). -/
theorem exec_read_of_mapped_buffer {s : State} {x : Addr} {ps : Page} {buf base : Nat} (hinv : s.inv = true)
    (hf : s.fault = none) (hd : s.descAt .R (pageOf x) = desc (.buffer buf base) ps (pageOf x)) (hp : ps ≤ pageOf x) :
    exec (.read x) s = .next { s with returned := some (s.bufRead buf (base + (x.toNat - ps.toNat * 256))) } := by
  rw [BitVec.le_def, pageOf_toNat] at hp
  have hidx : base + ((pageOf x).toNat - ps.toNat) * 256 + x.toNat % 256 = base + (x.toNat - ps.toNat * 256) := by
    rw [pageOf_toNat]
    omega
  rw [exec_read_of_buffer hf hd (State.bufHas_of_read hinv hd), hidx]

/-- A range mapped to the Mathbox window reads as the bytes of consecutive words from the base, the even byte of each
the high one (10_state R24, 41_access R124). -/
theorem exec_read_of_mapped_mbx {s : State} {x : Addr} {ps : Page} {wbase : Nat} (hf : s.fault = none)
    (hd : s.descAt .R (pageOf x) = desc (.mbx wbase) ps (pageOf x)) (hp : ps ≤ pageOf x) :
    ∃ (w : WordIndex) (v : Byte), w.toNat = (wbase + (x.toNat - ps.toNat * 256) / 2) % 0x8000 ∧
      exec (.read x) s = .next { s with returned := some v } ∧
      v.toNat = if x.toNat % 2 = 0 then (s.mbxRead w).toNat / 256 else (s.mbxRead w).toNat % 256 := by
  rw [BitVec.le_def, pageOf_toNat] at hp
  refine ⟨windowWord (BitVec.ofNat 15 (wbase + ((pageOf x).toNat - ps.toNat) * 128)) x, _, ?_, exec_read_of_mbx hf hd,
    laneGet_laneOf_toNat x _⟩
  rw [windowWord_toNat, BitVec.toNat_ofNat, pageOf_toNat]
  omega

/-! ## A bank switch -/

/-- The last bank select at the address whose window holds the page decides the page's descriptor. -/
theorem descAt_of_bank_switch {s u : State} {a : Addr} {d : Byte} {p : Page} {k : Nat} {b : BankSelect}
    (hinv : s.inv = true) (hg : s.descAt .W (pageOf a) = .handler .glue) (hb : s.cfg.banks[k]? = some b)
    (ha : b.addr = a)
    (hlast : ∀ j b', s.cfg.banks[j]? = some b' → b'.addr = a → b'.winStart ≤ p → p ≤ b'.winEnd → j ≤ k)
    (h1 : b.winStart ≤ p) (h2 : p ≤ b.winEnd) (h : exec (.write a d) s = .next u) (side : Side) :
    u.descAt side p = desc (sideOf side (bankTargets b (bankDecode b d))) b.winStart p := by
  rw [descAt_of_write_glue hinv hg h]
  refine foldl_range_of_last (List.getElem?_eq_some_iff.mp hb).1 (descAfterSelect_of_window hb ha h1 h2 d side)
    (fun j hj => descAfterSelect_of_no_window (fun b' hb' ⟨ha', h1', h2'⟩ => ?_) d side) _
  have := hlast j b' hb' ha' h1' h2'
  omega

/-- Settles O38: the descriptor of the window's page is the new bank's, and a READ goes by the descriptor alone. -/
theorem bankSwitchSeenByNextRead : Obligations.BankSwitchSeenByNextRead := by
  unfold Obligations.BankSwitchSeenByNextRead
  intro s u a x d k b hinv hg hb ha hlast h1 h2 h
  have hinv' := (write_keeps h).inv (exec_next_fault h) hinv
  obtain ⟨hf, -⟩ := write_glue_next hinv hg h
  have hdesc := descAt_of_bank_switch hinv hg hb ha hlast h1 h2 h .R
  dsimp only
  refine ⟨fun hl => ?_, fun t tw hl => ?_⟩
  · simp only [bankTargets, hl, Option.getD_none] at hdesc
    exact exec_read_of_discard hf hdesc
  · simp only [bankTargets, hl, Option.getD_some, sideOf] at hdesc
    refine ⟨?_, ?_, ?_, ?_, ?_⟩
    · rintro rfl
      exact exec_read_of_discard hf hdesc
    · rintro buf base rfl
      rw [← State.bufRead_congr (write_glue_bufs hinv hg h)]
      exact exec_read_of_mapped_buffer hinv' hf hdesc h1
    · rintro wbase rfl
      obtain ⟨w, v, hw, hread, hv⟩ := exec_read_of_mapped_mbx hf hdesc h1
      exact ⟨w, v, hw, hread, hv, mbxRead_of_write_glue hinv hg h⟩
    · rintro id rfl
      exact exec_read_of_platform hf hdesc
    · rintro rfl
      exact State.descAt_read_ne_glue hinv' _ hdesc

end Sys2Proof.Machine
end

-- Family 30_encoding: command words and what they decode to, the pseudo-commands, and a map call beside its command.
section
/-! SUPPORT. Command words: the fields of each format, decoding inverted, and the value of each command's word. -/

namespace Sys2Proof

/-! ## Decoding, case by case -/

section

variable {w : BitVec 32}

theorem decode_read (hop : opField w = 0#2) (hres : reservedR w = 0#14) : decode w = some (.read (fieldA w)) := by
  simp [decode, hop, hres]

theorem decode_write (hop : opField w = 1#2) (hres : reservedW w = 0#6) :
    decode w = some (.write (fieldA w) (fieldD w)) := by
  simp [decode, hop, hres]

theorem decode_mapr (hop : opField w = 2#2) : decode w = some (.mapr (fieldS w) (fieldE w) (fieldT w)) := by
  simp [decode, hop]

theorem decode_mapw (hop : opField w = 3#2) : decode w = some (.mapw (fieldS w) (fieldE w) (fieldT w)) := by
  simp [decode, hop]

end

/-- The four values of the OP field (30_encoding R71). -/
theorem opField_cases (w : BitVec 32) :
    opField w = 0#2 ∨ opField w = 1#2 ∨ opField w = 2#2 ∨ opField w = 3#2 := by
  have all : ∀ op : BitVec 2, op = 0#2 ∨ op = 1#2 ∨ op = 2#2 ∨ op = 3#2 := by decide
  exact all (opField w)

/-- What a word that decodes consists of: the OP of the command, its operands, and no reserved bit. -/
theorem decode_some {w : BitVec 32} {i : Instr} (h : decode w = some i) :
    (opField w = 0#2 ∧ reservedR w = 0#14 ∧ i = .read (fieldA w)) ∨
    (opField w = 1#2 ∧ reservedW w = 0#6 ∧ i = .write (fieldA w) (fieldD w)) ∨
    (opField w = 2#2 ∧ i = .mapr (fieldS w) (fieldE w) (fieldT w)) ∨
    (opField w = 3#2 ∧ i = .mapw (fieldS w) (fieldE w) (fieldT w)) := by
  obtain hop | hop | hop | hop := opField_cases w
  · by_cases hres : reservedR w = 0#14
    · rw [decode_read hop hres] at h
      exact .inl ⟨hop, hres, (Option.some.inj h).symm⟩
    · simp [decode, hop, hres] at h
  · by_cases hres : reservedW w = 0#6
    · rw [decode_write hop hres] at h
      exact .inr (.inl ⟨hop, hres, (Option.some.inj h).symm⟩)
    · simp [decode, hop, hres] at h
  · rw [decode_mapr hop] at h
    exact .inr (.inr (.inl ⟨hop, (Option.some.inj h).symm⟩))
  · rw [decode_mapw hop] at h
    exact .inr (.inr (.inr ⟨hop, (Option.some.inj h).symm⟩))

/-- The illegal words (30_encoding R76). -/
theorem decode_none_iff (w : BitVec 32) :
    decode w = none ↔ (opField w = 0#2 ∧ reservedR w ≠ 0#14) ∨ (opField w = 1#2 ∧ reservedW w ≠ 0#6) := by
  obtain hop | hop | hop | hop := opField_cases w
  · simp [decode, hop]
  · simp [decode, hop]
  · simp [decode_mapr hop, hop]
  · simp [decode_mapw hop, hop]

/-! ## A word taken apart and put together -/

/-- A word is its OP field followed by the other 30 bits. -/
theorem opField_append (w : BitVec 32) : opField w ++ w.extractLsb' 0 30 = w :=
  BitVec.extractLsb'_append_extractLsb' (w := 2) (len := 30)

theorem reservedR_append (w : BitVec 32) : reservedR w ++ fieldA w = w.extractLsb' 0 30 :=
  BitVec.extractLsb'_append_extractLsb'_eq_extractLsb' rfl

theorem reservedW_append (w : BitVec 32) : reservedW w ++ (fieldD w ++ fieldA w) = w.extractLsb' 0 30 := by
  have low : fieldD w ++ fieldA w = w.extractLsb' 0 24 := BitVec.extractLsb'_append_extractLsb'_eq_extractLsb' rfl
  rw [low]
  exact BitVec.extractLsb'_append_extractLsb'_eq_extractLsb' rfl

theorem fieldT_append (w : BitVec 32) : fieldT w ++ (fieldE w ++ fieldS w) = w.extractLsb' 0 30 := by
  have low : fieldE w ++ fieldS w = w.extractLsb' 0 16 := BitVec.extractLsb'_append_extractLsb'_eq_extractLsb' rfl
  rw [low]
  exact BitVec.extractLsb'_append_extractLsb'_eq_extractLsb' rfl

/-- A word that decodes is put together again from its fields (30_encoding R77). -/
theorem encode_of_decode {w : BitVec 32} {i : Instr} (h : decode w = some i) : encode i = w := by
  obtain ⟨hop, hres, rfl⟩ | ⟨hop, hres, rfl⟩ | ⟨hop, rfl⟩ | ⟨hop, rfl⟩ := decode_some h
  · rw [encode, ← hop, ← hres, reservedR_append, opField_append]
  · rw [encode, ← hop, ← hres, reservedW_append, opField_append]
  · rw [encode, ← hop, fieldT_append, opField_append]
  · rw [encode, ← hop, fieldT_append, opField_append]

/-! ## The operands of a command's word -/

open Laws.OpField (low_field high_field)

theorem fieldA_read (a : Addr) : fieldA (encode (.read a)) = a := by
  rw [encode, fieldA, low_field (by omega), low_field (by omega), BitVec.extractLsb'_eq_self]

theorem fieldA_write (a : Addr) (d : Byte) : fieldA (encode (.write a d)) = a := by
  rw [encode, fieldA, low_field (by omega), low_field (by omega), low_field (by omega), BitVec.extractLsb'_eq_self]

theorem fieldD_write (a : Addr) (d : Byte) : fieldD (encode (.write a d)) = d := by
  rw [encode, fieldD, low_field (by omega), low_field (by omega), high_field]

/-- The operands in the word of a map command of either side (30_encoding R74). -/
theorem map_fields (op : BitVec 2) (s e : Page) (t : Handle) :
    fieldS (op ++ (t ++ (e ++ s))) = s ∧ fieldE (op ++ (t ++ (e ++ s))) = e ∧
      fieldT (op ++ (t ++ (e ++ s))) = t := by
  refine ⟨?_, ?_, ?_⟩
  · rw [fieldS, low_field (by omega), low_field (by omega), low_field (by omega), BitVec.extractLsb'_eq_self]
  · rw [fieldE, low_field (by omega), low_field (by omega), high_field]
  · rw [fieldT, low_field (by omega), high_field]

/-- Decoding finds in a command's word the command's OP, its reserved bits at zero, and its operands
(30_encoding R75). -/
theorem decode_encode (i : Instr) : decode (encode i) = some i := by
  cases i with
  | read a =>
    obtain ⟨hop, hres⟩ := Laws.OpField.read a
    rw [decode_read hop hres, fieldA_read]
  | write a d =>
    obtain ⟨hop, hres⟩ := Laws.OpField.write a d
    rw [decode_write hop hres, fieldA_write, fieldD_write]
  | mapr s e t =>
    obtain ⟨hs, he, ht⟩ := map_fields 2#2 s e t
    rw [decode_mapr (Laws.OpField.mapr s e t), encode, hs, he, ht]
  | mapw s e t =>
    obtain ⟨hs, he, ht⟩ := map_fields 3#2 s e t
    rw [decode_mapw (Laws.OpField.mapw s e t), encode, hs, he, ht]

/-- The word of a command is the one word that decodes to it (30_encoding R77, R79). -/
theorem decode_eq_some_iff (w : BitVec 32) (i : Instr) : decode w = some i ↔ w.toNat = (encode i).toNat := by
  rw [BitVec.toNat_inj]
  constructor
  · exact fun h => (encode_of_decode h).symm
  · rintro rfl
    exact decode_encode i

/-- Settles O1: each command's word has the command's OP, reserved bits and operands, by which it decodes. -/
theorem decodeOfEncode : Obligations.DecodeOfEncode := by
  unfold Obligations.DecodeOfEncode
  exact decode_encode

/-- Settles O2: the fields by which a word decodes are all of its bits. -/
theorem encodeOfDecode : Obligations.EncodeOfDecode := by
  unfold Obligations.EncodeOfDecode
  exact fun w i => encode_of_decode

/-! ## The value of a command's word -/

theorem toNat_append_eq_add {m n : Nat} (x : BitVec m) (y : BitVec n) :
    (x ++ y).toNat = x.toNat * 2 ^ n + y.toNat := by
  rw [BitVec.toNat_append, ← Nat.shiftLeft_add_eq_or_of_lt y.isLt, Nat.shiftLeft_eq]

theorem encode_read_toNat (a : Addr) : (encode (.read a)).toNat = a.toNat := by
  show (0#2 ++ (0#14 ++ a)).toNat = a.toNat
  rw [toNat_append_eq_add, toNat_append_eq_add]
  simp

theorem encode_write_toNat (a : Addr) (d : Byte) :
    (encode (.write a d)).toNat = 0x40000000 + d.toNat * 0x10000 + a.toNat := by
  show (1#2 ++ (0#6 ++ (d ++ a))).toNat = 0x40000000 + d.toNat * 0x10000 + a.toNat
  rw [toNat_append_eq_add, toNat_append_eq_add, toNat_append_eq_add]
  simp [Nat.add_assoc]

/-- The value of the word of a map command of either side (30_encoding R74). -/
theorem map_word_toNat (op : BitVec 2) (s e : Page) (t : Handle) :
    (op ++ (t ++ (e ++ s))).toNat = op.toNat * 0x40000000 + t.toNat * 0x10000 + e.toNat * 0x100 + s.toNat := by
  rw [toNat_append_eq_add, toNat_append_eq_add, toNat_append_eq_add]
  omega

theorem encode_mapr_toNat (s e : Page) (t : Handle) :
    (encode (.mapr s e t)).toNat = 0x80000000 + t.toNat * 0x10000 + e.toNat * 0x100 + s.toNat :=
  map_word_toNat 2#2 s e t

theorem encode_mapw_toNat (s e : Page) (t : Handle) :
    (encode (.mapw s e t)).toNat = 0xC0000000 + t.toNat * 0x10000 + e.toNat * 0x100 + s.toNat :=
  map_word_toNat 3#2 s e t

/-- Settles O3: the word of a command, and no other, decodes to it, and its value is the sum of its fields in place. -/
theorem commandWordsByValue : Obligations.CommandWordsByValue := by
  unfold Obligations.CommandWordsByValue
  intro w
  refine ⟨fun a => ?_, fun a d => ?_, fun s e t => ?_, fun s e t => ?_⟩
  · rw [decode_eq_some_iff, encode_read_toNat]
  · rw [decode_eq_some_iff, encode_write_toNat]
  · rw [decode_eq_some_iff, encode_mapr_toNat]
  · rw [decode_eq_some_iff, encode_mapw_toNat]

/-! ## Illegal words and the table of examples -/

/-- Settles O4: a word is illegal by its OP and its reserved bits, and the step that takes it looks at nothing else. -/
theorem illegalWordIsRefused : Obligations.IllegalWordIsRefused := by
  unfold Obligations.IllegalWordIsRefused
  refine ⟨decode_none_iff, fun s w _ hx hw => ?_⟩
  rw [Machine.step_of_takesEntry hx]
  simp only [Machine.State.issue, hw]

/-- Settles O5: each row of the table is a word decoded. -/
theorem encodingExamples : Obligations.EncodingExamples := by
  unfold Obligations.EncodingExamples
  decide

end Sys2Proof
end

section
/-! SUPPORT. What a list of commands does after a fault, and the map calls as MapSide of their target. -/

namespace Sys2Proof.Machine

/-! ## The pseudo-commands -/

/-- A command that raises a fault is the last of its list that has a step (30_encoding R81, 10_state R35). -/
theorem execAll_of_fault {i j : Instr} {is : List Instr} {s u : State} {f : ModelFault} (h : exec i s = .next u)
    (hf : u.fault = some f) : execAll (i :: j :: is) s = .fault (.stopped f) := by
  simp only [execAll, h, exec_of_fault hf]

/-- Settles O6: the words are the table's, and the second of two commands finds the fault of the first. -/
theorem pseudoCommandExpansions : Obligations.PseudoCommandExpansions := by
  unfold Obligations.PseudoCommandExpansions
  refine ⟨fun _ _ _ => rfl, fun _ _ _ => rfl, fun _ _ => rfl, fun _ _ => rfl, fun _ _ => rfl, ?_⟩
  intro p i j s u f hp hi hf
  rw [hp, execAll_of_fault hi hf]

/-! ## MapSide, case by case -/

section

variable {side : Side} {ps pe : Page} {t : TargetSpec} {s : State}

/-- An empty range does nothing (40_mapping R106). -/
theorem State.mapSide_of_empty (h : pe < ps) : s.mapSide side ps pe t = s := by
  unfold State.mapSide
  exact if_pos h

/-- A target that a map-time check refuses is the check's fault (40_mapping R104). -/
theorem State.mapSide_of_check {f : ModelFault} (h : ps ≤ pe) (hc : checkTarget s.cfg side ps pe t = some f) :
    s.mapSide side ps pe t = s.raise f := by
  unfold State.mapSide
  rw [if_neg (BitVec.not_lt.mpr h), hc]

/-- A page in flight in the range is a fault for the lowest such page (40_mapping R105, 60_exceptions R206). -/
theorem State.mapSide_of_inFlight {p : Page} (hc : checkTarget s.cfg side ps pe t = none)
    (hl : s.lowestInFlight ps pe = some p) : s.mapSide side ps pe t = s.raise (.remapInflight side p) := by
  obtain ⟨-, ⟨h1, h2⟩, -⟩ := (State.lowestInFlight_some ..).mp hl
  unfold State.mapSide
  rw [if_neg (BitVec.not_lt.mpr (BitVec.le_trans h1 h2)), hc, hl]

/-- A map that passes the checks writes the pages of its range (40_mapping R100). -/
theorem State.mapSide_of_pass (h : ps ≤ pe) (hc : checkTarget s.cfg side ps pe t = none)
    (hi : ∀ e ∈ s.inflight, ¬ (ps ≤ e.2 ∧ e.2 ≤ pe)) : s.mapSide side ps pe t = s.setPages side ps pe t := by
  unfold State.mapSide
  rw [if_neg (BitVec.not_lt.mpr h), hc, (State.lowestInFlight_none ..).mpr hi]

end

/-- What a command that writes the pages of a range changes: the descriptors of its side in the range, and nothing else
of the block (40_mapping R100, R103). -/
theorem State.setPages_effect (side : Side) (ps pe : Page) (t : TargetSpec) {s u : State} (hf : s.fault = none)
    (hu : u = State.setPages side ps pe t { s with returned := none }) :
    u.fault = none ∧
      (∀ p, u.descAt side p = if ps ≤ p ∧ p ≤ pe then desc t ps p else s.descAt side p) ∧
      (side = .R → u = { s with ptR := u.ptR, returned := none }) ∧
      (side = .W → u = { s with ptW := u.ptW, returned := none }) := by
  subst hu
  refine ⟨by simpa using hf, fun p => ?_, ?_, ?_⟩
  · simp only [State.descAt_setPages, true_and, inRange_iff]
    cases side <;> rfl
  · rintro rfl
    rfl
  · rintro rfl
    rfl

/-- The rows of the map-time checks, where a check's fault is what `faults` says (40_mapping R104). -/
theorem mapTimeRows_of_checkTarget {c : Config} {side : Side} {ps pe : Page} {t : TargetSpec}
    {faults : ModelFault → Prop} (h : ∀ f, checkTarget c side ps pe t = some f → faults f) :
    mapTimeRows c side ps pe t faults := by
  refine ⟨?_, ?_, ?_, ?_, ?_, ?_⟩
  · rintro rfl
    rfl
  · rintro buf base rfl hb
    exact h _ (by simp [checkTarget, hb])
  · rintro buf base info rfl hb
    refine ⟨fun hlen => h _ (by simp [checkTarget, hb, hlen]), fun hlen hs hw => h _ ?_, fun hlen hw => ?_⟩
    · simp [checkTarget, hb, Nat.not_lt.mpr hlen, hs, hw]
    · simpa [checkTarget, hb, Nat.not_lt.mpr hlen] using hw
  · rintro wbase rfl
    exact ⟨fun hw => h _ (if_neg (Nat.not_lt.mpr hw)), fun hw => if_pos hw⟩
  · rintro id rfl
    exact ⟨fun hid => h _ (by simp [checkTarget, hid]), fun hid => by simp [checkTarget, hid]⟩
  · rintro rfl
    exact ⟨fun hs => h _ (by simp [checkTarget, hs]), fun hs => by simp [checkTarget, hs]⟩

/-! ## Map commands and map calls -/

theorem exec_mapInstr {s : State} (hf : s.fault = none) (side : Side) (ps pe : Page) (h : Handle) :
    exec (mapInstr side ps pe h) s = .next (State.mapHandle side ps pe h { s with returned := none }) := by
  cases side with
  | R => exact exec_mapr hf ps pe h
  | W => exact exec_mapw hf ps pe h

/-- A map call with page numbers in range is MapSide of its target spec (30_encoding R78). -/
theorem execCall_mapCallOf {s : State} (hf : s.fault = none) (side : Side) (ps pe : Page) (t : TargetSpec) :
    execCall (mapCallOf side ps.toNat pe.toNat t) s =
      .next (State.mapSide side ps pe t { s with returned := none }) := by
  cases side <;> simp only [mapCallOf, execCall, State.command_of_none hf, State.mapCall_of_pages]

/-- A map call does what the map command does with a handle of its target, a stop at an earlier fault included. -/
theorem execCall_mapCallOf_eq_exec {s : State} {h : Handle} {t : TargetSpec} (ht : targetOf s.cfg h = some t)
    (side : Side) (ps pe : Page) :
    execCall (mapCallOf side ps.toNat pe.toNat t) s = exec (mapInstr side ps pe h) s := by
  obtain hf | ⟨f, hf⟩ := Option.eq_none_or_eq_some s.fault
  · rw [execCall_mapCallOf hf, exec_mapInstr hf, State.mapHandle_of_some (s := { s with returned := none }) ht]
  · rw [execCall_of_fault hf, exec_of_fault hf]

/-- Settles O9: the call is MapSide of its target, taken case by case: the empty range, a check that applies, a page in
flight, and the map that completes. -/
theorem callMapsLikeItsCommand : Obligations.CallMapsLikeItsCommand := by
  unfold Obligations.CallMapsLikeItsCommand
  intro s side ps pe t
  dsimp only
  refine ⟨fun h ht => execCall_mapCallOf_eq_exec ht side ps pe, fun hf => ?_⟩
  rw [execCall_mapCallOf hf]
  refine ⟨fun hlt => ?_, fun hle => ?_, fun hc p h1 h2 hp hmin => ?_, fun hle hc hi => ?_⟩
  · rw [State.mapSide_of_empty hlt]
  · refine mapTimeRows_of_checkTarget fun f hc => ?_
    rw [State.mapSide_of_check (s := { s with returned := none }) hle hc]
    rfl
  · have hlow := (State.lowestInFlight_some s ps pe p).mpr ⟨hp, ⟨h1, h2⟩, hmin⟩
    rw [State.mapSide_of_inFlight (s := { s with returned := none }) hc hlow]
    rfl
  · exact ⟨_, rfl, State.setPages_effect side ps pe t hf
      (State.mapSide_of_pass (s := { s with returned := none }) hle hc hi)⟩

end Sys2Proof.Machine
end

-- Family 40_mapping: what a map command and a map call do, and what a completed map leaves at each page.
section
/-! SUPPORT. A map command with an assigned handle is MapSide of the handle's target; a map command that completes,
inverted: its handle's target, its frame and the descriptor of every page. -/

namespace Sys2Proof.Machine

/-! ## A map call out of range -/

theorem isPageNumber_iff (p : Int) : isPageNumber p = true ↔ 0 ≤ p ∧ p ≤ 255 := by
  unfold isPageNumber
  rw [Bool.and_eq_true, decide_eq_true_eq, decide_eq_true_eq]

/-- A page number outside 0..255 is F_MAP_RANGE, before any other check (40_mapping R107). -/
theorem State.mapCall_of_out_of_range {ps pe : Int} (h : ps < 0 ∨ 255 < ps ∨ pe < 0 ∨ 255 < pe) (side : Side)
    (t : TargetSpec) (s : State) : s.mapCall side ps pe t = s.raise (.mapRange ps pe) := by
  have hout : ¬ (isPageNumber ps && isPageNumber pe) = true := by
    rw [Bool.and_eq_true, isPageNumber_iff, isPageNumber_iff]
    omega
  unfold State.mapCall
  exact if_neg hout

theorem execCall_mapCallOf_of_no_fault {s : State} (hf : s.fault = none) (side : Side) (ps pe : Int) (t : TargetSpec) :
    execCall (mapCallOf side ps pe t) s = .next (State.mapCall side ps pe t { s with returned := none }) := by
  cases side with
  | R => exact State.command_of_none hf fun s => .next (s.mapCall .R ps pe t)
  | W => exact State.command_of_none hf fun s => .next (s.mapCall .W ps pe t)

/-- Settles O8: a number out of range is seen before MapSide. -/
theorem callPageNumbersAreNotMasked : Obligations.CallPageNumbersAreNotMasked := by
  unfold Obligations.CallPageNumbersAreNotMasked
  intro s side ps pe t hf hout
  rw [execCall_mapCallOf_of_no_fault hf, State.mapCall_of_out_of_range hout]
  rfl

/-! ## A map command, case by case -/

/-- A map command with an assigned handle is MapSide of the handle's target (40_mapping R101, R102). -/
theorem exec_mapInstr_of_target {s : State} {h : Handle} {t : TargetSpec} (hf : s.fault = none)
    (ht : targetOf s.cfg h = some t) (side : Side) (ps pe : Page) :
    exec (mapInstr side ps pe h) s = .next (State.mapSide side ps pe t { s with returned := none }) := by
  rw [exec_mapInstr hf, State.mapHandle_of_some (s := { s with returned := none }) ht]

/-- Settles O11: MapSide passes its checks and writes the pages of the range. -/
theorem mapCommandCompletes : Obligations.MapCommandCompletes := by
  unfold Obligations.MapCommandCompletes
  intro s side ps pe h t hf ht hle hc hi
  exact ⟨_, exec_mapInstr_of_target hf ht side ps pe, State.setPages_effect side ps pe t hf
    (State.mapSide_of_pass (s := { s with returned := none }) hle hc hi)⟩

/-- Settles O13: MapSide sees the empty range before its checks. -/
theorem emptyRangeDoesNothing : Obligations.EmptyRangeDoesNothing := by
  unfold Obligations.EmptyRangeDoesNothing
  intro s side ps pe h t hf ht hlt
  rw [exec_mapInstr_of_target hf ht, State.mapSide_of_empty hlt]

/-- Settles O14: the handle is looked up before MapSide, and handle 0 before the table of the configuration. -/
theorem unassignedHandleFaults : Obligations.UnassignedHandleFaults := by
  unfold Obligations.UnassignedHandleFaults
  refine ⟨fun s side ps pe h hf ht => ?_, fun c => if_pos rfl⟩
  rw [exec_mapInstr hf, State.mapHandle_of_none (s := { s with returned := none }) ht]
  rfl

/-- Settles O15: the check that applies is the fault MapSide raises. -/
theorem mapTimeChecks : Obligations.MapTimeChecks := by
  unfold Obligations.MapTimeChecks
  intro s side ps pe h t hf ht hle
  refine mapTimeRows_of_checkTarget fun f hc => ?_
  rw [exec_mapInstr_of_target hf ht, State.mapSide_of_check (s := { s with returned := none }) hle hc]
  rfl

/-- Settles O16: MapSide looks for the lowest page in flight after its target passed. -/
theorem remapInFlightFaults : Obligations.RemapInFlightFaults := by
  unfold Obligations.RemapInFlightFaults
  intro s side ps pe p h t hf ht hc h1 h2 hp hmin
  have hlow := (State.lowestInFlight_some s ps pe p).mpr ⟨hp, ⟨h1, h2⟩, hmin⟩
  rw [exec_mapInstr_of_target hf ht, State.mapSide_of_inFlight (s := { s with returned := none }) hc hlow]
  rfl

/-! ## A map command that completes -/

/-- Every map command, one that faults included, writes the page table and FAULT at most (40_mapping R100). -/
theorem exec_mapInstr_mapRel {s u : State} {side : Side} {ps pe : Page} {h : Handle}
    (hx : exec (mapInstr side ps pe h) s = .next u) : MapRel { s with returned := none } u := by
  rw [exec_mapInstr (exec_next_fault hx)] at hx
  cases hx
  exact State.mapHandle_mapRel ..

/-- The handle of a map command that completes is assigned (40_mapping R101, R102). -/
theorem target_of_completed_map {s u : State} {side : Side} {ps pe : Page} {h : Handle}
    (hx : exec (mapInstr side ps pe h) s = .next u) (hu : u.fault = none) : ∃ t, targetOf s.cfg h = some t := by
  refine Option.ne_none_iff_exists'.mp fun ht => ?_
  rw [exec_mapInstr (exec_next_fault hx), State.mapHandle_of_none (s := { s with returned := none }) ht] at hx
  cases hx
  cases hu

/-- What a map command that completes leaves at a page: on its side the pages of the range have the target's
descriptor, every other descriptor is as before (40_mapping R103). -/
theorem descAt_of_completed_map {s u : State} {side : Side} {ps pe : Page} {h : Handle} {t : TargetSpec}
    (hx : exec (mapInstr side ps pe h) s = .next u) (hu : u.fault = none) (ht : targetOf s.cfg h = some t)
    (side' : Side) (p : Page) :
    u.descAt side' p = if side' = side ∧ ps ≤ p ∧ p ≤ pe then desc t ps p else s.descAt side' p := by
  rw [exec_mapInstr_of_target (exec_next_fault hx) ht] at hx
  cases hx
  rw [State.descAt_mapSide hu]
  simp only [inRange_iff]
  cases side' <;> rfl

/-- Settles O12: a completed command leaves FAULT as it was, so of its frame only the page table is left. -/
theorem mapCommandFrame : Obligations.MapCommandFrame := by
  unfold Obligations.MapCommandFrame
  intro s u side ps pe h hx hu
  obtain ⟨t, ht⟩ := target_of_completed_map hx hu
  have hdesc := descAt_of_completed_map hx hu ht
  have hframe : u = { s with ptR := u.ptR, ptW := u.ptW, fault := u.fault, returned := none } :=
    (exec_mapInstr_mapRel hx).frame
  have hfault : u.fault = s.fault := hu.trans (exec_next_fault hx).symm
  refine ⟨?_, fun p => ?_, fun p hp => ?_, t, ht, fun p h1 h2 => ?_⟩
  · rw [hfault] at hframe
    exact hframe
  · rw [hdesc, if_neg]
    cases side <;> simp
  · rw [hdesc, if_neg fun hin => hp hin.2]
  · rw [hdesc, if_pos ⟨rfl, h1, h2⟩]

/-- Settles O18: what the second command leaves, in the state the first one left. -/
theorem laterMapWins : Obligations.LaterMapWins := by
  unfold Obligations.LaterMapWins
  intro s u v side ps pe ps' pe' h h' t t' hx hu ht hx' hv ht' p
  have hcfg : u.cfg = s.cfg := (exec_mapInstr_mapRel hx).frame.cfg
  rw [← hcfg] at ht'
  rw [descAt_of_completed_map hx' hv ht', descAt_of_completed_map hx hu ht]
  simp only [true_and]

/-- Settles O19: the page read has the mapped buffer's descriptor, and the map kept the invariant and the buffers. -/
theorem mappedBufferReadsContiguously : Obligations.MappedBufferReadsContiguously := by
  unfold Obligations.MappedBufferReadsContiguously
  intro s u ps pe h buf base a hinv hx hu ht h1 h2
  have hmap : exec (mapInstr .R ps pe h) s = .next u := hx
  have hrel := exec_mapInstr_mapRel hmap
  have hinv' : u.inv = true := hrel.keeps.of_cleared.inv (exec_next_fault hx) hinv
  have hdesc : u.descAt .R (pageOf a) = desc (.buffer buf base) ps (pageOf a) := by
    rw [descAt_of_completed_map hmap hu ht, if_pos ⟨rfl, h1, h2⟩]
  have hbufs : u.bufs = s.bufs := hrel.frame.bufs
  rw [exec_read_of_mapped_buffer hinv' hu hdesc h1, State.bufRead_congr hbufs]

end Sys2Proof.Machine
end

-- Family 41_access: what a READ and a WRITE do through each kind of descriptor, what they leave, and what they consult.
section
/-! SUPPORT. The frames of READ and WRITE, and why neither faults under the invariant. -/

namespace Sys2Proof.Machine

/-! ## READ -/

theorem State.bufHas_congr {s t : State} (hc : t.cfg = s.cfg) (hb : t.bufs = s.bufs) (b i : Nat) :
    t.bufHas b i = s.bufHas b i := by
  unfold State.bufHas
  rw [hc, hb]

theorem State.mbxRead_congr {s t : State} (hc : t.cfg = s.cfg) (hm : t.mbxRam = s.mbxRam) (w : WordIndex) :
    t.mbxRead w = s.mbxRead w := by
  unfold State.mbxRead
  rw [hc, hm]

/-- Settles O27, by the kinds of read descriptor: only a platform handler's appends an event and counts a draw. -/
theorem readFrame : Obligations.ReadFrame := by
  unfold Obligations.ReadFrame
  intro s u a h
  obtain ⟨-, ⟨-, rfl⟩ | ⟨buf, off, -, -, rfl⟩ | ⟨woff, -, rfl⟩ | ⟨id, hd, rfl⟩⟩ := read_cases h
  · exact ⟨rfl, Option.some_ne_none _, fun _ => ⟨rfl, rfl⟩⟩
  · exact ⟨rfl, Option.some_ne_none _, fun _ => ⟨rfl, rfl⟩⟩
  · exact ⟨rfl, Option.some_ne_none _, fun _ => ⟨rfl, rfl⟩⟩
  · exact ⟨rfl, Option.some_ne_none _, fun hn => absurd hd (hn id)⟩

/-- Settles O26: the other state has the same descriptor, and what that leads to reads alike in both. -/
theorem readConsultsOnlyItsDescriptor : Obligations.ReadConsultsOnlyItsDescriptor := by
  unfold Obligations.ReadConsultsOnlyItsDescriptor
  intro s t u a hdesc hcfg hbufs hram hdraws hfault h
  obtain ⟨hf, hcases⟩ := read_cases h
  rw [hfault] at hf
  rw [hdesc] at hcases
  obtain ⟨hd, rfl⟩ | ⟨buf, off, hd, hb, rfl⟩ | ⟨woff, hd, rfl⟩ | ⟨id, hd, rfl⟩ := hcases
  · exact ⟨_, exec_read_of_discard hf hd, rfl⟩
  · rw [State.bufHas_congr hcfg hbufs] at hb
    exact ⟨_, exec_read_of_buffer hf hd hb, by simp only [State.bufRead_congr hbufs]⟩
  · exact ⟨_, exec_read_of_mbx hf hd, by simp only [State.mbxRead_congr hcfg hram]⟩
  · exact ⟨_, exec_read_of_platform hf hd, by simp only [hdraws]⟩

/-- Under the invariant a READ completes: the byte of a buffer exists, and no read side is the glue (41_access R128). -/
theorem read_completes {s : State} (hinv : s.inv = true) (hf : s.fault = none) (a : Addr) :
    ∃ u : State, exec (.read a) s = .next u ∧ u.fault = none := by
  cases hd : s.descAt .R (pageOf a) with
  | discard => exact ⟨_, exec_read_of_discard hf hd, hf⟩
  | buffer buf off => exact ⟨_, exec_read_of_buffer hf hd (State.bufHas_of_read hinv hd), hf⟩
  | mbx woff => exact ⟨_, exec_read_of_mbx hf hd, hf⟩
  | handler h =>
    cases h with
    | glue => exact absurd hd (State.descAt_read_ne_glue hinv _)
    | platform id => exact ⟨_, exec_read_of_platform hf hd, hf⟩

/-! ## WRITE -/

/-- A store to Mathbox Memory writes Mathbox RAM at most (41_access R124). -/
theorem State.mbxWrite_frame (w : WordIndex) (v : Word) (s : State) :
    s.mbxWrite w v = { s with mbxRam := (s.mbxWrite w v).mbxRam } := by
  unfold State.mbxWrite
  split
  · rfl
  · rfl

/-- Under the invariant a WRITE completes: the byte of a buffer exists, and no map a glue write issues faults
(41_access R128, 60_exceptions R203). -/
theorem write_completes {s : State} (hinv : s.inv = true) (hf : s.fault = none) (a : Addr) (d : Byte) :
    ∃ u : State, exec (.write a d) s = .next u ∧ u.fault = none := by
  cases hd : s.descAt .W (pageOf a) with
  | discard => exact ⟨_, exec_write_of_discard hf hd d, hf⟩
  | buffer buf off => exact ⟨_, exec_write_of_buffer hf hd (State.bufHas_of_write hinv hd) d, hf⟩
  | mbx woff => exact ⟨_, exec_write_of_mbx hf hd d, (State.mbxWrite_fault ..).trans hf⟩
  | handler h =>
    cases h with
    | glue =>
      have hnext := exec_write_of_glue hf hd d
      exact ⟨_, hnext, (write_glue_next hinv hd hnext).1⟩
    | platform id => exact ⟨_, exec_write_of_platform hf hd d, hf⟩

/-- A WRITE that is not routed to the glue changes the buffers, Mathbox RAM and the trace at most, the trace only
through a platform handler (41_access R126). -/
theorem write_frame {s u : State} {a : Addr} {d : Byte} (h : exec (.write a d) s = .next u)
    (hg : s.descAt .W (pageOf a) ≠ .handler .glue) :
    u = { s with bufs := u.bufs, mbxRam := u.mbxRam, ev := u.ev, returned := none } ∧
      ((∀ id, s.descAt .W (pageOf a) ≠ .handler (.platform id)) → u.ev = s.ev) := by
  obtain ⟨-, ⟨-, rfl⟩ | ⟨buf, off, -, -, rfl⟩ | ⟨woff, -, rfl⟩ | ⟨id, hd, rfl⟩ | ⟨hd, -⟩⟩ := write_cases h
  · exact ⟨rfl, fun _ => rfl⟩
  · exact ⟨rfl, fun _ => rfl⟩
  · rw [State.mbxWrite_frame]
    exact ⟨rfl, fun _ => rfl⟩
  · exact ⟨rfl, fun hn => absurd hd (hn id)⟩
  · exact absurd hd hg

/-- A WRITE that is not routed to the glue changes a word of Mathbox Memory only where its descriptor names that word
(41_access R124, R126). -/
theorem write_changes_named_word {s u : State} {a : Addr} {d : Byte} (h : exec (.write a d) s = .next u)
    (hg : s.descAt .W (pageOf a) ≠ .handler .glue) {w : WordIndex} (hne : u.mbxRead w ≠ s.mbxRead w) :
    ∃ woff, s.descAt .W (pageOf a) = .mbx woff ∧ w = windowWord woff a := by
  obtain ⟨-, ⟨-, rfl⟩ | ⟨buf, off, -, -, rfl⟩ | ⟨woff, hd, rfl⟩ | ⟨id, -, rfl⟩ | ⟨hd, -⟩⟩ := write_cases h
  · exact absurd rfl hne
  · exact absurd rfl hne
  · rw [State.mbxRead_mbxWrite] at hne
    split at hne
    · next hw => exact ⟨woff, hd, hw.1⟩
    · exact absurd rfl hne
  · exact absurd rfl hne
  · exact absurd hd hg

/-- Settles O28: a byte or a word that changed is the one the descriptor names. -/
theorem writeFrame : Obligations.WriteFrame := by
  unfold Obligations.WriteFrame
  intro s u a d h hg
  obtain ⟨hframe, hev⟩ := write_frame h hg
  refine ⟨hframe, fun b i hi => ?_, fun w hw => ?_, hev⟩
  · by_contra hne
    obtain ⟨off, hd, hoff⟩ := write_changes_named_byte h hne
    exact hi off hd hoff
  · by_contra hne
    obtain ⟨woff, hd, rfl⟩ := write_changes_named_word h hg hne
    exact hw woff hd (windowWord_toNat woff a)

/-! ## Both -/

/-- Settles O25: READ and WRITE complete by the kinds of descriptor the invariant allows. -/
theorem accessesNeverFault : Obligations.AccessesNeverFault := by
  unfold Obligations.AccessesNeverFault
  exact fun s hinv hf a d => ⟨read_completes hinv hf a, write_completes hinv hf a d⟩

/-- Settles O24: a READ leaves INFLIGHT in its frame, and a WRITE that completes has popped what it pushed. -/
theorem inflightRestored : Obligations.InflightRestored := by
  unfold Obligations.InflightRestored
  intro s u a d
  refine ⟨fun h => ?_, fun h hu => (write_keeps h).inflight hu⟩
  rw [(readFrame s u a h).1]

end Sys2Proof.Machine
end

section
/-! SUPPORT. READ and WRITE through each kind of descriptor. -/

namespace Sys2Proof.Machine

/-- Settles O20: Discard answers its constant and takes no byte. -/
theorem discardAccess : Obligations.DiscardAccess := by
  unfold Obligations.DiscardAccess
  exact fun s a d hf => ⟨exec_read_of_discard hf, fun hd => exec_write_of_discard hf hd d⟩

/-- Settles O21: the invariant has the addressed byte inside the buffer, and there the access reads or writes it. -/
theorem bufferAccess : Obligations.BufferAccess := by
  unfold Obligations.BufferAccess
  refine fun s a d buf off hinv hf => ⟨fun hd => ?_, fun hd => ?_⟩
  · have hb := State.bufHas_of_read hinv hd
    obtain ⟨info, hinfo, hlt, -⟩ := (State.bufHas_iff ..).mp hb
    exact ⟨⟨info, hinfo, hlt⟩, exec_read_of_buffer hf hd hb⟩
  · have hb := State.bufHas_of_write hinv hd
    obtain ⟨info, hinfo, hlt, hlen⟩ := (State.bufHas_iff ..).mp hb
    exact ⟨⟨info, hinfo, hlt⟩, _, exec_write_of_buffer hf hd hb d, rfl,
      fun b i => State.bufRead_bufWrite { s with returned := none } _ _ b i d hlen⟩

/-- Settles O22: the routes through a handler; that no read side is the glue is the invariant's. -/
theorem handlerAccess : Obligations.HandlerAccess := by
  unfold Obligations.HandlerAccess
  exact fun s a d hf => ⟨fun id hd => exec_read_of_platform hf hd, fun id hd => exec_write_of_platform hf hd d,
    fun hd => exec_write_of_glue hf hd d, fun hinv => State.descAt_read_ne_glue hinv (pageOf a)⟩

/-- The RAM word a WRITE addresses afterwards: the half its address names is the byte, the other half is as it was
(41_access R124). -/
theorem mbxRead_toNat_of_write {s u : State} {a : Addr} {d : Byte} {woff : WordIndex}
    (h : exec (.write a d) s = .next u) (hd : s.descAt .W (pageOf a) = .mbx woff)
    (hw : (windowWord woff a).toNat < 0x2000) : (u.mbxRead (windowWord woff a)).toNat =
      if a.toNat % 2 = 0 then d.toNat * 256 + (s.mbxRead (windowWord woff a)).toNat % 256
      else (s.mbxRead (windowWord woff a)).toNat / 256 * 256 + d.toNat := by
  rw [word_toNat_eq_lanes, laneGet_mbxRead_of_write h hd hw, laneGet_mbxRead_of_write h hd hw, laneOf_eq]
  obtain heven | hodd := Nat.mod_two_eq_zero_or_one a.toNat
  · simp [heven, laneGet_toNat]
  · simp [hodd, laneGet_toNat]

/-- Settles O23: the window's word by its value, the lane of a READ, the half a WRITE replaces in RAM, the drop in
ROM. -/
theorem mathboxWindowAccess : Obligations.MathboxWindowAccess := by
  unfold Obligations.MathboxWindowAccess
  intro s a d woff w hf hw
  obtain rfl : windowWord woff a = w := BitVec.eq_of_toNat_eq ((windowWord_toNat woff a).trans hw.symm)
  refine ⟨fun hd => ⟨_, exec_read_of_mbx hf hd, laneGet_laneOf_toNat a _⟩, fun hd => ⟨fun hrom => ?_, fun hram => ?_⟩⟩
  · rw [exec_write_of_mbx hf hd, State.mbxWrite_of_rom hrom]
  · have h := exec_write_of_mbx hf hd d
    exact ⟨_, h, State.mbxWrite_frame _ _ { s with returned := none }, mbxRead_toNat_of_write h hd hram,
      fun w' hne => (State.mbxRead_mbxWrite { s with returned := none } _ w' _).trans (if_neg fun e => hne e.1)⟩

end Sys2Proof.Machine
end

section
/-! SUPPORT. The glue registers, each alone at its address, and a glue WRITE at no register. -/

namespace Sys2Proof.Machine

/-! ## The state in which the glue takes a WRITE -/

/-- The access is in flight and nothing is returned yet (41_access R123). -/
def State.inGlue (a : Addr) (s : State) : State := State.push .W (pageOf a) { s with returned := none }

/-- A WRITE routed to the glue at an address of no bank select is what follows the bank selects (42_register_glue
R151). -/
theorem exec_write_of_glueTail {s t : State} {a : Addr} {d : Byte} (hf : s.fault = none)
    (hg : s.descAt .W (pageOf a) = .handler .glue) (hbank : ∀ b ∈ s.cfg.banks, b.addr ≠ a)
    (ht : State.glueTail a d (s.inGlue a) = t) : exec (.write a d) s = .next t.pop := by
  rw [← ht]
  exact exec_write_glue_of_no_bank hf hg hbank d

/-! ## What follows the bank selects, where at most one function has the address -/

theorem startLevelOf_iff (c : Config) (d : Byte) : startLevelOf c d = true ↔ d &&& c.ctrlAStartMask ≠ 0#8 :=
  decide_eq_true_iff

section

variable {s : State} {a : Addr} (d : Byte)

theorem State.glueTail_of_no_register (hA : a ≠ s.cfg.ctrlAAddr) (hB : a ≠ s.cfg.ctrlBAddr)
    (hM : s.cfg.alphaMapAddr ≠ some a) : s.glueTail a d = s := by
  simp [State.glueTail, hA, hB, hM]

theorem State.glueTail_of_ctrlA (hA : a = s.cfg.ctrlAAddr) (hB : a ≠ s.cfg.ctrlBAddr)
    (hM : s.cfg.alphaMapAddr ≠ some a) : s.glueTail a d = s.ctrlAWrite d := by
  have hcfg : (s.ctrlAWrite d).cfg = s.cfg := (State.ctrlAWrite_glueRel d s).cfg
  simp only [State.glueTail, if_pos hA, hcfg, if_neg hB, if_neg hM]

theorem State.glueTail_of_ctrlB (hA : a ≠ s.cfg.ctrlAAddr) (hB : a = s.cfg.ctrlBAddr)
    (hM : s.cfg.alphaMapAddr ≠ some a) : s.glueTail a d = s.emit (.videoCtrl d) := by
  simp only [State.glueTail, if_neg hA, if_pos hB, State.emit_cfg, if_neg hM]

theorem State.glueTail_of_alphaMap (hA : a ≠ s.cfg.ctrlAAddr) (hB : a ≠ s.cfg.ctrlBAddr)
    (hM : s.cfg.alphaMapAddr = some a) : s.glueTail a d = s.emit (.alphaMap d) := by
  simp only [State.glueTail, if_neg hA, if_neg hB, if_pos hM]

end

theorem mem_glueAddrs_iff (c : Config) (a : Addr) : a ∈ glueAddrs c ↔
    (∃ b ∈ c.banks, b.addr = a) ∨ a = c.ctrlAAddr ∨ a = c.ctrlBAddr ∨ c.alphaMapAddr = some a := by
  simp [glueAddrs]

/-- Settles O32: no function has the address, and the access is popped as it was pushed. -/
theorem glueNonRegisterWrite : Obligations.GlueNonRegisterWrite := by
  unfold Obligations.GlueNonRegisterWrite
  intro s a d hf hg ha
  simp only [mem_glueAddrs_iff, not_or, not_exists, not_and] at ha
  obtain ⟨hbank, hA, hB, hM⟩ := ha
  exact exec_write_of_glueTail hf hg hbank (State.glueTail_of_no_register d hA hB hM)

/-- Settles O37: the one function at the address emits its event, and the access is popped as it was pushed. -/
theorem videoAndAlphaEvents : Obligations.VideoAndAlphaEvents := by
  unfold Obligations.VideoAndAlphaEvents
  intro s a d hf hg hbank hA
  exact ⟨fun hB hM => exec_write_of_glueTail hf hg hbank (State.glueTail_of_ctrlB d hA hB hM),
    fun hB hM => exec_write_of_glueTail hf hg hbank (State.glueTail_of_alphaMap d hA hB hM)⟩

/-! ## Control register A -/

section

variable {s : State} {d : Byte}

theorem State.ctrlAWrite_of_low (hd : d &&& s.cfg.ctrlAStartMask = 0#8) :
    s.ctrlAWrite d = { s with startLevel := false } := by
  have hlow : startLevelOf s.cfg d = false := decide_eq_false_iff_not.mpr (not_not.mpr hd)
  obtain ⟨hhigh, -, -⟩ | ⟨-, e⟩ := State.ctrlAWrite_cases d s
  · exact absurd hd ((startLevelOf_iff s.cfg d).mp hhigh)
  · rw [e, hlow]

theorem State.ctrlAWrite_of_high (hd : d &&& s.cfg.ctrlAStartMask ≠ 0#8) (hl : s.startLevel = true) :
    s.ctrlAWrite d = s := by
  have hhigh : startLevelOf s.cfg d = true := (startLevelOf_iff s.cfg d).mpr hd
  obtain ⟨-, hlow, -⟩ | ⟨-, e⟩ := State.ctrlAWrite_cases d s
  · simp [hl] at hlow
  · rw [e, hhigh, ← hl]

theorem State.ctrlAWrite_of_rise (hd : d &&& s.cfg.ctrlAStartMask ≠ 0#8) (hl : s.startLevel = false) :
    s.ctrlAWrite d = State.mathboxStart { s with startLevel := true } := by
  obtain ⟨-, -, e⟩ | ⟨hn, -⟩ := State.ctrlAWrite_cases d s
  · exact e
  · exact absurd ⟨(startLevelOf_iff s.cfg d).mpr hd, hl⟩ hn

end

/-- A word of Mathbox Memory after an engine start: a free value in RAM, as it was in ROM (42_register_glue R162,
R163). -/
theorem State.mbxRead_mathboxStart (s : State) (w : WordIndex) : s.mathboxStart.mbxRead w =
    if w.toNat < 0x2000 then Config.engineWord s.draws s.mbxRam s.cfg.mbxRom w.toNat else s.mbxRead w := by
  rw [State.mathboxStart_eq]
  unfold State.mbxRead mbxRamWords
  split
  · next hw => rw [Cells.read_ofFn, if_pos hw]
  · rfl

/-- Settles O35: the level latched is the byte's, and only a rise of it starts the engine. -/
theorem controlAStartsOnRisingEdge : Obligations.ControlAStartsOnRisingEdge := by
  unfold Obligations.ControlAStartsOnRisingEdge
  intro s a d hf hg hA hbank hB hM
  have tail : State.glueTail a d (s.inGlue a) = State.ctrlAWrite d (s.inGlue a) :=
    State.glueTail_of_ctrlA d hA hB hM
  refine ⟨fun hd => ?_, fun hd hl => ?_, fun hd hl => ?_⟩
  · exact exec_write_of_glueTail hf hg hbank (tail.trans (State.ctrlAWrite_of_low hd))
  · exact exec_write_of_glueTail hf hg hbank (tail.trans (State.ctrlAWrite_of_high hd hl))
  · rw [exec_write_of_glueTail hf hg hbank (tail.trans (State.ctrlAWrite_of_rise hd hl))]
    refine ⟨_, rfl, ?_, State.mbxRead_mathboxStart _⟩
    rw [State.mathboxStart_eq]
    rfl

/-! ## One bank select -/

/-- Of a procedure over 0 .. n-1 whose other parts do nothing, the one part k is what it does. -/
theorem State.forEach_range_of_single {body : Nat → State → State} {n k : Nat} {s : State} (hk : k < n)
    (hf : s.fault = none) (before : ∀ j, j < k → body j s = s)
    (after : ∀ j, k < j → body j (body k s) = body k s) : State.forEach (List.range n) body s = body k s := by
  have upTo (n : Nat) : State.forEach (List.range n) body s = if k < n then body k s else s := by
    induction n with
    | zero => rfl
    | succ n ih =>
      have step : State.forEach (List.range (n + 1)) body s =
          (State.forEach (List.range n) body s).andThen (body n) := by
        simp only [State.forEach, List.range_succ, List.foldl_append, List.foldl_cons, List.foldl_nil]
      rw [step, ih]
      obtain hlt | rfl | hgt := Nat.lt_trichotomy k n
      · rw [if_pos hlt, if_pos (by omega)]
        obtain ⟨-, e⟩ | ⟨-, e⟩ := State.andThen_cases (body k s) (body n)
        · exact e.trans (after n hlt)
        · exact e
      · rw [if_neg (by omega), if_pos (by omega), State.andThen_of_none hf]
      · rw [if_neg (by omega), if_neg (by omega), State.andThen_of_none hf, before n hgt]
  rw [upTo, if_pos hk]

/-- Where bank select k alone has the address, the bank selects are its own (42_register_glue R151). -/
theorem State.bankSelects_of_single {s : State} {a : Addr} {k : Nat} {b : BankSelect} (hf : s.fault = none)
    (hb : s.cfg.banks[k]? = some b) (ha : b.addr = a)
    (alone : ∀ j b', s.cfg.banks[j]? = some b' → b'.addr = a → j = k) (d : Byte) :
    s.bankSelects a d = s.bankSelectWrite k d := by
  have other {j : Nat} {t : State} (hc : t.cfg = s.cfg) (hj : j ≠ k) :
      ¬ (t.cfg.banks[j]?).map BankSelect.addr = some a := by
    rw [hc, Option.map_eq_some_iff]
    rintro ⟨b', hb', ha'⟩
    exact hj (alone j b' hb' ha')
  have single : (s.cfg.banks[k]?).map BankSelect.addr = some a := by rw [hb, Option.map_some, ha]
  unfold State.bankSelects
  rw [State.forEach_range_of_single (List.getElem?_eq_some_iff.mp hb).1 hf, if_pos single]
  · exact fun j hj => if_neg (other rfl (by omega))
  · intro j hj
    rw [if_pos single]
    exact if_neg (other (State.bankSelectWrite_glueRel k d s).cfg (by omega))

theorem bankDecode_eq_getD (b : BankSelect) (d : Byte) : bankDecode b d = b.decode.toList.getD d.toNat 0 := by
  unfold bankDecode
  simp [List.getD_eq_getElem?_getD, d.isLt]

/-- Settles O33: the one bank select at the address is all of the dispatch, and its two maps do not fault. -/
theorem bankSelectSwitchesWindow : Obligations.BankSelectSwitchesWindow := by
  unfold Obligations.BankSelectSwitchesWindow
  intro s a d k b hinv hf hg hb ha alone hA hB hM
  obtain ⟨-, -, -, hdesc, hframe⟩ := State.bankSelectWrite_ok (glueReady_of_inv hinv hf a) hf hb ha d
  have hcfg : (State.bankSelectWrite k d (s.inGlue a)).cfg = s.cfg := (State.bankSelectWrite_glueRel ..).cfg
  have select : State.bankSelects a d (s.inGlue a) = State.bankSelectWrite k d (s.inGlue a) :=
    State.bankSelects_of_single (s := s.inGlue a) hf hb ha alone d
  have tail : State.glueTail a d (State.bankSelectWrite k d (s.inGlue a)) = State.bankSelectWrite k d (s.inGlue a) :=
    State.glueTail_of_no_register d (hcfg ▸ hA) (hcfg ▸ hB) (hcfg ▸ hM)
  obtain ⟨u, h, -⟩ := write_completes hinv hf a d
  obtain rfl : u = (State.bankSelectWrite k d (s.inGlue a)).pop := by
    rw [(write_glue_next hinv hg h).2]
    exact congrArg State.pop ((congrArg (State.glueTail a d) select).trans tail)
  rw [← bankDecode_eq_getD]
  refine ⟨_, h, congrArg State.pop hframe, fun side p => (hdesc side p).trans ?_⟩
  simp only [inRange_iff, bankTargets]
  cases b.table.lookup (bankDecode b d) with
  | none => cases side <;> rfl
  | some t => rfl

end Sys2Proof.Machine
end

section
/-! SUPPORT. A glue WRITE at any address: every function there, in the order of the dispatch. -/

namespace Sys2Proof.Machine

/-! ## The bank selects, view by view -/

/-- Under a well-formed configuration a view of the state is computed bank select by bank select, those at other
addresses left out (42_register_glue R151). -/
theorem State.bankSelects_view {β : Type} (view : State → β) {g : β → Nat → β} {a : Addr} {c : Config} {d : Byte}
    (selects : ∀ k b t, GlueReady a c t → t.fault = none → c.banks[k]? = some b → b.addr = a →
      view (t.bankSelectWrite k d) = g (view t) k)
    (skips : ∀ k x, (∀ b, c.banks[k]? = some b → b.addr ≠ a) → g x k = x) {s : State} (hr : GlueReady a c s)
    (hf : s.fault = none) : view (s.bankSelects a d) = (List.range c.banks.length).foldl g (view s) := by
  unfold State.bankSelects
  rw [hr.cfg]
  refine State.forEach_view (P := GlueReady a c) view (fun k _ t ht htf => ?_) hr hf
  rw [ht.cfg]
  by_cases hk : (c.banks[k]?).map BankSelect.addr = some a
  · obtain ⟨b, hb, ha⟩ := Option.map_eq_some_iff.mp hk
    rw [if_pos hk]
    exact ⟨ht.of_rel (State.bankSelectWrite_glueRel k d t), (State.bankSelectWrite_ok ht htf hb ha d).1,
      selects k b t ht htf hb ha⟩
  · rw [if_neg hk]
    exact ⟨ht, htf, (skips k _ fun b hb ha => hk (Option.map_eq_some_iff.mpr ⟨b, hb, ha⟩)).symm⟩

/-- The event of bank select k when the byte d is written to a, if its register is there (42_register_glue R154). -/
def selectEvent (c : Config) (a : Addr) (d : Byte) (k : Nat) : Option Event :=
  match c.banks[k]? with
  | some b => if b.addr = a then some (.bankSel k (bankDecode b d)) else none
  | none => none

theorem selectEvent_of_some {c : Config} {a : Addr} {k : Nat} {b : BankSelect} (hb : c.banks[k]? = some b)
    (ha : b.addr = a) (d : Byte) : selectEvent c a d k = some (.bankSel k (bankDecode b d)) := by
  unfold selectEvent
  rw [hb]
  exact if_pos ha

theorem selectEvent_of_none {c : Config} {a : Addr} {k : Nat} (h : ∀ b, c.banks[k]? = some b → b.addr ≠ a) (d : Byte) :
    selectEvent c a d k = none := by
  unfold selectEvent
  split
  · next b hb => exact if_neg (h b hb)
  · rfl

theorem foldl_append_toList {α β : Type} (f : α → Option β) (xs : List α) (l : List β) :
    xs.foldl (fun l x => l ++ (f x).toList) l = l ++ xs.filterMap f := by
  induction xs generalizing l with
  | nil => simp
  | cons x xs ih =>
    rw [List.foldl_cons, ih, List.filterMap_cons]
    cases f x <;> simp

section

variable {a : Addr} {c : Config} {s : State} (hr : GlueReady a c s) (hf : s.fault = none) (d : Byte)

include hr hf

/-- The bank selects append one event each, in ascending order (42_register_glue R151, R154). -/
theorem State.bankSelects_ev :
    (s.bankSelects a d).ev = s.ev ++ (List.range c.banks.length).filterMap (selectEvent c a d) := by
  rw [← foldl_append_toList]
  refine State.bankSelects_view State.ev (fun k b t ht htf hb ha => ?_) (fun k evs hk => ?_) hr hf
  · obtain ⟨-, -, hev, -, -⟩ := State.bankSelectWrite_ok ht htf hb ha d
    rw [hev, selectEvent_of_some hb ha, Option.toList_some]
  · rw [selectEvent_of_none hk, Option.toList_none, List.append_nil]

/-- BANK[k] takes the decoded byte where bank select k has the address, and stays otherwise (42_register_glue R154). -/
theorem State.bankSelects_bank {k : Nat} {b : BankSelect} (hb : c.banks[k]? = some b) :
    (s.bankSelects a d).bank[k]? = if b.addr = a then some (bankDecode b d) else s.bank[k]? := by
  have fold := State.bankSelects_view (d := d) (fun t => t.bank[k]?)
    (g := fun old j => if j = k ∧ b.addr = a then some (bankDecode b d) else old) (fun j b' t ht htf hb' ha => ?_)
    (fun j old hj => if_neg fun ⟨e, ha⟩ => hj b (e ▸ hb) ha) hr hf
  · rw [fold]
    by_cases ha : b.addr = a
    · rw [if_pos ha]
      refine foldl_range_of_last (List.getElem?_eq_some_iff.mp hb).1 (fun _ => ?_) (fun j hj _ => ?_) _
      · exact if_pos ⟨rfl, ha⟩
      · exact if_neg fun e => by omega
    · rw [if_neg ha]
      exact List.foldl_fixed' (fun _ => if_neg fun e => ha e.2) _
  · obtain ⟨-, hbank, -, -, -⟩ := State.bankSelectWrite_ok ht htf hb' ha d
    rw [hbank, List.getElem?_set]
    by_cases hj : j = k
    · subst hj
      obtain rfl : b' = b := Option.some.inj (hb'.symm.trans hb)
      have hlen : j < t.bank.length := ht.banks ▸ (List.getElem?_eq_some_iff.mp hb).1
      simp [hlen, ha]
    · simp [hj]

/-- The bank selects leave the start level and draw nothing (42_register_glue R154). -/
theorem State.bankSelects_keep_engine :
    (s.bankSelects a d).startLevel = s.startLevel ∧ (s.bankSelects a d).draws = s.draws := by
  have fold := State.bankSelects_view (d := d) (fun t => (t.startLevel, t.draws)) (g := fun old _ => old)
    (fun k b t ht htf hb ha => ?_) (fun _ _ _ => rfl) hr hf
  · rw [List.foldl_fixed] at fold
    exact Prod.mk.inj fold
  · obtain ⟨-, -, -, -, hframe⟩ := State.bankSelectWrite_ok ht htf hb ha d
    rw [hframe]

end

/-! ## The whole dispatch -/

/-- What a WRITE through the glue leaves of the state before it (42_register_glue R151). -/
theorem GlueRel.pop_inGlue {s t : State} {a : Addr} (h : GlueRel (s.inGlue a) t) :
    t.pop = { s with ptR := t.ptR, ptW := t.ptW, mbxRam := t.mbxRam, bank := t.bank, startLevel := t.startLevel,
                     fault := t.fault, ev := t.ev, draws := t.draws, returned := none } :=
  congrArg State.pop h.frame

/-- Settles O34: the bank selects and what follows them, part by part of the state. -/
theorem glueDispatchOrder : Obligations.GlueDispatchOrder := by
  unfold Obligations.GlueDispatchOrder
  intro s a d hinv hf hg
  have hready : GlueReady a s.cfg (s.inGlue a) := glueReady_of_inv hinv hf a
  have hev := State.bankSelects_ev hready hf d
  obtain ⟨hlevel, hdraws⟩ := State.bankSelects_keep_engine hready hf d
  have hram := State.bankSelects_mbxRam a d (s.inGlue a)
  have hrel := State.bankSelects_glueRel a d (s.inGlue a)
  obtain ⟨tailEv, tailLevel, tailKeeps, -⟩ := State.glueTail_spec a d (State.bankSelects a d (s.inGlue a))
  simp only [hrel.cfg, hev, hlevel, hdraws, hram, startLevelOf_iff] at tailEv tailLevel tailKeeps
  obtain ⟨u, h, hu⟩ := write_completes hinv hf a d
  have hdesc := descAt_of_write_glue hinv hg h
  have hlen := (write_keeps h).banks
  obtain rfl : u = (State.glueTail a d (State.bankSelects a d (s.inGlue a))).pop := (write_glue_next hinv hg h).2
  refine ⟨_, h, hu, tailEv, fun k b hb => ?_, tailLevel, hdesc, hlen, tailKeeps, ?_⟩
  · rw [State.pop_bank, State.glueTail_bank]
    exact State.bankSelects_bank hready hf d hb
  · have frame := (hrel.trans (State.glueTail_glueRel a d _)).pop_inGlue
    rw [State.pop_fault] at hu
    rw [hu, ← hf] at frame
    exact frame

end Sys2Proof.Machine
end

-- Family 60_exceptions: the faults of a map command, and what a bank select's faulting write-side map leaves.
section
/-! SUPPORT. Which fault a map-time check, and a map command with nothing in flight, can raise; ApplyBank with a write
side that its check refuses. -/

namespace Sys2Proof.Machine

/-! ## The faults of a map command -/

/-- The four faults of the map-time checks, with the side that two of them need (40_mapping R104). -/
theorem checkTarget_fault {c : Config} {side : Side} {ps pe : Page} {t : TargetSpec} {f : ModelFault}
    (h : checkTarget c side ps pe t = some f) :
    (∃ buf base, f = .mapBounds buf base ps pe) ∨ (side = .W ∧ ∃ buf, f = .mapReadonly buf) ∨
      f = .mapUnknown t ∨ (side = .R ∧ f = .mapGlueRead ps pe) := by
  unfold checkTarget at h
  cases t with
  | discard => cases h
  | buffer buf base =>
    cases hb : c.buffers[buf]? with
    | none =>
      simp only [hb] at h
      cases h
      exact .inr (.inr (.inl rfl))
    | some info =>
      simp only [hb] at h
      split_ifs at h with hlen hro <;> cases h
      · exact .inl ⟨buf, base, rfl⟩
      · exact .inr (.inl ⟨hro.1, buf, rfl⟩)
  | mbx wbase =>
    dsimp only at h
    split_ifs at h
    cases h
    exact .inr (.inr (.inl rfl))
  | handler id =>
    cases id with
    | glue =>
      dsimp only at h
      split_ifs at h with hside
      cases h
      exact .inr (.inr (.inr ⟨hside, rfl⟩))
    | platform n =>
      dsimp only at h
      split_ifs at h
      cases h
      exact .inr (.inr (.inl rfl))

/-- With nothing in flight MapSide raises what its check finds (40_mapping R104, R105). -/
theorem State.mapSide_fault {side : Side} {ps pe : Page} {t : TargetSpec} {s : State} {f : ModelFault}
    (hf : s.fault = none) (hi : s.inflight = []) (h : (s.mapSide side ps pe t).fault = some f) :
    checkTarget s.cfg side ps pe t = some f := by
  have hfree : s.lowestInFlight ps pe = none := (State.lowestInFlight_none ..).mpr (by simp [hi])
  rcases State.mapSide_cases side ps pe t s with ⟨-, e⟩ | ⟨-, g, hc, e⟩ | ⟨-, -, p, hl, -⟩ | ⟨-, -, -, e⟩
  · simp [e, hf] at h
  · rw [e] at h
    exact hc.trans h
  · simp [hfree] at hl
  · simp [e, hf] at h

/-- With nothing in flight a map command raises F_BAD_HANDLE or what the check of its target finds
(40_mapping R101, R102). -/
theorem State.mapHandle_fault {side : Side} {ps pe : Page} {h : Handle} {s : State} {f : ModelFault}
    (hf : s.fault = none) (hi : s.inflight = []) (hu : (s.mapHandle side ps pe h).fault = some f) :
    f = .badHandle h ∨ ∃ t, checkTarget s.cfg side ps pe t = some f := by
  cases ht : targetOf s.cfg h with
  | none =>
    rw [State.mapHandle_of_none ht] at hu
    exact .inl (Option.some.inj hu).symm
  | some t =>
    rw [State.mapHandle_of_some ht] at hu
    exact .inr ⟨t, State.mapSide_fault hf hi hu⟩

/-- Settles O17: the handle's fault and each fault of the checks has its code, and two of them need a side. -/
theorem directMapFaultCodes : Obligations.DirectMapFaultCodes := by
  unfold Obligations.DirectMapFaultCodes
  intro s u side ps pe h f hi hx hu
  have hf := exec_next_fault hx
  rw [exec_mapInstr hf] at hx
  cases hx
  rcases State.mapHandle_fault (s := { s with returned := none }) hf hi hu with rfl | ⟨t, hc⟩
  · simp [faultCode]
  · rcases checkTarget_fault hc with ⟨buf, base, rfl⟩ | ⟨rfl, buf, rfl⟩ | rfl | ⟨rfl, rfl⟩ <;> simp [faultCode]

/-! ## A bank select whose write side faults -/

/-- ApplyBank where the read side passes and the write side's check faults: the read side of the window is switched
before the fault is raised (42_register_glue R155, 60_exceptions R201). -/
theorem State.applyBank_of_write_fault {s : State} {k idx : Nat} {b : BankSelect} {f : ModelFault}
    (hf : s.fault = none) (hb : s.cfg.banks[k]? = some b) (hidx : s.bankIndex k = idx) (hle : b.winStart ≤ b.winEnd)
    (hR : checkTarget s.cfg .R b.winStart b.winEnd (bankTargets b idx).1 = none)
    (hW : checkTarget s.cfg .W b.winStart b.winEnd (bankTargets b idx).2 = some f)
    (hi : ∀ e ∈ s.inflight, ¬ (b.winStart ≤ e.2 ∧ e.2 ≤ b.winEnd)) :
    s.applyBank k = (s.setPages .R b.winStart b.winEnd (bankTargets b idx).1).raise f := by
  have hread : (s.setPages .R b.winStart b.winEnd (bankTargets b idx).1).fault = none := by simpa using hf
  rw [State.applyBank_of_some hb, hidx, State.mapSide_of_pass hle hR hi, State.andThen_of_none hread,
    State.mapSide_of_check hle (by simpa using hW)]

/-- Settles O39: the bank index and the event come before ApplyBank, and ApplyBank's read side before the fault. -/
theorem faultKeepsEarlierEffects : Obligations.FaultKeepsEarlierEffects := by
  unfold Obligations.FaultKeepsEarlierEffects
  intro s k d b f hf hb hk hle hR hW hi
  have happly := State.applyBank_of_write_fault
    (s := State.emit (.bankSel k (bankDecode b d)) { s with bank := s.bank.set k (bankDecode b d) }) hf hb
    (State.bankIndex_set hk ..) hle hR hW hi
  dsimp only
  rw [State.bankSelectWrite_of_some hb, happly]
  refine ⟨rfl, fun p => ?_⟩
  simp only [← inRange_iff]
  exact tableAt_tableMap ..

end Sys2Proof.Machine
end

-- Family 70_reset_and_hazards: reset, boot, snapshot and restore, and the re-arming of the start level.
section
/-! SUPPORT. The re-arming of the start level: WRITEs to control register A, one after the other. -/

namespace Sys2Proof.Machine

/-- A WRITE to a reaches control register A through the glue, and no other glue function (42_register_glue R151). -/
structure State.CtrlAAlone (s : State) (a : Addr) : Prop where
  glue : s.descAt .W (pageOf a) = .handler .glue
  ctrlA : a = s.cfg.ctrlAAddr
  noBank : ∀ b ∈ s.cfg.banks, b.addr ≠ a
  notCtrlB : a ≠ s.cfg.ctrlBAddr
  notAlpha : s.cfg.alphaMapAddr ≠ some a

section

variable {s u : State} {a : Addr} {d : Byte} (w : s.CtrlAAlone a) (h : exec (.write a d) s = .next u)
include w h

/-- A WRITE to control register A is what the register does, the access in flight meanwhile (41_access R123). -/
theorem State.CtrlAAlone.write_eq : u = (State.ctrlAWrite d (s.inGlue a)).pop :=
  Host.Outcome.next.inj (h.symm.trans (exec_write_of_glueTail (exec_next_fault h) w.glue w.noBank
    (State.glueTail_of_ctrlA (s := s.inGlue a) d w.ctrlA w.notCtrlB w.notAlpha)))

theorem State.CtrlAAlone.write_cfg : u.cfg = s.cfg := by
  rw [w.write_eq h]
  exact (State.ctrlAWrite_glueRel d (s.inGlue a)).cfg

/-- The next WRITE to the address reaches the register too: neither the configuration nor the page table changes. -/
theorem State.CtrlAAlone.write_keeps : u.CtrlAAlone a := by
  have hcfg := w.write_cfg h
  have hdesc : u.descAt .W (pageOf a) = s.descAt .W (pageOf a) := by
    rw [w.write_eq h]
    exact congrArg (tableAt · (pageOf a)) (State.ctrlAWrite_tables d (s.inGlue a)).2
  exact ⟨hdesc.trans w.glue, hcfg ▸ w.ctrlA, hcfg ▸ w.noBank, hcfg ▸ w.notCtrlB, hcfg ▸ w.notAlpha⟩

/-- The level is latched (42_register_glue R160). -/
theorem State.CtrlAAlone.write_startLevel : u.startLevel = startLevelOf s.cfg d := by
  rw [w.write_eq h]
  exact (State.ctrlAWrite_spec d (s.inGlue a)).1

/-- Only a rise of the level starts the engine (42_register_glue R161, R162). -/
theorem State.CtrlAAlone.write_ev_of_rise (hd : startLevelOf s.cfg d = true) (hl : s.startLevel = false) :
    u.ev = s.ev ++ [.mbxStart, .mbxDone] := by
  rw [w.write_eq h]
  exact (State.ctrlAWrite_spec d (s.inGlue a)).2.1.trans (congrArg (s.ev ++ ·) (if_pos ⟨hd, hl⟩))

theorem State.CtrlAAlone.write_of_no_rise (hn : ¬ (startLevelOf s.cfg d = true ∧ s.startLevel = false)) :
    u.ev = s.ev ∧ u.mbxRam = s.mbxRam := by
  rw [w.write_eq h]
  obtain ⟨-, hev, hsame, -⟩ := State.ctrlAWrite_spec d (s.inGlue a)
  refine ⟨hev.trans ?_, (hsame hn).1⟩
  exact (congrArg (s.ev ++ ·) (if_neg hn)).trans (List.append_nil s.ev)

end

/-- Settles O36: each WRITE latches its level, and the level before it decides whether there is a rise. -/
theorem startNeedsRearming : Obligations.StartNeedsRearming := by
  unfold Obligations.StartNeedsRearming
  intro s s1 s2 s3 s4 a d1 d2 d3 d4 hg hA hbank hB hM hd1 hd2 hd3 hd4 h1 h2 h3 h4
  have w : s.CtrlAAlone a := ⟨hg, hA, hbank, hB, hM⟩
  have w1 := w.write_keeps h1
  have w2 := w1.write_keeps h2
  have w3 := w2.write_keeps h3
  have c1 : s1.cfg = s.cfg := w.write_cfg h1
  have c2 : s2.cfg = s.cfg := (w1.write_cfg h2).trans c1
  have c3 : s3.cfg = s.cfg := (w2.write_cfg h3).trans c2
  have high1 : s1.startLevel = true := (w.write_startLevel h1).trans ((startLevelOf_iff s.cfg d1).mpr hd1)
  have low3 : startLevelOf s2.cfg d3 = false := by
    rw [c2]
    exact decide_eq_false (not_not.mpr hd3)
  have high4 : startLevelOf s3.cfg d4 = true := by
    rw [c3]
    exact (startLevelOf_iff s.cfg d4).mpr hd4
  obtain ⟨ev2, ram2⟩ := w1.write_of_no_rise h2 (by simp [high1])
  obtain ⟨ev3, -⟩ := w2.write_of_no_rise h3 (by simp [low3])
  exact ⟨ev2, ram2, ev3, w3.write_ev_of_rise h4 high4 ((w2.write_startLevel h3).trans low3)⟩

end Sys2Proof.Machine
end

section
/-! SUPPORT. Reset, and the three steps of boot from a table that is Discard everywhere, as boot and as restore run
them. -/

namespace Sys2Proof.Machine

/-! ## Reset -/

theorem step_of_host {s : State} {h : HostAction} (hx : s.takesEntry (.host h)) : step s = s.hostAct h :=
  step_of_takesEntry hx

theorem State.descAt_of_discard {s : State} (hR : s.ptR = allDiscard) (hW : s.ptW = allDiscard) (side : Side)
    (p : Page) : s.descAt side p = .discard := by
  cases side with
  | R => exact (congrArg (tableAt · p) hR).trans (tableAt_allDiscard p)
  | W => exact (congrArg (tableAt · p) hW).trans (tableAt_allDiscard p)

/-- A word of Mathbox RAM after a reset by the host is the free value of that reset (10_state R31, log 4). -/
theorem State.mbxRead_hostReset (s : State) {w : WordIndex} (hw : w.toNat < 0x2000) :
    s.hostReset.mbxRead w = Config.resetWord s.draws w.toNat := by
  have hram : s.hostReset.mbxRam = Cells.ofFn mbxRamWords (Config.resetWord s.draws) := rfl
  unfold State.mbxRead mbxRamWords
  rw [if_pos hw, hram, Cells.read_ofFn]
  exact if_pos hw

/-- Settles O51: the step is the reset itself, and a state with a fault has no other. -/
theorem resetValues : Obligations.ResetValues := by
  unfold Obligations.ResetValues
  refine ⟨fun s hx => ⟨s.hostReset, step_of_host hx, rfl, State.descAt_of_discard rfl rfl, rfl, rfl,
    fun _ => s.mbxRead_hostReset, fun _ => s.hostReset.mbxRead_of_rom, rfl, rfl, rfl, rfl, rfl⟩, fun s u hf h => ?_⟩
  obtain ⟨f, hf⟩ := Option.ne_none_iff_exists'.mp hf
  exact ((faultIsSticky s f hf).2.2 u h).1

/-! ## The canonical table -/

/-- The three steps of boot under a well-formed configuration, with nothing in flight and every descriptor Discard: they
complete and leave the canonical table (70_reset_and_hazards R232, R233). -/
theorem State.bootSteps_canonical {s : State} (hc : s.cfg.wellFormed = true) (hi : s.inflight = [])
    (hf : s.fault = none) (hd : ∀ side p, s.descAt side p = .discard) :
    s.bootSteps.fault = none ∧ ∀ side p, s.bootSteps.descAt side p = canonicalAt s.cfg s.bank side p := by
  obtain ⟨-, -, -, htab, hmap, -⟩ := (Config.wellFormed_iff _).mp hc
  have r0 : BootReady s.cfg s.bank s := ⟨rfl, hi, rfl⟩
  obtain ⟨f1, platform⟩ := State.bootPlatform_ok hmap r0 hf
  have r1 := r0.of_tablesOnly s.bootPlatform_tablesOnly
  obtain ⟨f2, glue⟩ := State.bootGlue_ok r1 f1
  have r2 := r1.of_tablesOnly s.bootPlatform.bootGlue_tablesOnly
  obtain ⟨f3, windows⟩ := State.bootWindows_ok htab r2 f2
  have steps : s.bootSteps = s.bootPlatform.bootGlue.bootWindows := by
    unfold State.bootSteps
    rw [State.andThen_of_none f1, State.andThen_of_none f2]
  rw [steps]
  refine ⟨f3, fun side p => ?_⟩
  rw [windows, glue, platform side p (hd side p)]
  rfl

/-- The frame of a map procedure that leaves FAULT as it was: the page table alone. -/
theorem TablesOnly.eq_of_fault {s t : State} (h : TablesOnly s t) (hf : t.fault = s.fault) :
    t = { s with ptR := t.ptR, ptW := t.ptW } := by
  unfold TablesOnly at h
  rwa [hf] at h

/-- Boot where its three steps complete: the phase turns to run (log 13). -/
theorem State.boot_of_steps {s : State} (h : s.bootSteps.fault = none) :
    s.boot = { s.bootSteps with phase := .run } :=
  if_pos (Option.isNone_iff_eq_none.mpr h)

/-- Settles O53: boot is the step, and its three steps leave the canonical table. -/
theorem bootGivesCanonicalTable : Obligations.BootGivesCanonicalTable := by
  unfold Obligations.BootGivesCanonicalTable
  intro s hc hp hf hx hi hd
  obtain ⟨hok, table⟩ := State.bootSteps_canonical hc hi hf hd
  have boot := State.boot_of_steps hok
  have reset : s.input[s.cursor]? ≠ some (.host .reset) := fun e => hx ⟨e, fun _ _ => rfl⟩
  refine ⟨s.boot, step_of_boot hp hf reset, fun side p => ?_, ?_⟩
  · rw [boot]
    exact table side p
  · rw [boot]
    exact congrArg (fun t : State => { t with phase := .run })
      (s.bootSteps_tablesOnly.eq_of_fault (hok.trans hf.symm))

/-! ## Snapshot and restore -/

theorem State.advance_of_none {s : State} (h : s.fault = none) : s.advance = { s with pos := s.pos + 1 } := by
  rw [State.advance_eq, State.advance_pos, if_pos h]

/-- Settles O54: a snapshot is its step, and with no fault the position moves on. -/
theorem snapshotContents : Obligations.SnapshotContents := by
  unfold Obligations.SnapshotContents
  intro s hx hf
  rw [step_of_host hx, State.hostAct, State.command_of_none hf]
  exact congrArg Host.Outcome.next
    (State.advance_of_none (s := { s with returned := none, saved := some s.snapshot }) hf)

/-- A restore with nothing in flight leaves no fault and the canonical table for the indices of the snapshot, whatever
the table and FAULT were (70_reset_and_hazards R237). -/
theorem State.restore_canonical {s : State} (hc : s.cfg.wellFormed = true) (hi : s.inflight = []) (p : Snapshot) :
    (s.restore p).fault = none ∧ ∀ side q, (s.restore p).descAt side q = canonicalAt s.cfg p.bank side q :=
  State.bootSteps_canonical hc hi rfl (State.descAt_of_discard rfl rfl)

theorem State.restore_mbxRam (p : Snapshot) (s : State) : (s.restore p).mbxRam = p.mbx := by rw [State.restore_frame]

theorem State.restore_bank (p : Snapshot) (s : State) : (s.restore p).bank = p.bank := by rw [State.restore_frame]

theorem State.restore_startLevel (p : Snapshot) (s : State) : (s.restore p).startLevel = p.startLevel := by
  rw [State.restore_frame]

theorem State.hostAct_restore {s : State} {p : Snapshot} (hf : s.fault = none) (hp : s.saved = some p) :
    s.hostAct .restore = .next (s.restore p).advance := by
  rw [State.hostAct, State.command_of_none hf]
  split
  · next hn => exact absurd (hn.symm.trans hp) nofun
  · next q hq =>
    cases hq.symm.trans hp
    rfl

/-- Settles O55: the restore is the step, and its three steps of boot leave the canonical table and no fault. -/
theorem restoreRebuildsTheTable : Obligations.RestoreRebuildsTheTable := by
  unfold Obligations.RestoreRebuildsTheTable
  intro s p hinv hf hx hp
  obtain ⟨hc, -, -, -, hquiet, -⟩ := (State.inv_iff s).mp hinv
  obtain ⟨hok, table⟩ := State.restore_canonical hc ((State.quiet_iff s).mp hquiet hf) p
  have hstep : step s = .next { s.restore p with pos := (s.restore p).pos + 1 } := by
    rw [step_of_host hx, State.hostAct_restore hf hp, State.advance_of_none hok]
  have frame := s.restore_frame p
  rw [hok.trans hf.symm] at frame
  exact ⟨_, hstep, s.restore_mbxRam p, s.restore_bank p, s.restore_startLevel p, hok, table,
    congrArg (fun t : State => { t with pos := t.pos + 1 }) frame⟩

/-- States with equal descriptors have equal page tables. -/
theorem State.tables_ext {s t : State} (h : ∀ side p, s.descAt side p = t.descAt side p) :
    s.ptR = t.ptR ∧ s.ptW = t.ptW :=
  ⟨table_ext (h .R), table_ext (h .W)⟩

/-- Settles O56: both tables are the canonical one for the same indices, and states alike give the same results and
events. -/
theorem snapshotRestoreRoundTrip : Obligations.SnapshotRestoreRoundTrip := by
  unfold Obligations.SnapshotRestoreRoundTrip
  intro s t hinv hf hcanon hcfg hi u
  obtain ⟨hc, -, -, -, hquiet, -⟩ := (State.inv_iff s).mp hinv
  obtain ⟨hok, table⟩ := State.restore_canonical (hcfg ▸ hc) hi s.snapshot
  have frame : u = _ := t.restore_frame s.snapshot
  obtain ⟨hR, hW⟩ : u.ptR = s.ptR ∧ u.ptW = s.ptW := State.tables_ext fun side p => by
    rw [hcanon, ← hcfg]
    exact table side p
  have hbank : u.bank = s.bank := t.restore_bank s.snapshot
  have hlevel : u.startLevel = s.startLevel := t.restore_startLevel s.snapshot
  have hram : u.mbxRam = s.mbxRam := t.restore_mbxRam s.snapshot
  refine ⟨hR, hW, hbank, hlevel, hram, fun hbufs hdraws is => ?_⟩
  have alike : Alike u s :=
    { cfg := (t.restore_cfg s.snapshot).trans hcfg
      ptR := hR
      ptW := hW
      bufs := (t.restore_bufs s.snapshot).trans hbufs
      mbxRam := hram
      bank := hbank
      startLevel := hlevel
      inflight := (congrArg State.inflight frame).trans (hi.trans ((State.quiet_iff s).mp hquiet hf).symm)
      fault := hok.trans hf.symm
      draws := (congrArg State.draws frame).trans hdraws }
  obtain ⟨hresults, hevents, -⟩ := commandsSeeOnlyTheBlock is u s alike
  exact ⟨hresults, hevents⟩

end Sys2Proof.Machine
end
